-- ==== Sys2Proof/Word.lean ====
section
/-! DEFINITION. The word types of the block (spec 00_scope.md R9: a byte is 8 bits; coordinates, colour and the
program pointer are 16 bits; the operation port is 82 bits, 30_encoding.md R101). -/

namespace Sys2Proof

/-- A byte, 0 to 255 (R9). -/
abbrev Byte := BitVec 8

/-- A 16-bit unsigned quantity: coordinate, size, colour, program pointer, pixel count (R9, R22, R29). -/
abbrev Word := BitVec 16

/-- One word of the host operation port (R101): `OP` in bits 81:80, then x, y, w, h, color. -/
abbrev PortWord := BitVec 82

end Sys2Proof
end

