-- ==== Sys2Proof/Config.lean ====
section
/-! DEFINITION. The parameters of the block (00_scope.md R5) and the initialization program's image as a function of
the bytes the source does not print (44_device_init.md R224, R225). -/

namespace Sys2Proof.Config

/-- `WIDTH`, the panel width in pixels (R5). -/
def width : Word := 240

/-- `HEIGHT`, the panel height in pixels (R5). -/
def height : Word := 240

/-- `COLSTART`, the column-start offset (R5, decision D12). -/
def colstart : Word := 0

/-- `ROWSTART`, the row-start offset (R5, decision D12). -/
def rowstart : Word := 0

/-- `DELAY_SENTINEL` (R5, R93). -/
def delaySentinel : Byte := 255

/-- `DELAY_SENTINEL_MS` (R5, R93). -/
def delaySentinelMs : BitVec 9 := 500

/-- `RESET_HOLD_MS` (R5, R220). -/
def resetHoldMs : BitVec 9 := 50

/-- `INIT_BASE`, the ROM address of the initialization program's count byte (R5, R64). -/
def initBase : Word := 0

/-- `POSTINIT_DATA`, the byte of the one data write after the program (R5, R223). -/
def postinitData : Byte := 0

/-- The bytes of the initialization program that the source does not give (R5, R224): six delay bytes and two
groups of four window bytes. -/
structure InitParams where
  swreset : Byte
  slpout : Byte
  colmod : Byte
  invon : Byte
  noron : Byte
  dispon : Byte
  caset0 : Byte
  caset1 : Byte
  caset2 : Byte
  caset3 : Byte
  raset0 : Byte
  raset1 : Byte
  raset2 : Byte
  raset3 : Byte
  deriving DecidableEq, Repr

/-- The 35 bytes of a conforming initialization program, by R224's table. -/
def initImage (p : InitParams) : List Byte :=
  [0x09,
   0x01, 0x80, p.swreset,
   0x11, 0x80, p.slpout,
   0x3A, 0x81, 0x55, p.colmod,
   0x36, 0x01, 0x00,
   0x2A, 0x04, p.caset0, p.caset1, p.caset2, p.caset3,
   0x2B, 0x04, p.raset0, p.raset1, p.raset2, p.raset3,
   0x21, 0x80, p.invon,
   0x13, 0x80, p.noron,
   0x29, 0x80, p.dispon]

/-- The default parameter bytes (R225; the spec marks them as general knowledge, not the source's). -/
def defaultParams : InitParams :=
  { swreset := 0x96, slpout := 0xFF, colmod := 0x0A, invon := 0x0A, noron := 0x0A, dispon := 0xFF,
    caset0 := 0x00, caset1 := 0x00, caset2 := 0x00, caset3 := 0xF0,
    raset0 := 0x00, raset1 := 0x00, raset2 := 0x00, raset3 := 0xF0 }

/-- The default ROM image (R225). -/
def defaultImage : List Byte := initImage defaultParams

end Sys2Proof.Config
end

