-- ==== Sys2Proof/Syntax.lean ====
section
/-! DEFINITION. The instructions: one constructor per row of spec/opcode_table.json (30_encoding.md R108). -/

namespace Sys2Proof

/-- One constructor per opcode-table row.
The eleven record rows (format REC, R91) carry the argument bytes `arg[0] .. arg[k-1]` and the delay byte, present
exactly when the has-delay flag is set. -/
inductive Instr where
  /-- SWRESET, opcode 0x01 (R170). -/
  | swreset (args : List Byte) (delay : Option Byte)
  /-- SLPOUT, opcode 0x11 (R171). -/
  | slpout (args : List Byte) (delay : Option Byte)
  /-- COLMOD, opcode 0x3A (R172). -/
  | colmod (args : List Byte) (delay : Option Byte)
  /-- MADCTL, opcode 0x36 (R173). -/
  | madctl (args : List Byte) (delay : Option Byte)
  /-- CASET, opcode 0x2A, as a ROM record (R174 (a)). -/
  | caset (args : List Byte) (delay : Option Byte)
  /-- RASET, opcode 0x2B, as a ROM record (R175 (a)). -/
  | raset (args : List Byte) (delay : Option Byte)
  /-- RAMWR, opcode 0x2C, as a ROM record (R176, corner case). -/
  | ramwr (args : List Byte) (delay : Option Byte)
  /-- INVON, opcode 0x21 (R177). -/
  | invon (args : List Byte) (delay : Option Byte)
  /-- NORON, opcode 0x13 (R178). -/
  | noron (args : List Byte) (delay : Option Byte)
  /-- DISPON, opcode 0x29 (R179). -/
  | dispon (args : List Byte) (delay : Option Byte)
  /-- CMD, the catch-all record row: any other opcode (R142, R180). -/
  | cmd (opcode : Byte) (args : List Byte) (delay : Option Byte)
  /-- DLY500, the delay byte 255 (R93, R144). -/
  | dly500
  /-- DLYMS, a delay byte `d` in 0 .. 254 (R93, R144). -/
  | dlyms (d : Byte)
  /-- INIT, `OP` = 0 (R222). -/
  | init
  /-- FILLSCREEN, `OP` = 1 (R199). -/
  | fillscreen (color : Word)
  /-- FILLRECT, `OP` = 2 (R195). -/
  | fillrect (x y w h color : Word)
  /-- RESERVED_OP3, `OP` = 3 (R101). -/
  | reservedOp3
  /-- WRITECOMMAND, `SUBOP` = 0 (R120). -/
  | writecommand (b : Byte)
  /-- WRITEDATA, `SUBOP` = 1 (R121). -/
  | writedata (b : Byte)
  /-- STREAMPIXELS, `SUBOP` = 2 (R126). -/
  | streampixels (hi lo : Byte) (n : Word)
  /-- RUNPROG, `SUBOP` = 3 (R140). -/
  | runprog (base : Word)
  /-- SETADDRWINDOW, `SUBOP` = 4 (R190). -/
  | setaddrwindow (x0 y0 x1 y1 : Word)
  /-- RESETPULSE, `SUBOP` = 5 (R220). -/
  | resetpulse
  deriving DecidableEq, Repr

end Sys2Proof
end

