-- ==== Sys2Proof/WellFormed.lean ====
section
/-! DEFINITION. Which terms of `Instr` are instructions the encodings can express. -/

namespace Sys2Proof

/-- The ten opcodes with a row of their own (30_encoding.md R105). -/
def listedOpcodes : List Byte := [0x01, 0x11, 0x3A, 0x36, 0x2A, 0x2B, 0x2C, 0x21, 0x13, 0x29]

/-- The argument count fits the seven bits of the argsByte (R92). -/
def argsFit (args : List Byte) : Bool := args.length ≤ 127

/-- Well-formed instructions.
A record has at most 127 arguments (R92); the catch-all row `CMD` names no opcode of an earlier row (R108);
the row `DLYMS` is not the sentinel, which the earlier row `DLY500` takes (R93, R108).
Every operand of every other instruction is legal (R107). -/
def Instr.wf : Instr → Bool
  | .swreset args _ => argsFit args
  | .slpout args _ => argsFit args
  | .colmod args _ => argsFit args
  | .madctl args _ => argsFit args
  | .caset args _ => argsFit args
  | .raset args _ => argsFit args
  | .ramwr args _ => argsFit args
  | .invon args _ => argsFit args
  | .noron args _ => argsFit args
  | .dispon args _ => argsFit args
  | .cmd opcode args _ => argsFit args && !listedOpcodes.contains opcode
  | .dly500 => true
  | .dlyms d => d != 255
  | .init => true
  | .fillscreen _ => true
  | .fillrect _ _ _ _ _ => true
  | .reservedOp3 => true
  | .writecommand _ => true
  | .writedata _ => true
  | .streampixels _ _ _ => true
  | .runprog _ => true
  | .setaddrwindow _ _ _ _ => true
  | .resetpulse => true

end Sys2Proof
end

