-- ==== Sys2Proof/Decode.lean ====
section
/-! DEFINITION. The decoders and encoders of the four formats of the opcode table (30_encoding.md R90 to R108), and the
assembler notation (R110, R111). -/

namespace Sys2Proof

/-- Why bytes are no instruction. The record format has no illegal byte (R107): a record is rejected only when it is
cut short or followed by more bytes than its argsByte implies. -/
inductive DecodeError where
  /-- No byte at all. -/
  | noOpcode
  /-- The record ends before its argsByte. -/
  | noArgsByte
  /-- The record ends inside its `k` arguments (R91). -/
  | missingArguments
  /-- The has-delay flag is set and no delay byte follows (R93). -/
  | missingDelayByte
  /-- Bytes follow the record's last byte (R94). -/
  | trailingBytes
  /-- `SUBOP` 6 or 7 (R107 (c)). -/
  | unusedSubop
  deriving DecidableEq, Repr

/-- A record as its fields (R91): opcode, argument bytes, and the delay byte when flagged. -/
structure RawRecord where
  opcode : Byte
  args : List Byte
  delay : Option Byte
  deriving DecidableEq, Repr

/-- The operand bytes and words a sub-operation takes (R102), under the names of the working registers that hold them
(10_state.md R44): `b` of WRITECOMMAND in `OPC`, `b` of WRITEDATA in `DAT`, the pixel operands in `PIXHI`, `PIXLO`,
`PIXCNT`, the base of RUNPROG in `PP`, the window in `X0`, `Y0`, `X1`, `Y1`. -/
structure SubOperands where
  opc : Byte
  dat : Byte
  pixhi : Byte
  pixlo : Byte
  pixcnt : Word
  pp : Word
  x0 : Word
  y0 : Word
  x1 : Word
  y1 : Word
  deriving DecidableEq, Repr

/-- Operand registers that are all zero. -/
def SubOperands.zero : SubOperands :=
  { opc := 0, dat := 0, pixhi := 0, pixlo := 0, pixcnt := 0, pp := 0, x0 := 0, y0 := 0, x1 := 0, y1 := 0 }

/-- The six sub-operations, as the sequencer's control state selects them (R102). -/
inductive SubOp where
  | writeCommand
  | writeData
  | streamPixels
  | runProg
  | setAddrWindow
  | resetPulse
  deriving DecidableEq, Repr

/-- The code word of an instruction, one form per format of the opcode table (R108): the bytes of a record, a delay
byte, the 82-bit port word of a host operation, or a 3-bit sub-operation code with its operand registers. -/
inductive CodeWord where
  | record (bytes : List Byte)
  | delayByte (d : Byte)
  | port (w : PortWord)
  | subop (code : BitVec 3) (r : SubOperands)
  deriving DecidableEq, Repr

/-! ### The argsByte (R92) -/

/-- `k = argsByte[6:0]`, the argument count (R92). -/
def argCount (a : Byte) : BitVec 7 := a.extractLsb' 0 7

/-- `f = argsByte[7]`, the has-delay flag (R92). -/
def hasDelay (a : Byte) : Bool := a.getLsbD 7

/-- The argsByte `0x80 * f + k` (R92, R110). -/
def mkArgsByte (f : Bool) (k : BitVec 7) : Byte := BitVec.ofBool f ++ k

/-- The argsByte of a record's fields. -/
def RawRecord.argsByte (r : RawRecord) : Byte := mkArgsByte r.delay.isSome (BitVec.ofNat 7 r.args.length)

/-- `len = 2 + k + f`, the bytes a record occupies (R91, R94). -/
def RawRecord.len (r : RawRecord) : Nat := 2 + r.args.length + r.delay.toList.length

/-! ### Decoding -/

/-- The row a record belongs to: the ten named rows match on the opcode alone (mask 0xFF00 of the header, R96), the
catch-all `CMD` comes last (R108). -/
def nameRecord (r : RawRecord) : Instr :=
  if r.opcode = 0x01 then .swreset r.args r.delay
  else if r.opcode = 0x11 then .slpout r.args r.delay
  else if r.opcode = 0x3A then .colmod r.args r.delay
  else if r.opcode = 0x36 then .madctl r.args r.delay
  else if r.opcode = 0x2A then .caset r.args r.delay
  else if r.opcode = 0x2B then .raset r.args r.delay
  else if r.opcode = 0x2C then .ramwr r.args r.delay
  else if r.opcode = 0x21 then .invon r.args r.delay
  else if r.opcode = 0x13 then .noron r.args r.delay
  else if r.opcode = 0x29 then .dispon r.args r.delay
  else .cmd r.opcode r.args r.delay

/-- The row a delay byte belongs to: the sentinel row `DLY500` before `DLYMS` (R93, R108). -/
def nameDelay (d : Byte) : Instr := if d = 0xFF then .dly500 else .dlyms d

/-- One record off the front of a byte list, and the bytes after it (R91, R94). The opcode is not examined (R106). -/
def decodeRecord : List Byte → Except DecodeError (RawRecord × List Byte)
  | [] => .error .noOpcode
  | [_] => .error .noArgsByte
  | o :: a :: rest =>
    if rest.length < (argCount a).toNat then .error .missingArguments
    else
      match hasDelay a, rest.drop (argCount a).toNat with
      | false, after => .ok (⟨o, rest.take (argCount a).toNat, none⟩, after)
      | true, [] => .error .missingDelayByte
      | true, d :: after => .ok (⟨o, rest.take (argCount a).toNat, some d⟩, after)

/-- The host operation a port word selects (R101). Operand fields an operation does not take are ignored. -/
def decodePort (w : PortWord) : Instr :=
  let op : BitVec 2 := w.extractLsb' 80 2
  if op = 0 then .init
  else if op = 1 then .fillscreen (w.extractLsb' 0 16)
  else if op = 2 then
    .fillrect (w.extractLsb' 64 16) (w.extractLsb' 48 16) (w.extractLsb' 32 16) (w.extractLsb' 16 16)
      (w.extractLsb' 0 16)
  else .reservedOp3

/-- The sub-operation with its operands taken from the registers that hold them (R102). -/
def nameSub (op : SubOp) (r : SubOperands) : Instr :=
  match op with
  | .writeCommand => .writecommand r.opc
  | .writeData => .writedata r.dat
  | .streamPixels => .streampixels r.pixhi r.pixlo r.pixcnt
  | .runProg => .runprog r.pp
  | .setAddrWindow => .setaddrwindow r.x0 r.y0 r.x1 r.y1
  | .resetPulse => .resetpulse

/-- The sub-operation of a `SUBOP` code (R102); codes 6 and 7 are unused (R107). -/
def decodeSubCode (code : BitVec 3) : Option SubOp :=
  if code = 0 then some .writeCommand
  else if code = 1 then some .writeData
  else if code = 2 then some .streamPixels
  else if code = 3 then some .runProg
  else if code = 4 then some .setAddrWindow
  else if code = 5 then some .resetPulse
  else none

/-- The decoder of all four formats. -/
def decode : CodeWord → Except DecodeError Instr
  | .record bytes =>
    match decodeRecord bytes with
    | .error e => .error e
    | .ok (r, []) => .ok (nameRecord r)
    | .ok (_, _ :: _) => .error .trailingBytes
  | .delayByte d => .ok (nameDelay d)
  | .port w => .ok (decodePort w)
  | .subop code r =>
    match decodeSubCode code with
    | some op => .ok (nameSub op r)
    | none => .error .unusedSubop

/-! ### Encoding -/

/-- The bytes of a record, in ROM order (R91). -/
def RawRecord.bytes (r : RawRecord) : List Byte := r.opcode :: r.argsByte :: (r.args ++ r.delay.toList)

/-- The fields of a record instruction; none for the other groups. -/
def Instr.rawRecord? : Instr → Option RawRecord
  | .swreset args delay => some ⟨0x01, args, delay⟩
  | .slpout args delay => some ⟨0x11, args, delay⟩
  | .colmod args delay => some ⟨0x3A, args, delay⟩
  | .madctl args delay => some ⟨0x36, args, delay⟩
  | .caset args delay => some ⟨0x2A, args, delay⟩
  | .raset args delay => some ⟨0x2B, args, delay⟩
  | .ramwr args delay => some ⟨0x2C, args, delay⟩
  | .invon args delay => some ⟨0x21, args, delay⟩
  | .noron args delay => some ⟨0x13, args, delay⟩
  | .dispon args delay => some ⟨0x29, args, delay⟩
  | .cmd opcode args delay => some ⟨opcode, args, delay⟩
  | .dly500 => none
  | .dlyms _ => none
  | .init => none
  | .fillscreen _ => none
  | .fillrect _ _ _ _ _ => none
  | .reservedOp3 => none
  | .writecommand _ => none
  | .writedata _ => none
  | .streampixels _ _ _ => none
  | .runprog _ => none
  | .setaddrwindow _ _ _ _ => none
  | .resetpulse => none

/-- The 82-bit port word of R101's table, fields most significant first. -/
def mkPortWord (op : BitVec 2) (x y w h color : Word) : PortWord := op ++ x ++ y ++ w ++ h ++ color

/-- The code of a sub-operation (R102). -/
def SubOp.code : SubOp → BitVec 3
  | .writeCommand => 0
  | .writeData => 1
  | .streamPixels => 2
  | .runProg => 3
  | .setAddrWindow => 4
  | .resetPulse => 5

/-- The encoder, from the tables of R91, R93, R101 and R102; operand fields an instruction does not take are zero. -/
def encode : Instr → CodeWord
  | .swreset args delay => .record (RawRecord.bytes ⟨0x01, args, delay⟩)
  | .slpout args delay => .record (RawRecord.bytes ⟨0x11, args, delay⟩)
  | .colmod args delay => .record (RawRecord.bytes ⟨0x3A, args, delay⟩)
  | .madctl args delay => .record (RawRecord.bytes ⟨0x36, args, delay⟩)
  | .caset args delay => .record (RawRecord.bytes ⟨0x2A, args, delay⟩)
  | .raset args delay => .record (RawRecord.bytes ⟨0x2B, args, delay⟩)
  | .ramwr args delay => .record (RawRecord.bytes ⟨0x2C, args, delay⟩)
  | .invon args delay => .record (RawRecord.bytes ⟨0x21, args, delay⟩)
  | .noron args delay => .record (RawRecord.bytes ⟨0x13, args, delay⟩)
  | .dispon args delay => .record (RawRecord.bytes ⟨0x29, args, delay⟩)
  | .cmd opcode args delay => .record (RawRecord.bytes ⟨opcode, args, delay⟩)
  | .dly500 => .delayByte 0xFF
  | .dlyms d => .delayByte d
  | .init => .port (mkPortWord 0 0 0 0 0 0)
  | .fillscreen color => .port (mkPortWord 1 0 0 0 0 color)
  | .fillrect x y w h color => .port (mkPortWord 2 x y w h color)
  | .reservedOp3 => .port (mkPortWord 3 0 0 0 0 0)
  | .writecommand b => .subop SubOp.writeCommand.code { SubOperands.zero with opc := b }
  | .writedata b => .subop SubOp.writeData.code { SubOperands.zero with dat := b }
  | .streampixels hi lo n =>
    .subop SubOp.streamPixels.code { SubOperands.zero with pixhi := hi, pixlo := lo, pixcnt := n }
  | .runprog base => .subop SubOp.runProg.code { SubOperands.zero with pp := base }
  | .setaddrwindow x0 y0 x1 y1 =>
    .subop SubOp.setAddrWindow.code { SubOperands.zero with x0 := x0, y0 := y0, x1 := x1, y1 := y1 }
  | .resetpulse => .subop SubOp.resetPulse.code SubOperands.zero

/-! ### The opcode table's own numbering -/

/-- The bytes of the record whose 16-bit header (R96, opcode in bits 15:8, argsByte in bits 7:0) is `hdr`, its argument
and delay bytes all zero. -/
def headerRecord (hdr : Nat) : List Byte :=
  let a : Byte := BitVec.ofNat 8 hdr
  BitVec.ofNat 8 (hdr / 256) :: a :: List.replicate ((argCount a).toNat + (hasDelay a).toNat) 0

/-- The code word of an instruction whose bits are `w`, `nbits` of them, as the opcode table numbers them; every bit
above is zero. 16 bits: a record header. 2 bits: the selector `OP`. 3 bits: a `SUBOP` code. 82 bits: a whole port word.
8 bits: the table's rows of formats HOSTOP, SUBOP and DELAYBYTE all fit a byte and overlap there, since in the machine
the control state tells them apart; DESIGN CHOICE (log 12): 0 to 3 are read as `OP`, 4 and 5 as `SUBOP`, the rest as a
delay byte. -/
def tableCodeWord (nbits w : Nat) : Option CodeWord :=
  if nbits = 16 then some (.record (headerRecord w))
  else if nbits = 2 then some (.port (mkPortWord (BitVec.ofNat 2 w) 0 0 0 0 0))
  else if nbits = 3 then some (.subop (BitVec.ofNat 3 w) SubOperands.zero)
  else if nbits = 82 then some (.port (BitVec.ofNat 82 w))
  else if nbits = 8 then
    if w < 4 then some (.port (mkPortWord (BitVec.ofNat 2 w) 0 0 0 0 0))
    else if w < 6 then some (.subop (BitVec.ofNat 3 w) SubOperands.zero)
    else some (.delayByte (BitVec.ofNat 8 w))
  else none

/-- The instruction the decoder reads from table bits `w` (see `tableCodeWord`). -/
def decodeTableWord (nbits w : Nat) : Option Instr :=
  match tableCodeWord nbits w with
  | none => none
  | some c =>
    match decode c with
    | .ok i => some i
    | .error _ => none

/-! ### The assembler notation (R110, R111) -/

/-- One record line `CMD <opcode> [<arg> ...] [; delay <ms>]` (R110). -/
structure AsmLine where
  opcode : Byte
  args : List Byte
  delay : Option Nat
  deriving DecidableEq, Repr

/-- The delay byte of a `delay <ms>` clause: `255 if ms = 500 else ms`; any other value, 255 among them, is an error
(R110, R93). -/
def asmDelayByte (ms : Nat) : Option Byte :=
  if ms = 500 then some 255 else if ms < 255 then some (BitVec.ofNat 8 ms) else none

/-- The record a line stands for; none for more than 127 arguments or an unencodable delay (R110). -/
def AsmLine.record (l : AsmLine) : Option RawRecord :=
  if 127 < l.args.length then none
  else
    match l.delay with
    | none => some ⟨l.opcode, l.args, none⟩
    | some ms =>
      match asmDelayByte ms with
      | none => none
      | some d => some ⟨l.opcode, l.args, some d⟩

/-- The records of a listing, in order; none if a line is in error. -/
def asmRecords : List AsmLine → Option (List RawRecord)
  | [] => some []
  | l :: ls =>
    match l.record, asmRecords ls with
    | some r, some rs => some (r :: rs)
    | _, _ => none

/-- The bytes of the program `.count n` followed by `lines` (R90, R110); `n` must equal the number of lines. -/
def assemble (n : Byte) (lines : List AsmLine) : Option (List Byte) :=
  if n.toNat = lines.length then
    match asmRecords lines with
    | some rs => some (n :: rs.flatMap RawRecord.bytes)
    | none => none
  else none

/-- The opcode each mnemonic of R111 is shorthand for. -/
def asmMnemonics : List (String × Byte) :=
  [("SWRESET", 0x01), ("SLPOUT", 0x11), ("NORON", 0x13), ("INVON", 0x21), ("DISPON", 0x29),
   ("CASET", 0x2A), ("RASET", 0x2B), ("RAMWR", 0x2C), ("MADCTL", 0x36), ("COLMOD", 0x3A)]

/-- A mnemonic line is a `CMD` line with the mnemonic's opcode (R111). -/
def asmMnemonicLine (name : String) (args : List Byte) (delay : Option Nat) : Option AsmLine :=
  match asmMnemonics.find? (fun row => row.1 == name) with
  | some row => some ⟨row.2, args, delay⟩
  | none => none

end Sys2Proof
end

