-- ==== Sys2Proof/Machine/State.lean ====
section
/-! DEFINITION. The state of the block (10_state.md R20 to R44), its events (00_scope.md R7), its outcomes
(00_scope.md R8, 60_exceptions.md R241) and its reset (70_reset_and_hazards.md R270). -/

namespace Sys2Proof.Machine

/-- The three pin roles (R12, R37). -/
inductive Pin where
  | dc
  | cs
  | rst
  deriving DecidableEq, Repr

/-- The six observable events (R7). Levels are Bool: false is low (0), true is high (1). -/
inductive Event where
  /-- `PinDir(p)`: the pin is configured as an output. -/
  | pinDir (p : Pin)
  /-- `Pin(p, v)`: the pin is driven to a level. -/
  | pin (p : Pin) (v : Bool)
  /-- `TxnBegin`: the block takes the bus. -/
  | txnBegin
  /-- `TxnEnd`: the block releases the bus. -/
  | txnEnd
  /-- `Xfer(b)`: one 8-bit transfer. -/
  | xfer (b : Byte)
  /-- `Delay(n)`: at least `n` milliseconds pass. -/
  | delay (n : Nat)
  deriving DecidableEq, Repr

/-- `PHASE` (R33). -/
inductive Phase where
  | unpowered
  | resetting
  | programExecuting
  | ready
  deriving DecidableEq, Repr

/-- `GEO`, the panel geometry (R35). -/
structure Geo where
  width : Word
  height : Word
  colstart : Word
  rowstart : Word
  xstart : Word
  ystart : Word
  deriving DecidableEq, Repr

/-- The bus clock rate as a name: the spec encodes no rate and no rule reads one (R36, U13; log 4). -/
inductive BusClock where
  /-- No rate configured: the model's reset value. -/
  | none
  /-- The rate `SPI_HZ`, about 24 MHz (R5). -/
  | spiHz
  deriving DecidableEq, Repr

/-- The bit order of a transfer (R36). -/
inductive BitOrder where
  | lsbFirst
  | msbFirst
  deriving DecidableEq, Repr

/-- The clock polarity and sampling edge (R36, R128). -/
structure BusMode where
  idleHigh : Bool
  sampleFalling : Bool
  deriving DecidableEq, Repr

/-- `BUSCFG` (R36). -/
structure BusCfg where
  clock : BusClock
  bitorder : BitOrder
  mode : BusMode
  deriving DecidableEq, Repr

/-- One bit per pin role: the level latches `PIN.*` or the directions `DIR.*` (R37). -/
structure PinBits where
  dc : Bool
  cs : Bool
  rst : Bool
  deriving DecidableEq, Repr

/-- The host operation the sequencer returns to when a sub-operation ends (R150, R245). -/
inductive Caller where
  /-- No host operation runs. -/
  | none
  /-- INIT runs. -/
  | init
  /-- FILLRECT or FILLSCREEN runs. -/
  | fill
  deriving DecidableEq, Repr

/-- Where the sequencer stands (R40). The six `ci` positions are R148's; the others number the steps of the other
operations' rules (log 8). -/
inductive Pos where
  /-- `IDLE`: the operation port is sampled. -/
  | idle
  /-- A sub-operation is about to start, its operands in its registers (R102). -/
  | sub (op : SubOp)
  /-- INIT: pins and bus configuration (R222). -/
  | initPins
  /-- RESETPULSE: position in its six events (R220). -/
  | pulse (i : Fin 6)
  /-- INIT: start of RUNPROG (R222). -/
  | progStart
  | ciCount
  | ciOpc
  | ciHdr
  | ciArg
  | ciDlyb
  | ciWait
  /-- INIT: the post-program data write (R223). -/
  | initPost
  /-- INIT: the geometry latch (R228). -/
  | initLatch
  /-- FILLRECT: off-panel test, empty test, clip (R195). -/
  | fillTest
  /-- SETADDRWINDOW: position in its eleven logical writes (R190). -/
  | window (i : Fin 11)
  /-- FILLRECT: colour split and pixel count (R195). -/
  | pixLoad
  /-- STREAMPIXELS: the three opening events (R126). -/
  | streamOpen
  /-- STREAMPIXELS: one pixel pair (R126). -/
  | streamPix
  /-- STREAMPIXELS: the two closing events (R126). -/
  | streamClose
  deriving DecidableEq, Repr

/-- `CTL`, the sequencer's control state (R40). -/
structure Ctl where
  caller : Caller
  pos : Pos
  deriving DecidableEq, Repr

/-- The ROM as a list of (address, byte) pairs in canonical form (see `Memory.wf`); what an unlisted address reads as
is `Memory.unlisted` (log 2). -/
abbrev Memory := List Host.Cell

/-- The block has no faults: no exception, trap or error flag of any kind (R240). Nobody raises one. -/
inductive Fault
  deriving DecidableEq, Repr

/-- The refused outcomes (R8, R241). All are safe: the run stops where the spec gives no meaning. -/
inductive Refusal where
  /-- Raised by operation acceptance (R246): a host operation started while `BUSY` = 1, a fill while `PHASE` is not
  `Ready`, INIT while `PHASE` is `Resetting` or `ProgramExecuting`. Safe. -/
  | notReady
  /-- Raised by the operation port for `OP` = 3 (R101). Safe. -/
  | reservedHostOp
  /-- Raised by INIT when the initialization program is not well-formed (R146, R244). Safe. -/
  | malformedProgram
  /-- Raised by a ROM read at or beyond `ROM_SIZE` (R62). The events emitted before the refused read stay in the trace,
  which the refusal carries: a refused outcome has no state to hold it. Safe. -/
  | romOutOfRange (trace : List Event)
  /-- Raised by FILLRECT for an empty rectangle with its origin on the panel (R194). Safe. -/
  | degenerateRect
  /-- Raised by `exec` for an instruction that has no meaning yet; no arm raises it now. Safe. -/
  | notModelled (mnemonic : String)
  deriving DecidableEq, Repr

/-- The state: the spec's registers under the spec's names (R20), the configuration it fixes before a run (ROM and its
size, R21; log 1), and the model's pending host requests and event trace (log 5, log 6). -/
structure State where
  pp : Word
  cnt : Byte
  opc : Byte
  args : Byte
  dlyf : Bool
  argc : BitVec 7
  dat : Byte
  dly : Byte
  ms : BitVec 9
  x0 : Word
  y0 : Word
  x1 : Word
  y1 : Word
  fx : Word
  fy : Word
  fw : Word
  fh : Word
  color : Word
  pixhi : Byte
  pixlo : Byte
  pixcnt : Word
  phase : Phase
  busy : Bool
  geo : Geo
  buscfg : BusCfg
  pin : PinBits
  dir : PinBits
  txn : Bool
  ctl : Ctl
  rom : Memory
  romSize : Fin 65536
  initLen : Nat
  port : List PortWord
  trace : List Event
  deriving DecidableEq, Repr

/-- What a step or a meaning answers. -/
abbrev Result := Host.Outcome State Fault Refusal

/-- The control state `IDLE` (R40). -/
def Ctl.idle : Ctl := { caller := .none, pos := .idle }

/-- The state after the block's reset (R43, R270): `PHASE` = Unpowered, `BUSY` = `TXN` = 0, `CTL` = IDLE, `DIR.*` = 0,
empty trace, no host request. Every other register is unspecified by the spec; the model names zero for each, and for
`BUSCFG` no clock, LSB first, idle low and rising edge (DESIGN CHOICE, log 3 and log 4). The ROM is the default image
(R225). -/
def State.reset : State :=
  { pp := 0, cnt := 0, opc := 0, args := 0, dlyf := false, argc := 0, dat := 0, dly := 0, ms := 0,
    x0 := 0, y0 := 0, x1 := 0, y1 := 0, fx := 0, fy := 0, fw := 0, fh := 0, color := 0,
    pixhi := 0, pixlo := 0, pixcnt := 0,
    phase := .unpowered, busy := false,
    geo := { width := 0, height := 0, colstart := 0, rowstart := 0, xstart := 0, ystart := 0 },
    buscfg := { clock := .none, bitorder := .lsbFirst, mode := { idleHigh := false, sampleFalling := false } },
    pin := { dc := false, cs := false, rst := false },
    dir := { dc := false, cs := false, rst := false },
    txn := false, ctl := Ctl.idle,
    rom := [], romSize := 35, initLen := 35,
    port := [], trace := [] }

end Sys2Proof.Machine
end

