-- ==== Sys2Proof/Machine/Ops.lean ====
section
/-! DEFINITION. The shared operations: sequencing of outcomes, the ROM (20_memory.md), the event primitives and the
logical writes (40_bus_transport.md). -/

namespace Sys2Proof.Machine

/-! ### Sequencing -/

/-- Run `f` on the state a result reached; a fault or a refusal stays as it is. -/
def andThen (r : Result) (f : State → Result) : Result :=
  match r with
  | .next s => f s
  | .fault e => .fault e
  | .refused e => .refused e

/-- Apply `f` to the state a result reached. -/
def mapNext (r : Result) (f : State → State) : Result := andThen r fun s => .next (f s)

/-! ### The program ROM (R60 to R63) -/

/-- What an address with no entry reads as: the default image (R225), and 0 beyond it (log 2). -/
def Memory.unlisted (a : Nat) : Byte := (Config.defaultImage[a]?).getD 0

/-- The byte at an address. -/
def Memory.read : Memory → Nat → Byte
  | [], a => Memory.unlisted a
  | (k, b) :: m, a => if a = k then b else Memory.read m a

/-- Insert an entry in address order, replacing one of the same address. -/
def Memory.insert (a : Nat) (b : Byte) : Memory → Memory
  | [] => [(a, b)]
  | (k, c) :: m =>
    if a < k then (a, b) :: (k, c) :: m
    else if a = k then (a, b) :: m
    else (k, c) :: Memory.insert a b m

/-- Remove the entry of an address. -/
def Memory.erase (a : Nat) : Memory → Memory
  | [] => []
  | (k, c) :: m => if a = k then m else (k, c) :: Memory.erase a m

/-- Store a byte, keeping the canonical form: the byte an unlisted address reads as removes the entry. The block itself
never stores (R63); this is how a platform's ROM is written down. -/
def Memory.write (m : Memory) (a : Nat) (b : Byte) : Memory :=
  if b = Memory.unlisted a then Memory.erase a m else Memory.insert a b m

/-- Store bytes at consecutive addresses. -/
def Memory.writeBytes (m : Memory) (a : Nat) : List Byte → Memory
  | [] => m
  | b :: bs => Memory.writeBytes (Memory.write m a b) (a + 1) bs

/-- Every address of the list is above `lo` and they rise strictly; no entry equals what an unlisted address reads as. -/
def Memory.wfFrom : Nat → Memory → Bool
  | _, [] => true
  | lo, (k, b) :: m => lo ≤ k && b != Memory.unlisted k && Memory.wfFrom (k + 1) m

/-- The canonical form of a ROM. -/
def Memory.wf (m : Memory) : Bool := Memory.wfFrom 0 m

/-- `MemRead(a, 1)`: `ROM[a]` below `ROM_SIZE`, otherwise `refuse(RomOutOfRange)` with the trace as it stands
(R60, R62). -/
def State.memRead (s : State) (a : Nat) : Except Refusal Byte :=
  if a < s.romSize.val then .ok (Memory.read s.rom a) else .error (.romOutOfRange s.trace)

/-- `MemRead(PP, 1)` followed at once by `PP <- PP + 1`, the byte handed to its use (R22, R61). -/
def fetchThen (s : State) (use : Byte → State → Result) : Result :=
  match s.memRead s.pp.toNat with
  | .error r => .refused r
  | .ok b => use b { s with pp := s.pp + 1 }

/-! ### Events and latches (R37, R38, R123, R125) -/

/-- `Pin(p, v)` writes `PIN.p` (R37). -/
def latchPin (pin : PinBits) : Event → PinBits
  | .pin .dc v => { pin with dc := v }
  | .pin .cs v => { pin with cs := v }
  | .pin .rst v => { pin with rst := v }
  | .pinDir _ => pin
  | .txnBegin => pin
  | .txnEnd => pin
  | .xfer _ => pin
  | .delay _ => pin

/-- `PinDir(p)` writes `DIR.p <- 1` (R37). -/
def latchDir (dir : PinBits) : Event → PinBits
  | .pinDir .dc => { dir with dc := true }
  | .pinDir .cs => { dir with cs := true }
  | .pinDir .rst => { dir with rst := true }
  | .pin _ _ => dir
  | .txnBegin => dir
  | .txnEnd => dir
  | .xfer _ => dir
  | .delay _ => dir

/-- `TxnBegin` sets `TXN`, `TxnEnd` clears it (R38, R125). -/
def latchTxn (txn : Bool) : Event → Bool
  | .txnBegin => true
  | .txnEnd => false
  | .pinDir _ => txn
  | .pin _ _ => txn
  | .xfer _ => txn
  | .delay _ => txn

/-- Emit events in order: append them to the trace and let each update the latches (R10, R37, R38, R72). A redundant
`Pin` event is emitted all the same (R123). -/
def emit (es : List Event) (s : State) : State :=
  { s with
    pin := es.foldl latchPin s.pin
    dir := es.foldl latchDir s.dir
    txn := es.foldl latchTxn s.txn
    trace := s.trace ++ es }

/-- `WC(b)`, a command write (R11, R120). -/
def wc (b : Byte) : List Event :=
  [.txnBegin, .pin .dc false, .pin .cs false, .xfer b, .pin .cs true, .txnEnd]

/-- `WD(b)`, a data write (R11, R121). -/
def wd (b : Byte) : List Event :=
  [.txnBegin, .pin .dc true, .pin .cs false, .xfer b, .pin .cs true, .txnEnd]

/-- WRITECOMMAND (R120). -/
def writeCommand (b : Byte) (s : State) : State := emit (wc b) s

/-- WRITEDATA (R121). -/
def writeData (b : Byte) (s : State) : State := emit (wd b) s

/-- `DAT <- b; call WRITEDATA(DAT)`, as RUNPROG, SETADDRWINDOW and INIT do (R26). -/
def sendData (b : Byte) (s : State) : State := writeData b { s with dat := b }

/-- `sendData` for each byte in order (R140 step 3). -/
def sendAll (bs : List Byte) (s : State) : State := bs.foldl (fun t b => sendData b t) s

/-- `MS <- ms; emit Delay(MS)`, the delay unit's one behaviour (R250). -/
def waitMs (ms : BitVec 9) (s : State) : State := emit [.delay ms.toNat] { s with ms := ms }

end Sys2Proof.Machine
end

