-- ==== Sys2Proof/Machine/Operands.lean ====
section
/-! DEFINITION. Operand assembly (30_encoding.md R97), the operands sub-operations take from registers, and the clip
arithmetic (43_window_writer.md R196, R200). -/

namespace Sys2Proof.Machine

/-- `hi8(v) = v[15:8]` (R9, R97). -/
def hi8 (v : Word) : Byte := v.extractLsb' 8 8

/-- `lo8(v) = v[7:0]` (R9, R97). -/
def lo8 (v : Word) : Byte := v.extractLsb' 0 8

/-- The sentinel mapping `500 if d = 255 else d`, zero-extended to 9 bits (R27, R93, R200 (d)). -/
def delayMs (d : Byte) : BitVec 9 :=
  if d = Config.delaySentinel then Config.delaySentinelMs else d.setWidth 9

/-- The operand registers of the sub-operations (R44; log 9). -/
def State.subOperands (s : State) : SubOperands :=
  { opc := s.opc, dat := s.dat, pixhi := s.pixhi, pixlo := s.pixlo, pixcnt := s.pixcnt, pp := s.pp,
    x0 := s.x0, y0 := s.y0, x1 := s.x1, y1 := s.y1 }

/-- The clip of one dimension (R196): `limit - origin if origin + size - 1 >= limit else size`, computed exactly. -/
def clip (origin size limit : Word) : Word :=
  if limit.toNat ≤ origin.toNat + size.toNat - 1 then limit - origin else size

/-- `origin + size - 1`, the last column or row of the window (R195), formed exactly and stored into 16 bits. -/
def lastOf (origin size : Word) : Word := BitVec.ofNat 16 (origin.toNat + size.toNat - 1)

/-- `FW * FH` into the 16-bit `PIXCNT` (R30, R200 (h)). -/
def pixelCount (w h : Word) : Word := BitVec.ofNat 16 (w.toNat * h.toNat)

/-- A decrement that is guarded by a test for non-zero (R200 (b)). -/
def guardedDec {n : Nat} (v : BitVec n) : BitVec n := if v = 0 then 0 else v - 1

end Sys2Proof.Machine
end

