-- ==== Sys2Proof/Machine/Flags.lean ====
section
/-! DEFINITION. The status values `BUSY`, `PHASE`, `DLYF` (10_state.md R32) and operation acceptance (60_exceptions.md
R244, R246), which stands where other hardware takes an exception. -/

namespace Sys2Proof.Machine

/-- The numeric code of a phase (R33). -/
def Phase.code : Phase → BitVec 2
  | .unpowered => 0
  | .resetting => 1
  | .programExecuting => 2
  | .ready => 3

/-- Is the rectangle's origin off the panel? (R197, R200 (e)) -/
def offPanel (s : State) : Bool := decide (s.geo.width ≤ s.fx) || decide (s.geo.height ≤ s.fy)

/-- Is the rectangle empty? (R194) -/
def emptyRect (s : State) : Bool := s.fw == 0 || s.fh == 0

/-- The acceptance of INIT (R246): idle, in `Unpowered` or `Ready`. -/
def acceptInit (s : State) : Option Refusal :=
  if s.busy then some .notReady
  else
    match s.phase with
    | .unpowered => none
    | .resetting => some .notReady
    | .programExecuting => some .notReady
    | .ready => none

/-- The acceptance of a fill (R246): idle, in `Ready`. -/
def acceptFill (s : State) : Option Refusal :=
  if s.busy then some .notReady
  else
    match s.phase with
    | .unpowered => some .notReady
    | .resetting => some .notReady
    | .programExecuting => some .notReady
    | .ready => none

/-- The refusal of the reserved selector `OP` = 3: the busy test comes first (R244). -/
def refuseReserved (s : State) : Refusal := if s.busy then .notReady else .reservedHostOp

/-- Acceptance sets `BUSY`, the operation's rule runs, its end clears `BUSY` (R246). -/
def accepted (run : State → Result) (s : State) : Result :=
  mapNext (run { s with busy := true }) fun t => { t with busy := false }

end Sys2Proof.Machine
end

