-- ==== Sys2Proof/Machine/Records.lean ====
section
/-! DEFINITION. The record rule and the delay directive (41_command_interpreter.md R142, R144): the meanings of the
eleven record rows (42_controller_commands.md R170 to R180) and of the two delay rows. -/

namespace Sys2Proof.Machine

/-- The delay directive: `DLY <- d; MS <- (500 if d = 255 else d); emit Delay(MS)` (R140 step 4, R144). -/
def delayDirective (d : Byte) (s : State) : State := waitMs (delayMs d) { s with dly := d }

/-- The optional tail of a record: nothing when the flag is clear (R144). -/
def delayTail (delay : Option Byte) (s : State) : State :=
  match delay with
  | none => s
  | some d => delayDirective d s

/-- CMD, the one record semantics (R142): `OPC` and its command write, the argsByte with `DLYF` and `ARGC`, one data
write per argument counting `ARGC` down to 0, the delay if flagged; then `PP` has advanced by the record's length and
`CNT` has gone down by one. The opcode is forwarded unexamined (R106). -/
def runRecord (r : RawRecord) (s : State) : State :=
  let s1 := writeCommand r.opcode { s with opc := r.opcode }
  let s2 := { s1 with args := r.argsByte, dlyf := r.delay.isSome }
  let s3 := { sendAll r.args s2 with argc := 0 }
  let s4 := delayTail r.delay s3
  { s4 with pp := s4.pp + BitVec.ofNat 16 r.len, cnt := guardedDec s4.cnt }

/-- SWRESET (R170). -/
def execSwreset (args : List Byte) (delay : Option Byte) (s : State) : Result := .next (runRecord ⟨0x01, args, delay⟩ s)

/-- SLPOUT (R171). -/
def execSlpout (args : List Byte) (delay : Option Byte) (s : State) : Result := .next (runRecord ⟨0x11, args, delay⟩ s)

/-- COLMOD (R172). -/
def execColmod (args : List Byte) (delay : Option Byte) (s : State) : Result := .next (runRecord ⟨0x3A, args, delay⟩ s)

/-- MADCTL (R173). -/
def execMadctl (args : List Byte) (delay : Option Byte) (s : State) : Result := .next (runRecord ⟨0x36, args, delay⟩ s)

/-- CASET as a ROM record (R174 (a)). -/
def execCaset (args : List Byte) (delay : Option Byte) (s : State) : Result := .next (runRecord ⟨0x2A, args, delay⟩ s)

/-- RASET as a ROM record (R175 (a)). -/
def execRaset (args : List Byte) (delay : Option Byte) (s : State) : Result := .next (runRecord ⟨0x2B, args, delay⟩ s)

/-- RAMWR as a ROM record (R176). -/
def execRamwr (args : List Byte) (delay : Option Byte) (s : State) : Result := .next (runRecord ⟨0x2C, args, delay⟩ s)

/-- INVON (R177). -/
def execInvon (args : List Byte) (delay : Option Byte) (s : State) : Result := .next (runRecord ⟨0x21, args, delay⟩ s)

/-- NORON (R178). -/
def execNoron (args : List Byte) (delay : Option Byte) (s : State) : Result := .next (runRecord ⟨0x13, args, delay⟩ s)

/-- DISPON (R179). -/
def execDispon (args : List Byte) (delay : Option Byte) (s : State) : Result := .next (runRecord ⟨0x29, args, delay⟩ s)

/-- CMD with any other opcode (R142, R180). -/
def execCmd (opcode : Byte) (args : List Byte) (delay : Option Byte) (s : State) : Result :=
  .next (runRecord ⟨opcode, args, delay⟩ s)

/-- DLY500: the delay byte 255 (R144). -/
def execDly500 (s : State) : Result := .next (delayDirective 255 s)

/-- DLYMS: a delay byte `d` (R144). -/
def execDlyms (d : Byte) (s : State) : Result := .next (delayDirective d s)

end Sys2Proof.Machine
end

