-- ==== Sys2Proof/Machine/Interpreter.lean ====
section
/-! DEFINITION. CommandInterpreter: the program's length and well-formedness (30_encoding.md R95,
41_command_interpreter.md R146), its trace as a function (R141), and RUNPROG (R140). -/

namespace Sys2Proof.Machine

/-! ### Length and well-formedness -/

/-- The argsByte of the record at ROM address `a` (R95). -/
def argsByteAt (m : Memory) (a : Nat) : Byte := Memory.read m (a + 1)

/-- `2 + k + f` of the record at `a` (R94, R95). -/
def recordLenAt (m : Memory) (a : Nat) : Nat :=
  2 + (argCount (argsByteAt m a)).toNat + (hasDelay (argsByteAt m a)).toNat

/-- `off(n)` from a record at `a`: the address after `n` records (R95); none when an argsByte consulted lies at or
beyond `limit` (R146 (b)). -/
def offsetAfter (m : Memory) (limit : Nat) : Nat → Nat → Option Nat
  | 0, a => some a
  | n + 1, a => if a + 1 < limit then offsetAfter m limit n (a + recordLenAt m a) else none

/-- The decoded length `L = off(N) - base` of the program at `base` (R95), consulting only bytes below `limit`. -/
def decodedLength (m : Memory) (limit base : Nat) : Option Nat :=
  if base < limit then
    match offsetAfter m limit (Memory.read m base).toNat (base + 1) with
    | none => none
    | some e => some (e - base)
  else none

/-- Well-formedness of a program given with its intended extent (R146): the extent lies in the ROM, and the decoded
length, computed from bytes of the extent, is the extent's. -/
def wellFormed (s : State) (base len : Nat) : Bool :=
  decide (base + len ≤ s.romSize.val) && decodedLength s.rom (base + len) base == some len

/-! ### The trace of a program (R141) -/

/-- `T` of a record: `WC(o)`, one `WD` per argument, the `Delay` if flagged (R141, R142). -/
def recordTrace (r : RawRecord) : List Event :=
  wc r.opcode ++ r.args.flatMap wd ++
    (match r.delay with
     | none => []
     | some d => [.delay (delayMs d).toNat])

/-- The record at ROM address `a`, read without the bound of R62; for addresses below `ROM_SIZE` (R141). -/
def recordIn (m : Memory) (a : Nat) : RawRecord :=
  let k := (argCount (argsByteAt m a)).toNat
  { opcode := Memory.read m a
    args := (List.range k).map fun i => Memory.read m (a + 2 + i)
    delay := if hasDelay (argsByteAt m a) then some (Memory.read m (a + 2 + k)) else none }

/-- The records of a program: `n` of them from address `a` on (R141). -/
def recordsFrom (m : Memory) : Nat → Nat → List RawRecord
  | 0, _ => []
  | n + 1, a => recordIn m a :: recordsFrom m n (a + recordLenAt m a)

/-- The records of the program at `base` (R90, R141). -/
def programRecords (m : Memory) (base : Nat) : List RawRecord :=
  recordsFrom m (Memory.read m base).toNat (base + 1)

/-- The trace of the program at `base`, as a function of the ROM (R141). -/
def programTrace (m : Memory) (base : Nat) : List Event := (programRecords m base).flatMap recordTrace

/-! ### Where a program is cut short by the end of the ROM (R61, R62) -/

/-- The events of the record at `a` up to its first read at or beyond `limit`: the command write when its opcode lies
below, then a data write for each argument that does (R61: each byte is used before the next one is read). -/
def cutRecordTrace (m : Memory) (limit a : Nat) : List Event :=
  if a < limit then
    wc (recordIn m a).opcode ++ ((recordIn m a).args.take (limit - (a + 2))).flatMap wd
  else []

/-- The events of `n` records from `a` on, up to the first read at or beyond `limit`. -/
def cutTrace (m : Memory) (limit : Nat) : Nat → Nat → List Event
  | 0, _ => []
  | n + 1, a =>
    if a + recordLenAt m a ≤ limit then recordTrace (recordIn m a) ++ cutTrace m limit n (a + recordLenAt m a)
    else cutRecordTrace m limit a

/-- The events of the program at `base` up to the first read at or beyond `limit`. -/
def cutProgramTrace (m : Memory) (limit base : Nat) : List Event :=
  if base < limit then cutTrace m limit (Memory.read m base).toNat (base + 1) else []

/-! ### RUNPROG (R140) -/

/-- Step 3 of a record, `n` times: read an argument, write it, count `ARGC` down (R140). -/
def runArgs : Nat → State → Result
  | 0, s => .next s
  | n + 1, s => fetchThen s fun d t => runArgs n { sendData d t with argc := guardedDec t.argc }

/-- Step 4 of a record: when flagged, read the delay byte and wait (R140, R144). -/
def runDelay (s : State) : Result :=
  if s.dlyf then fetchThen s fun d t => .next (delayDirective d t) else .next s

/-- One turn of RUNPROG's loop, each byte used before the next one is read (R61, R140): the opcode and its command write,
the argsByte, the arguments, the delay; then `CNT <- CNT - 1`. -/
def fetchRecord (s : State) : Result :=
  fetchThen s fun o t =>
    fetchThen (writeCommand o { t with opc := o }) fun a u =>
      andThen (runArgs (argCount a).toNat { u with args := a, dlyf := hasDelay a, argc := argCount a }) fun v =>
        mapNext (runDelay v) fun w => { w with cnt := guardedDec w.cnt }

/-- The record loop: `n` turns (R140). -/
def runRecords : Nat → State → Result
  | 0, s => .next s
  | n + 1, s => andThen (fetchRecord s) (runRecords n)

/-- RUNPROG: load `PP`, read the count byte, run that many records (R140, R143). -/
def runProgram (base : Word) (s : State) : Result :=
  fetchThen { s with pp := base } fun c t => runRecords c.toNat { t with cnt := c }

/-- RUNPROG as a sub-operation (R140). -/
def execRunprog (base : Word) (s : State) : Result := runProgram base s

end Sys2Proof.Machine
end

