-- ==== Sys2Proof/Machine/Transport.lean ====
section
/-! DEFINITION. BusTransport's sub-operations (40_bus_transport.md R120, R121, R126). -/

namespace Sys2Proof.Machine

/-- WRITECOMMAND (R120). -/
def execWritecommand (b : Byte) (s : State) : Result := .next (writeCommand b s)

/-- WRITEDATA (R121). -/
def execWritedata (b : Byte) (s : State) : Result := .next (writeData b s)

/-- The two transfers of one pixel, high byte first (R126, R198). -/
def pixelPair (hi lo : Byte) : List Event := [.xfer hi, .xfer lo]

/-- The opening of a stream: the chip is selected before DC is set, unlike a logical write (R126, 90_conflicts.md C2). -/
def streamHead : List Event := [.txnBegin, .pin .cs false, .pin .dc true]

/-- The end of a stream (R126). -/
def streamTail : List Event := [.pin .cs true, .txnEnd]

/-- The transfers of `n` pixels. -/
def pixelRun (hi lo : Byte) (n : Nat) : List Event := (List.replicate n (pixelPair hi lo)).flatten

/-- The trace of STREAMPIXELS: one transaction (R126, R127). -/
def streamTrace (hi lo : Byte) (n : Nat) : List Event := streamHead ++ pixelRun hi lo n ++ streamTail

/-- STREAMPIXELS: the stream, `PIXCNT` counting down to 0 (R126). -/
def streamPixels (hi lo : Byte) (n : Word) (s : State) : State :=
  { emit (streamTrace hi lo n.toNat) s with pixcnt := 0 }

/-- STREAMPIXELS as a sub-operation (R126). -/
def execStreampixels (hi lo : Byte) (n : Word) (s : State) : Result := .next (streamPixels hi lo n s)

end Sys2Proof.Machine
end

