-- ==== Sys2Proof/Machine/Window.lean ====
section
/-! DEFINITION. WindowWriter: SETADDRWINDOW, FILLRECT, FILLSCREEN (43_window_writer.md R190 to R199). -/

namespace Sys2Proof.Machine

/-- One logical write of SETADDRWINDOW: a command byte, or a data byte that passes through `DAT`. -/
inductive LogicalWrite where
  | command (b : Byte)
  | data (b : Byte)
  deriving DecidableEq, Repr

/-- Perform one logical write (R190). -/
def doWrite (w : LogicalWrite) (s : State) : State :=
  match w with
  | .command b => writeCommand b s
  | .data b => sendData b s

/-- The eleven logical writes of SETADDRWINDOW in order (R190): CASET and four bytes, RASET and four bytes, RAMWR. -/
def windowWrites (x0 y0 x1 y1 : Word) : Vector LogicalWrite 11 :=
  #v[.command 0x2A, .data (hi8 x0), .data (lo8 x0), .data (hi8 x1), .data (lo8 x1),
     .command 0x2B, .data (hi8 y0), .data (lo8 y0), .data (hi8 y1), .data (lo8 y1),
     .command 0x2C]

/-- SETADDRWINDOW: the operands are sent as given, with no offset and no check (R190). -/
def setAddrWindow (x0 y0 x1 y1 : Word) (s : State) : State :=
  (windowWrites x0 y0 x1 y1).toList.foldl (fun t w => doWrite w t) s

/-- SETADDRWINDOW as a sub-operation (R190). -/
def execSetaddrwindow (x0 y0 x1 y1 : Word) (s : State) : Result := .next (setAddrWindow x0 y0 x1 y1 s)

/-- The operand latch of a fill (R29, R195). -/
def latchRect (x y w h color : Word) (s : State) : State :=
  { s with fx := x, fy := y, fw := w, fh := h, color := color }

/-- The clip step and the window operands (R195, R196). -/
def clipRect (s : State) : State :=
  let fw := clip s.fx s.fw s.geo.width
  let fh := clip s.fy s.fh s.geo.height
  { s with
    fw := fw, fh := fh
    x0 := s.fx, y0 := s.fy, x1 := lastOf s.fx fw, y1 := lastOf s.fy fh }

/-- The colour split and the pixel count (R195, R198). -/
def loadPixels (s : State) : State :=
  { s with pixhi := hi8 s.color, pixlo := lo8 s.color, pixcnt := pixelCount s.fw s.fh }

/-- Window and stream of a clipped rectangle (R195). -/
def paintRect (s : State) : State :=
  let t := loadPixels (setAddrWindow s.x0 s.y0 s.x1 s.y1 s)
  streamPixels t.pixhi t.pixlo t.pixcnt t

/-- The body of FILLRECT after acceptance (R195): latch, off-panel no-op, empty-rectangle refusal, clip, window, stream. -/
def fillBody (x y w h color : Word) (s : State) : Result :=
  let t := latchRect x y w h color s
  if offPanel t then .next t
  else if emptyRect t then .refused .degenerateRect
  else .next (paintRect (clipRect t))

/-- FILLRECT (R195). -/
def execFillrect (x y w h color : Word) (s : State) : Result :=
  match acceptFill s with
  | some r => .refused r
  | none => accepted (fillBody x y w h color) s

/-- FILLSCREEN: FILLRECT of the whole panel (R199). -/
def execFillscreen (color : Word) (s : State) : Result :=
  match acceptFill s with
  | some r => .refused r
  | none => accepted (fillBody 0 0 s.geo.width s.geo.height color) s

end Sys2Proof.Machine
end

