-- ==== Sys2Proof/Machine/Device.lean ====
section
/-! DEFINITION. Device: RESETPULSE, INIT, the reserved host operation (44_device_init.md R220 to R229, 30_encoding.md
R101). -/

namespace Sys2Proof.Machine

/-- The six events of RESETPULSE (R220). -/
def pulseEvents : Vector Event 6 :=
  #v[.pin .rst true, .delay Config.resetHoldMs.toNat, .pin .rst false, .delay Config.resetHoldMs.toNat,
     .pin .rst true, .delay Config.resetHoldMs.toNat]

/-- RESETPULSE: `MS <- 50` and the six events, whatever `PIN.RST` was (R220, R221). -/
def resetPulse (s : State) : State := emit pulseEvents.toList { s with ms := Config.resetHoldMs }

/-- RESETPULSE as a sub-operation (R220). -/
def execResetpulse (s : State) : Result := .next (resetPulse s)

/-- The bus constants (R36, R128). -/
def busConstants : BusCfg :=
  { clock := .spiHz, bitorder := .msbFirst, mode := { idleHigh := true, sampleFalling := true } }

/-- The panel constants (R228). -/
def panelConstants : Geo :=
  { width := Config.width, height := Config.height, colstart := Config.colstart, rowstart := Config.rowstart,
    xstart := Config.colstart, ystart := Config.rowstart }

/-- The `PinDir` events in order DC, CS, RST (R222, 90_conflicts.md C9). -/
def pinDirs : List Event := [.pinDir .dc, .pinDir .cs, .pinDir .rst]

/-- `PHASE <- Resetting`, the pins, the bus configuration (R222). -/
def initPins (s : State) : State :=
  { emit pinDirs { s with phase := .resetting } with buscfg := busConstants }

/-- The post-program data write `DAT <- POSTINIT_DATA; WRITEDATA(DAT)`: no command before it (R223, C1). -/
def initPost (s : State) : State := sendData Config.postinitData s

/-- The geometry latch, then `PHASE <- Ready` (R222, R228). -/
def initLatch (s : State) : State := { s with geo := panelConstants, phase := .ready }

/-- The body of INIT after acceptance (R222). -/
def initBody (s : State) : Result :=
  let t := { resetPulse (initPins s) with phase := .programExecuting }
  mapNext (runProgram Config.initBase t) fun u => initLatch (initPost u)

/-- The launch premise of INIT: the initialization program, with its intended extent, is well-formed (R146, R244 (4')). -/
def launchable (s : State) : Bool := wellFormed s Config.initBase.toNat s.initLen

/-- INIT (R222): acceptance, the launch premise, the sequence. -/
def execInit (s : State) : Result :=
  match acceptInit s with
  | some r => .refused r
  | none => if launchable s then accepted initBody s else .refused .malformedProgram

/-- RESERVED_OP3: `refuse(ReservedHostOp)`, after the busy test (R101, R244). -/
def execReservedOp3 (s : State) : Result := .refused (refuseReserved s)

end Sys2Proof.Machine
end

