-- ==== Sys2Proof/Machine/Dispatch.lean ====
section
/-! DEFINITION. The dispatch: one arm per constructor of `Instr`. -/

namespace Sys2Proof.Machine

/-- The meaning of an instruction. -/
def exec (i : Instr) (s : State) : Host.Outcome State Fault Refusal :=
  match i with
  -- records (R142, R170 to R180)
  | .swreset args delay => Sys2Proof.Machine.execSwreset args delay s
  | .slpout args delay => Sys2Proof.Machine.execSlpout args delay s
  | .colmod args delay => Sys2Proof.Machine.execColmod args delay s
  | .madctl args delay => Sys2Proof.Machine.execMadctl args delay s
  | .caset args delay => Sys2Proof.Machine.execCaset args delay s
  | .raset args delay => Sys2Proof.Machine.execRaset args delay s
  | .ramwr args delay => Sys2Proof.Machine.execRamwr args delay s
  | .invon args delay => Sys2Proof.Machine.execInvon args delay s
  | .noron args delay => Sys2Proof.Machine.execNoron args delay s
  | .dispon args delay => Sys2Proof.Machine.execDispon args delay s
  | .cmd opcode args delay => Sys2Proof.Machine.execCmd opcode args delay s
  -- the delay directive (R144)
  | .dly500 => Sys2Proof.Machine.execDly500 s
  | .dlyms d => Sys2Proof.Machine.execDlyms d s
  -- host operations (R100, R101)
  | .init => Sys2Proof.Machine.execInit s
  | .fillscreen color => Sys2Proof.Machine.execFillscreen color s
  | .fillrect x y w h color => Sys2Proof.Machine.execFillrect x y w h color s
  | .reservedOp3 => Sys2Proof.Machine.execReservedOp3 s
  -- sub-operations (R102)
  | .writecommand b => Sys2Proof.Machine.execWritecommand b s
  | .writedata b => Sys2Proof.Machine.execWritedata b s
  | .streampixels hi lo n => Sys2Proof.Machine.execStreampixels hi lo n s
  | .runprog base => Sys2Proof.Machine.execRunprog base s
  | .setaddrwindow x0 y0 x1 y1 => Sys2Proof.Machine.execSetaddrwindow x0 y0 x1 y1 s
  | .resetpulse => Sys2Proof.Machine.execResetpulse s

end Sys2Proof.Machine
end

