-- ==== Sys2Proof/Machine/Sequencer.lean ====
section
/-! DEFINITION. The small-step sequencer: R148's interpreter table and, for the other operations, the positions of R40.
It is the second rendering the spec allows (decision D19); that it gives the traces and end states of the meanings is
stated as obligations. Here `BUSY`, `PHASE`, `CTL`, `ARGC` and `PIXCNT` are seen between the steps of an operation. -/

namespace Sys2Proof.Machine

/-- Go to a position, the caller unchanged. -/
def goto (p : Pos) (s : State) : State := { s with ctl := { s.ctl with pos := p } }

/-- The end of a host operation: `BUSY <- 0`, `CTL <- IDLE` (R246). -/
def endHost (s : State) : State := { s with busy := false, ctl := Ctl.idle }

/-- A sub-operation returns to the one place that called it (R150, R245). -/
def returnFrom (op : SubOp) (s : State) : State :=
  match s.ctl.caller with
  | .none => { s with ctl := Ctl.idle }
  | .init =>
    match op with
    | .resetPulse => goto .progStart s
    | .runProg => goto .initPost s
    | .writeCommand => goto .idle s
    | .writeData => goto .initLatch s
    | .streamPixels => goto .idle s
    | .setAddrWindow => goto .idle s
  | .fill =>
    match op with
    | .setAddrWindow => goto .pixLoad s
    | .streamPixels => endHost s
    | .writeCommand => goto .idle s
    | .writeData => goto .idle s
    | .runProg => goto .idle s
    | .resetPulse => goto .idle s

/-- Where the interpreter goes once `CNT` is up to date: return at 0, else the next record (R148). -/
def recordDone (s : State) : State := if s.cnt = 0 then returnFrom .runProg s else goto .ciOpc s

/-- "next record": `CNT <- CNT - 1`, then return or `CI_OPC` (R148). -/
def nextRecord (s : State) : State := recordDone { s with cnt := guardedDec s.cnt }

/-- After the argsByte or an argument: `CI_ARG` while `ARGC` is not 0, then `CI_DLYB` when flagged, else the next record
(R148). -/
def afterArgs (s : State) : State :=
  if s.argc = 0 then (if s.dlyf then goto .ciDlyb s else nextRecord s) else goto .ciArg s

/-- A fetch after which the sequencer goes on (R61, R148). -/
def fetchByte (s : State) (f : Byte → State → State) : Result := fetchThen s fun b t => .next (f b t)

/-- `CALL RESETPULSE`: `MS <- 50`, position 0 (R220). -/
def enterPulse (s : State) : State := goto (.pulse 0) { s with ms := Config.resetHoldMs }

/-- Acceptance of a host operation by the sequencer (R244, R246): `BUSY <- 1` and the operation's first position. -/
def startHost (i : Instr) (s : State) : Result :=
  match i with
  | .init =>
    match acceptInit s with
    | some r => .refused r
    | none =>
      if launchable s then .next { s with busy := true, ctl := { caller := .init, pos := .initPins } }
      else .refused .malformedProgram
  | .fillscreen color =>
    match acceptFill s with
    | some r => .refused r
    | none =>
      .next { latchRect 0 0 s.geo.width s.geo.height color s with
        busy := true, ctl := { caller := .fill, pos := .fillTest } }
  | .fillrect x y w h color =>
    match acceptFill s with
    | some r => .refused r
    | none => .next { latchRect x y w h color s with busy := true, ctl := { caller := .fill, pos := .fillTest } }
  | .reservedOp3 => .refused (refuseReserved s)
  -- no port word decodes to any of these (R101)
  | .swreset _ _ | .slpout _ _ | .colmod _ _ | .madctl _ _ | .caset _ _ | .raset _ _ | .ramwr _ _ | .invon _ _
  | .noron _ _ | .dispon _ _ | .cmd _ _ _ | .dly500 | .dlyms _ | .writecommand _ | .writedata _
  | .streampixels _ _ _ | .runprog _ | .setaddrwindow _ _ _ _ | .resetpulse => .refused (refuseReserved s)

/-- The start of a sub-operation on the operands in its registers (R102). -/
def startSub (op : SubOp) (s : State) : State :=
  match op with
  | .writeCommand => returnFrom .writeCommand (writeCommand s.opc s)
  | .writeData => returnFrom .writeData (writeData s.dat s)
  | .streamPixels => goto .streamOpen s
  | .runProg => goto .ciCount s
  | .setAddrWindow => goto (.window 0) s
  | .resetPulse => enterPulse s

/-- One small step at the sequencer's position (R40, R148). -/
def seqStep (s : State) : Result :=
  match s.ctl.pos with
  | .idle =>
    match s.port with
    | [] => .next s
    | w :: rest => startHost (decodePort w) { s with port := rest }
  | .sub op => .next (startSub op s)
  | .initPins => .next (enterPulse (initPins s))
  | .pulse i =>
    let t := emit [pulseEvents.get i] s
    if h : i.val + 1 < 6 then .next (goto (.pulse ⟨i.val + 1, h⟩) t) else .next (returnFrom .resetPulse t)
  | .progStart => .next (goto .ciCount { s with phase := .programExecuting, pp := Config.initBase })
  | .ciCount => fetchByte s fun c t => recordDone { t with cnt := c }
  | .ciOpc => fetchByte s fun o t => goto .ciHdr (writeCommand o { t with opc := o })
  | .ciHdr => fetchByte s fun a t => afterArgs { t with args := a, dlyf := hasDelay a, argc := argCount a }
  | .ciArg => fetchByte s fun d t => let u := sendData d t; afterArgs { u with argc := guardedDec u.argc }
  | .ciDlyb => fetchByte s fun d t => goto .ciWait { t with dly := d, ms := delayMs d }
  | .ciWait => .next (nextRecord (emit [.delay s.ms.toNat] s))
  | .initPost => .next (returnFrom .writeData (initPost s))
  | .initLatch => .next (endHost (initLatch s))
  | .fillTest =>
    if offPanel s then .next (endHost s)
    else if emptyRect s then .refused .degenerateRect
    else .next (goto (.window 0) (clipRect s))
  | .window i =>
    let t := doWrite ((windowWrites s.x0 s.y0 s.x1 s.y1).get i) s
    if h : i.val + 1 < 11 then .next (goto (.window ⟨i.val + 1, h⟩) t) else .next (returnFrom .setAddrWindow t)
  | .pixLoad => .next (goto .streamOpen (loadPixels s))
  | .streamOpen =>
    let t := emit streamHead s
    .next (if t.pixcnt = 0 then goto .streamClose t else goto .streamPix t)
  | .streamPix =>
    let t := emit (pixelPair s.pixhi s.pixlo) { s with pixcnt := guardedDec s.pixcnt }
    .next (if t.pixcnt = 0 then goto .streamClose t else goto .streamPix t)
  | .streamClose => .next (returnFrom .streamPixels (emit streamTail s))

/-- `n` small steps, stopping at the first refusal. -/
def seqRun : Nat → State → Result
  | 0, s => .next s
  | n + 1, s => andThen (seqStep s) (seqRun n)

end Sys2Proof.Machine
end

