-- ==== Sys2Proof/Machine/Fetch.lean ====
section
/-! DEFINITION. What the machine's step fetches at each control state, and how a code word is placed there. -/

namespace Sys2Proof.Machine

/-- What the control state offers the next step. -/
inductive Fetched where
  /-- The block is idle and no request is pending: nothing runs (R257, R270). -/
  | quiet
  /-- A whole instruction, and the state it runs in. -/
  | run (i : Instr) (s : State)
  /-- The middle of an operation, or an instruction that the end of the ROM cuts short: one small step of the
  sequencer, which emits what comes before the refused read and stops there (R61, R62). -/
  | micro

/-- All bytes of the record at `PP` lie below `ROM_SIZE`. -/
def State.recordFits (s : State) : Bool := decide (s.pp.toNat + recordLenAt s.rom s.pp.toNat ≤ s.romSize.val)

/-- The fetch. `CTL` selects the decoder (R102, R108): `IDLE` samples the operation port (R243, R246), a selected
sub-operation takes its operand registers, `CI_OPC` stands at a record, `CI_DLYB` at a delay byte. -/
def fetchNext (s : State) : Fetched :=
  match s.ctl.pos with
  | .idle =>
    match s.port with
    | [] => .quiet
    | w :: rest => .run (decodePort w) { s with port := rest }
  | .sub op => .run (nameSub op s.subOperands) s
  | .ciOpc =>
    if s.recordFits then .run (nameRecord (recordIn s.rom s.pp.toNat)) s else .micro
  | .ciDlyb =>
    match s.memRead s.pp.toNat with
    | .error _ => .micro
    | .ok d => .run (nameDelay d) { s with pp := s.pp + 1 }
  | .initPins => .micro
  | .pulse _ => .micro
  | .progStart => .micro
  | .ciCount => .micro
  | .ciHdr => .micro
  | .ciArg => .micro
  | .ciWait => .micro
  | .initPost => .micro
  | .initLatch => .micro
  | .fillTest => .micro
  | .window _ => .micro
  | .pixLoad => .micro
  | .streamOpen => .micro
  | .streamPix => .micro
  | .streamClose => .micro

/-- What the sequencer does when the instruction fetched at position `p` has run: a sub-operation returns, a record (it
has already counted `CNT` down, R142) or a delay directive goes on to the next record (R148). -/
def afterInstr (p : Pos) (t : State) : State :=
  match p with
  | .sub op => returnFrom op t
  | .ciOpc => recordDone t
  | .ciDlyb => nextRecord t
  | .idle => t
  | .initPins => t
  | .pulse _ => t
  | .progStart => t
  | .ciCount => t
  | .ciHdr => t
  | .ciArg => t
  | .ciWait => t
  | .initPost => t
  | .initLatch => t
  | .fillTest => t
  | .window _ => t
  | .pixLoad => t
  | .streamOpen => t
  | .streamPix => t
  | .streamClose => t

/-! ### Placing a code word where the step fetches (log 13) -/

/-- A ROM size that covers addresses below `n`, when 16 bits can hold it. -/
def growTo (n : Nat) (size : Fin 65536) : Fin 65536 :=
  if h : n < 65536 then (if n ≤ size.val then size else ⟨n, h⟩) else size

/-- Where bytes are placed: at `PP` when they fit below address 65535, else at 0. -/
def placeAddr (s : State) (bytes : List Byte) : Word := if s.pp.toNat + bytes.length ≤ 65535 then s.pp else 0

/-- The platform's ROM holds `bytes` at `PP`, and the interpreter stands at position `p` with a record to run. -/
def placeBytes (bytes : List Byte) (p : Pos) (s : State) : State :=
  let a := placeAddr s bytes
  { s with
    pp := a
    cnt := if s.cnt = 0 then 1 else s.cnt
    rom := Memory.writeBytes s.rom a.toNat bytes
    romSize := growTo (a.toNat + bytes.length) s.romSize
    ctl := { caller := .none, pos := p } }

/-- The operand registers of one sub-operation. -/
def setOperands (op : SubOp) (r : SubOperands) (s : State) : State :=
  match op with
  | .writeCommand => { s with opc := r.opc }
  | .writeData => { s with dat := r.dat }
  | .streamPixels => { s with pixhi := r.pixhi, pixlo := r.pixlo, pixcnt := r.pixcnt }
  | .runProg => { s with pp := r.pp }
  | .setAddrWindow => { s with x0 := r.x0, y0 := r.y0, x1 := r.x1, y1 := r.y1 }
  | .resetPulse => s

/-- Place a code word: a record or a delay byte into the ROM at `PP`, a port word at the head of the pending requests, a
sub-operation into `CTL` and its operand registers. -/
def placeWord (c : CodeWord) (s : State) : State :=
  match c with
  | .record bytes => placeBytes bytes .ciOpc s
  | .delayByte d => placeBytes [d] .ciDlyb s
  | .port w => { s with port := w :: s.port, ctl := Ctl.idle }
  | .subop code r =>
    match decodeSubCode code with
    | some op => { setOperands op r s with ctl := { caller := .none, pos := .sub op } }
    | none => s

end Sys2Proof.Machine
end

