-- ==== Sys2Proof/Machine/Step.lean ====
section
/-! DEFINITION. The machine's step. -/

namespace Sys2Proof.Machine

/-- One step: where the control state stands at an instruction, run it whole; in the middle of an operation, or where the
ROM ends inside the record at `PP`, one small step of the sequencer (log 7). -/
def step (s : State) : Host.Outcome State Fault Refusal :=
  match fetchNext s with
  | .quiet => .next s
  | .run i t => mapNext (exec i t) (afterInstr s.ctl.pos)
  | .micro => seqStep s

/-- `s` with the instruction of the opcode table's bits `w` where `step` fetches next (log 13). -/
def State.withFetchWord (s : State) (nbits w : Nat) : State :=
  match tableCodeWord nbits w with
  | some c => placeWord c s
  | none => s

end Sys2Proof.Machine
end

