-- ==== Sys2Proof/Safety.lean ====
section
/-! DEFINITION. What counts as a safe run, and the vocabulary the claims use: the bus discipline of a trace, counts of
its events, conforming ROMs, and the invariant of the machine. -/

namespace Sys2Proof.Safety

open Sys2Proof Sys2Proof.Machine

/-- A run of `k` steps is safe when it meets no refusal (R8). -/
def RunsSafely (k : Nat) (s : State) : Prop := ∃ t, Host.Core.run Sys2Proof.core k s = .next t

/-! ### The bus discipline of a trace -/

/-- A bus monitor: is a transaction open, is the chip selected, has DC been driven in this transaction? -/
structure BusMonitor where
  txn : Bool
  selected : Bool
  dcDriven : Bool
  deriving DecidableEq, Repr

/-- The bus at rest. -/
def BusMonitor.rest : BusMonitor := { txn := false, selected := false, dcDriven := false }

/-- One event seen by the monitor; none when it breaks the discipline: transactions do not nest (R38), every chip-select
span lies inside one transaction (R256), a byte moves only inside such a span with DC driven in the same transaction
(R122, R285), and delays, reset pulses and pin directions happen outside every transaction (R250). -/
def BusMonitor.see (m : BusMonitor) : Event → Option BusMonitor
  | .txnBegin => if m.txn then none else some { txn := true, selected := false, dcDriven := false }
  | .txnEnd => if m.txn && !m.selected then some .rest else none
  | .pin .cs false => if m.txn && !m.selected then some { m with selected := true } else none
  | .pin .cs true => if m.txn && m.selected then some { m with selected := false } else none
  | .pin .dc _ => if m.txn then some { m with dcDriven := true } else none
  | .pin .rst _ => if m.txn then none else some m
  | .pinDir _ => if m.txn then none else some m
  | .xfer _ => if m.txn && m.selected && m.dcDriven then some m else none
  | .delay _ => if m.txn then none else some m

/-- The monitor over a sequence of events. -/
def BusMonitor.watch (m : BusMonitor) : List Event → Option BusMonitor
  | [] => some m
  | e :: es =>
    match m.see e with
    | none => none
    | some m' => BusMonitor.watch m' es

/-- The events keep the discipline and leave the bus at rest. -/
def busOk (es : List Event) : Bool := BusMonitor.rest.watch es == some BusMonitor.rest

/-! ### Kinds of events -/

/-- The millisecond values a `Delay` may have (R251; 50 is among them). -/
def delayAllowed : Event → Bool
  | .delay n => decide (n ≤ 254) || n == 500
  | .pinDir _ => true
  | .pin _ _ => true
  | .txnBegin => true
  | .txnEnd => true
  | .xfer _ => true

/-- Is the event a write of the RST pin? -/
def isRst : Event → Bool
  | .pin .rst _ => true
  | .pin .dc _ => false
  | .pin .cs _ => false
  | .pinDir _ => false
  | .txnBegin => false
  | .txnEnd => false
  | .xfer _ => false
  | .delay _ => false

/-- Is the event a `PinDir`? -/
def isPinDir : Event → Bool
  | .pinDir _ => true
  | .pin _ _ => false
  | .txnBegin => false
  | .txnEnd => false
  | .xfer _ => false
  | .delay _ => false

/-- Is the event a `Delay`? -/
def isDelay : Event → Bool
  | .delay _ => true
  | .pinDir _ => false
  | .pin _ _ => false
  | .txnBegin => false
  | .txnEnd => false
  | .xfer _ => false

/-- Is the event a byte transfer? -/
def isXfer : Event → Bool
  | .xfer _ => true
  | .pinDir _ => false
  | .pin _ _ => false
  | .txnBegin => false
  | .txnEnd => false
  | .delay _ => false

/-- Command writes of a trace of logical writes: occurrences of `Pin(DC,0)` (95_test_vectors.md S1). -/
def commandWrites (es : List Event) : Nat := es.count (.pin .dc false)

/-- Data writes of a trace of logical writes: occurrences of `Pin(DC,1)` (95_test_vectors.md S1). -/
def dataWrites (es : List Event) : Nat := es.count (.pin .dc true)

/-- The delay events of a trace. -/
def delayEvents (es : List Event) : Nat := es.countP isDelay

/-- The millisecond value of a `Delay`. -/
def delayValue : Event → Option Nat
  | .delay n => some n
  | .pinDir _ => none
  | .pin _ _ => none
  | .txnBegin => none
  | .txnEnd => none
  | .xfer _ => none

/-- The millisecond values of a trace's delays, in order. -/
def delayValues (es : List Event) : List Nat := es.filterMap delayValue

/-! ### ROM images -/

/-- `ConformingInitProgram` (R224, R273 (a)): the ROM holds the 35 bytes of the table for some parameter bytes, and 35 is
the program's intended extent. -/
def ConformingInit (p : Config.InitParams) (s : State) : Prop :=
  35 ≤ s.romSize.val ∧ s.initLen = 35 ∧
    ∀ i, i < 35 → some (Memory.read s.rom i) = (Config.initImage p)[i]?

/-- The platform's ROM holds `bytes` from address `a` on. -/
def RomHolds (s : State) (a : Nat) (bytes : List Byte) : Prop :=
  a + bytes.length ≤ s.romSize.val ∧ ∀ i, i < bytes.length → some (Memory.read s.rom (a + i)) = bytes[i]?

/-! ### The invariant -/

/-- All three pins are outputs (R275). -/
def allOutputs : PinBits := { dc := true, cs := true, rst := true }

/-- What holds of the block between operations once INIT has ended (R275): `Ready`, the panel and bus constants, three
outputs all high, no transaction. -/
def ReadyState (s : State) : Prop :=
  s.phase = .ready ∧ s.geo = panelConstants ∧ s.buscfg = busConstants ∧ s.dir = allOutputs ∧ s.pin = allOutputs ∧
    s.txn = false

/-- The positions of RUNPROG (R148). -/
def Interpreting : Pos → Bool
  | .ciCount | .ciOpc | .ciHdr | .ciArg | .ciDlyb | .ciWait => true
  | .idle | .sub _ | .initPins | .pulse _ | .progStart | .initPost | .initLatch | .fillTest | .window _ | .pixLoad
  | .streamOpen | .streamPix | .streamClose => false

/-- The positions at which a record is under way, so that `CNT` is not 0 (R140, R148). -/
def InRecord : Pos → Bool
  | .ciOpc | .ciHdr | .ciArg | .ciDlyb | .ciWait => true
  | .idle | .sub _ | .initPins | .pulse _ | .progStart | .ciCount | .initPost | .initLatch | .fillTest | .window _
  | .pixLoad | .streamOpen | .streamPix | .streamClose => false

/-- The positions at which the stream's transaction is open. -/
def InStream : Pos → Bool
  | .streamPix | .streamClose => true
  | .idle | .sub _ | .initPins | .pulse _ | .progStart | .ciCount | .ciOpc | .ciHdr | .ciArg | .ciDlyb | .ciWait
  | .initPost | .initLatch | .fillTest | .window _ | .pixLoad | .streamOpen => false

/-- Which positions and phases go with which caller (R150, R222, R246): outside INIT the phase is `Unpowered` or
`Ready`; inside INIT it is `Resetting` up to the program and `ProgramExecuting` from there to the latch; a fill runs in
`Ready` only. -/
def positionOk (caller : Caller) (pos : Pos) (phase : Phase) : Bool :=
  match caller with
  | .none =>
    (phase == .unpowered || phase == .ready) &&
      match pos with
      | .idle | .sub _ | .pulse _ | .ciCount | .ciOpc | .ciHdr | .ciArg | .ciDlyb | .ciWait | .window _
      | .streamOpen | .streamPix | .streamClose => true
      | .initPins | .progStart | .initPost | .initLatch | .fillTest | .pixLoad => false
  | .init =>
    match pos with
    | .initPins => phase == .unpowered || phase == .ready
    | .pulse _ | .progStart => phase == .resetting
    | .ciCount | .ciOpc | .ciHdr | .ciArg | .ciDlyb | .ciWait | .initPost | .initLatch => phase == .programExecuting
    | .idle | .sub _ | .fillTest | .window _ | .pixLoad | .streamOpen | .streamPix | .streamClose => false
  | .fill =>
    phase == .ready &&
      match pos with
      | .fillTest | .window _ | .pixLoad | .streamOpen | .streamPix | .streamClose => true
      | .idle | .sub _ | .initPins | .pulse _ | .progStart | .ciCount | .ciOpc | .ciHdr | .ciArg | .ciDlyb | .ciWait
      | .initPost | .initLatch => false

/-- The invariant of the machine. -/
structure Inv (s : State) : Prop where
  /-- The ROM keeps its canonical form. -/
  romWf : Memory.wf s.rom = true
  /-- Caller, position and phase fit together. -/
  position : positionOk s.ctl.caller s.ctl.pos s.phase = true
  /-- `BUSY` is 1 exactly while a host operation runs (R34). -/
  busyCaller : s.busy = !(s.ctl.caller == .none)
  /-- `TXN` is 1 exactly between the opening and the end of a pixel stream: every other operation leaves a step with its
  transactions closed (R38). -/
  txnStream : s.txn = InStream s.ctl.pos
  /-- In `Ready` the geometry, the bus configuration and the pin directions hold their constants (R275). -/
  readyConstants : s.phase = .ready → s.geo = panelConstants ∧ s.buscfg = busConstants ∧ s.dir = allOutputs
  /-- So do bus configuration and directions once INIT has set them (R222). -/
  initConstants : s.ctl.caller = .init → s.ctl.pos ≠ .initPins → s.buscfg = busConstants ∧ s.dir = allOutputs
  /-- In `Ready`, and at the latch that leads there, the chip is deselected outside a transaction (R124, R275). -/
  deselected : (s.phase = .ready ∨ s.ctl.pos = .initLatch) → s.txn = false → s.pin.cs = true
  /-- A record runs only while `CNT` is not 0 (R140). -/
  recordDue : InRecord s.ctl.pos = true → s.cnt ≠ 0
  /-- An argument is due only while `ARGC` is not 0 (R140). -/
  argDue : s.ctl.pos = .ciArg → s.argc ≠ 0
  /-- A pixel is due only while `PIXCNT` is not 0 (R126). -/
  pixelDue : s.ctl.pos = .streamPix → s.pixcnt ≠ 0
  /-- `MS` holds one of the values the delay unit can be given (R27, R251). -/
  msRange : s.ms.toNat ≤ 254 ∨ s.ms = 500

end Sys2Proof.Safety
end

