-- ==== Sys2Proof/Certificates/Slice0/Obligations.lean ====
section
/-! DEFINITION. The statements for the provers. Each docstring names the rule of spec/ it formalises; a clause that rests
on a choice of the model names the log entry. -/

open Sys2Proof Sys2Proof.Machine Sys2Proof.Safety

/-! ### Records and the delay directive -/

/-- R142: every record instruction, on every state with a record due, runs and leaves exactly this: the command write,
one data write per argument in order, the delay if flagged; `PP` advanced by `2 + k + f`, `CNT` down by one, `DLYF`
loaded, `ARGC` counted down to 0, `DAT` the last argument, `DLY` and `MS` the delay's, `DC` at the last write's level,
`CS` high, `TXN` 0; every other field unchanged. -/
def Obligations.RecordRunsTheRecordRule : Prop :=
  ∀ (i : Instr) (r : RawRecord) (s : State), i.rawRecord? = some r → i.wf = true → s.cnt ≠ 0 →
    exec i s = .next
      { s with
        opc := r.opcode
        args := r.argsByte
        dlyf := r.delay.isSome
        argc := 0
        dat := r.args.getLast?.getD s.dat
        dly := r.delay.getD s.dly
        ms := (match r.delay with | none => s.ms | some d => if d = 255 then 500 else d.setWidth 9)
        pp := s.pp + BitVec.ofNat 16 (2 + r.args.length + (if r.delay.isSome then 1 else 0))
        cnt := s.cnt - 1
        pin := { dc := !r.args.isEmpty, cs := true, rst := s.pin.rst }
        txn := false
        trace := s.trace ++
          ([.txnBegin, .pin .dc false, .pin .cs false, .xfer r.opcode, .pin .cs true, .txnEnd] ++
            r.args.flatMap (fun b => [.txnBegin, .pin .dc true, .pin .cs false, .xfer b, .pin .cs true, .txnEnd]) ++
            (match r.delay with | none => [] | some d => [.delay (if d = 255 then 500 else d.toNat)])) }

/-- R144: the delay directive writes `DLY` and `MS` and emits the one `Delay`, 500 ms for the byte 255 and `d` ms for
any other byte `d`, `Delay(0)` included; nothing else changes. -/
def Obligations.DelayDirectiveEmitsOneDelay : Prop :=
  (∀ s : State, exec .dly500 s = .next { s with dly := 255, ms := 500, trace := s.trace ++ [.delay 500] }) ∧
    ∀ (d : Byte) (s : State), d ≠ 255 →
      exec (.dlyms d) s = .next { s with dly := d, ms := d.setWidth 9, trace := s.trace ++ [.delay d.toNat] }

/-- R93, R251: the sentinel maps to 500 and every other delay byte to itself, so that no delay byte gives 255. -/
def Obligations.DelayByteMapping : Prop :=
  ∀ d : Byte, (delayMs d).toNat = (if d = 255 then 500 else d.toNat) ∧ (delayMs d).toNat ≠ 255

/-! ### BusTransport -/

/-- R120: WRITECOMMAND, `SUBOP` = 0 and not reachable from the host port, emits the six events with DC low, for every
byte; `TXN`, `PIN.DC` and `PIN.CS` are all it writes. Which register carries the byte is not stated here (log 9). -/
def Obligations.WriteCommandEmitsSixEvents : Prop :=
  ∀ (b : Byte) (s : State),
    exec (.writecommand b) s = .next
      { s with
        pin := { dc := false, cs := true, rst := s.pin.rst }
        txn := false
        trace := s.trace ++ [.txnBegin, .pin .dc false, .pin .cs false, .xfer b, .pin .cs true, .txnEnd] } ∧
      (∃ r, encode (.writecommand b) = .subop 0 r) ∧ (∀ r, ∃ c, decode (.subop 0 r) = .ok (.writecommand c)) ∧
      ∀ w, decodePort w ≠ .writecommand b

/-- R121: WRITEDATA, `SUBOP` = 1 with its byte in `DAT` and not reachable from the host port, emits the six events with DC
high, for every byte; `TXN`, `PIN.DC` and `PIN.CS` are all it writes. -/
def Obligations.WriteDataEmitsSixEvents : Prop :=
  ∀ (b : Byte) (s : State),
    exec (.writedata b) s = .next
      { s with
        pin := { dc := true, cs := true, rst := s.pin.rst }
        txn := false
        trace := s.trace ++ [.txnBegin, .pin .dc true, .pin .cs false, .xfer b, .pin .cs true, .txnEnd] } ∧
      (∀ r, decode (.subop 1 r) = .ok (.writedata r.dat)) ∧ ∀ w, decodePort w ≠ .writedata b

/-- R126: STREAMPIXELS emits one transaction, chip select before DC, `n` byte pairs and nothing else between select and
deselect, `5 + 2n` events with `2n` transfers; `PIXCNT` ends at 0, `TXN` 0, `CS` and `DC` high; nothing else changes. The
count 0 is included. -/
def Obligations.StreamPixelsIsOneTransaction : Prop :=
  ∀ (hi lo : Byte) (n : Word) (s : State),
    ∃ es : List Event,
      exec (.streampixels hi lo n) s = .next
        { s with
          pixcnt := 0
          pin := { dc := true, cs := true, rst := s.pin.rst }
          txn := false
          trace := s.trace ++ es } ∧
        es = [.txnBegin, .pin .cs false, .pin .dc true] ++
          (List.replicate n.toNat [Event.xfer hi, Event.xfer lo]).flatten ++ [.pin .cs true, .txnEnd] ∧
        es.length = 5 + 2 * n.toNat ∧ es.countP isXfer = 2 * n.toNat

/-! ### CommandInterpreter -/

/-- R140, R141, R145: on a well-formed program RUNPROG completes; it emits the program's trace as a function of the ROM,
ends with `PP = base + L` and `CNT = 0`, and changes no register but the interpreter's and the latches. -/
def Obligations.RunProgOnWellFormedProgram : Prop :=
  ∀ (base : Word) (len : Nat) (s : State), wellFormed s base.toNat len = true →
    ∃ t, exec (.runprog base) s = .next t ∧
      t.trace = s.trace ++ programTrace s.rom base.toNat ∧
      t.pp.toNat = base.toNat + len ∧ t.cnt = 0 ∧
      t.pin.rst = s.pin.rst ∧ (s.txn = false → t.txn = false) ∧
      t = { s with
            pp := t.pp, cnt := t.cnt, opc := t.opc, args := t.args, dlyf := t.dlyf, argc := t.argc, dat := t.dat,
            dly := t.dly, ms := t.ms, pin := t.pin, txn := t.txn, trace := t.trace }

/-- R61, R62, R140, R146: RUNPROG completes exactly on the programs that are well-formed for some extent; on every other
ROM a read reaches `ROM_SIZE` and the outcome is `RomOutOfRange`, with the events of the bytes read before it in the trace,
each byte used before the next is read. -/
def Obligations.RunProgRefusedOnlyBeyondRom : Prop :=
  ∀ (base : Word) (s : State),
    ((∃ len, wellFormed s base.toNat len = true) → ∃ t, exec (.runprog base) s = .next t) ∧
      ((∀ len, wellFormed s base.toNat len = false) →
        exec (.runprog base) s =
          .refused (.romOutOfRange (s.trace ++ cutProgramTrace s.rom s.romSize.val base.toNat)))

/-- R143: the empty program: the count byte is read, nothing is emitted, `PP = base + 1`, `CNT = 0`, nothing else
changes. -/
def Obligations.EmptyProgramEmitsNothing : Prop :=
  ∀ (base : Word) (s : State), base.toNat < s.romSize.val → Memory.read s.rom base.toNat = 0 →
    exec (.runprog base) s = .next { s with pp := base + 1, cnt := 0 }

/-- R147: the counts of a program's trace: one command write per record, one data write per argument, one delay per
flagged record, `6N + 6 * sum(k) + sum(f)` events in all; the delays add up to the records' own. -/
def Obligations.ProgramTraceCounts : Prop :=
  ∀ (m : Memory) (base : Nat),
    let rs := programRecords m base
    let es := programTrace m base
    rs.length = (Memory.read m base).toNat ∧
      commandWrites es = rs.length ∧
      dataWrites es = (rs.map fun r => r.args.length).sum ∧
      delayEvents es = rs.countP (fun r => r.delay.isSome) ∧
      es.length = 6 * rs.length + 6 * (rs.map fun r => r.args.length).sum + rs.countP (fun r => r.delay.isSome) ∧
      (delayValues es).sum = ((rs.filterMap RawRecord.delay).map fun d => (delayMs d).toNat).sum

/-- R95: a decoded length is between 1 and 33 151. -/
def Obligations.DecodedLengthBounds : Prop :=
  ∀ (m : Memory) (limit base L : Nat), decodedLength m limit base = some L → 1 ≤ L ∧ L ≤ 33151

/-- R60, R62: a ROM read answers `ROM[a]` below `ROM_SIZE` and is refused at or beyond it, the events emitted so far
staying in the trace. -/
def Obligations.RomReadBounds : Prop :=
  ∀ (s : State) (a : Nat),
    (a < s.romSize.val → s.memRead a = .ok (Memory.read s.rom a)) ∧
      (s.romSize.val ≤ a → s.memRead a = .error (.romOutOfRange s.trace))

/-- The model's ROM as data (log 2): a store is read back, leaves every other address alone and keeps the canonical
form. -/
def Obligations.RomStoreLaws : Prop :=
  ∀ (m : Memory) (a c : Nat) (b : Byte), Memory.wf m = true →
    Memory.wf (Memory.write m a b) = true ∧
      Memory.read (Memory.write m a b) c = (if c = a then b else Memory.read m c)

/-! ### WindowWriter -/

/-- R190, R191: SETADDRWINDOW sends CASET and four bytes, RASET and four bytes, RAMWR, high byte first, the operands as
given; `DAT` ends at the last byte, `DC` low; nothing else changes. -/
def Obligations.SetAddrWindowSendsElevenWrites : Prop :=
  ∀ (x0 y0 x1 y1 : Word) (s : State), exec (.setaddrwindow x0 y0 x1 y1) s = .next
    { s with
      dat := BitVec.ofNat 8 y1.toNat
      pin := { dc := false, cs := true, rst := s.pin.rst }
      txn := false
      trace := s.trace ++
        (wc 0x2A ++ wd (BitVec.ofNat 8 (x0.toNat / 256)) ++ wd (BitVec.ofNat 8 x0.toNat) ++
          wd (BitVec.ofNat 8 (x1.toNat / 256)) ++ wd (BitVec.ofNat 8 x1.toNat) ++
          wc 0x2B ++ wd (BitVec.ofNat 8 (y0.toNat / 256)) ++ wd (BitVec.ofNat 8 y0.toNat) ++
          wd (BitVec.ofNat 8 (y1.toNat / 256)) ++ wd (BitVec.ofNat 8 y1.toNat) ++ wc 0x2C) }

/-- R195, R196, R198: a fill with its origin on the panel and a non-empty rectangle completes: the clipped sizes are
`min(w, 240 - x)` and `min(h, 240 - y)`, the window is sent, then one stream of `w' * h'` pairs; every register the
rule names has its value, `BUSY` is 0 again and everything else is unchanged. -/
def Obligations.FillRectPaintsClippedRectangle : Prop :=
  ∀ (x y w h color : Word) (s : State), s.busy = false → s.phase = .ready → s.geo = panelConstants →
    x.toNat < 240 → y.toNat < 240 → w ≠ 0 → h ≠ 0 →
    let w' := min w.toNat (240 - x.toNat)
    let h' := min h.toNat (240 - y.toNat)
    let x1 : Word := BitVec.ofNat 16 (x.toNat + w' - 1)
    let y1 : Word := BitVec.ofNat 16 (y.toNat + h' - 1)
    exec (.fillrect x y w h color) s = .next
      { s with
        fx := x, fy := y, fw := BitVec.ofNat 16 w', fh := BitVec.ofNat 16 h', color := color
        x0 := x, y0 := y, x1 := x1, y1 := y1
        dat := lo8 y1
        pixhi := hi8 color, pixlo := lo8 color, pixcnt := 0
        pin := { dc := true, cs := true, rst := s.pin.rst }
        txn := false
        trace := s.trace ++
          (wc 0x2A ++ wd (hi8 x) ++ wd (lo8 x) ++ wd (hi8 x1) ++ wd (lo8 x1) ++
            wc 0x2B ++ wd (hi8 y) ++ wd (lo8 y) ++ wd (hi8 y1) ++ wd (lo8 y1) ++ wc 0x2C ++
            ([.txnBegin, .pin .cs false, .pin .dc true] ++
              (List.replicate (w' * h') [Event.xfer (hi8 color), Event.xfer (lo8 color)]).flatten ++
              [.pin .cs true, .txnEnd])) }

/-- R197: with its origin off the panel FILLRECT completes with no event and no pin or bus change, for every size, zero
included; only the operand latches are loaded. -/
def Obligations.FillRectOffPanelIsNoOp : Prop :=
  ∀ (x y w h color : Word) (s : State), s.busy = false → s.phase = .ready →
    (s.geo.width.toNat ≤ x.toNat ∨ s.geo.height.toNat ≤ y.toNat) →
    exec (.fillrect x y w h color) s = .next { s with fx := x, fy := y, fw := w, fh := h, color := color }

/-- R194: in an accepted state FILLRECT is defined for every operand tuple with one exception: an empty rectangle with its
origin on the panel is refused as `DegenerateRect`, everything else completes. -/
def Obligations.FillRectRefusedOnlyWhenEmptyOnPanel : Prop :=
  ∀ (x y w h color : Word) (s : State), s.busy = false → s.phase = .ready →
    (x.toNat < s.geo.width.toNat → y.toNat < s.geo.height.toNat → (w = 0 ∨ h = 0) →
      exec (.fillrect x y w h color) s = .refused .degenerateRect) ∧
      (¬(x.toNat < s.geo.width.toNat ∧ y.toNat < s.geo.height.toNat ∧ (w = 0 ∨ h = 0)) →
        ∃ t, exec (.fillrect x y w h color) s = .next t)

/-- R199: FILLSCREEN, `OP` = 1, is FILLRECT of the whole panel in every state; it is refused as `NotReady` exactly outside
the idle `Ready` state; with the panel's geometry it completes: window 0 to 239 both ways, 57 600 pairs, 115 271 events,
the registers as FILLRECT leaves them and everything else unchanged. -/
def Obligations.FillScreenPaintsThePanel : Prop :=
  ∀ (color : Word) (s : State),
    (∀ x y w h, decodePort (mkPortWord 1 x y w h color) = .fillscreen color) ∧
    exec (.fillscreen color) s = exec (.fillrect 0 0 s.geo.width s.geo.height color) s ∧
    (s.busy = true ∨ s.phase ≠ .ready → exec (.fillscreen color) s = .refused .notReady) ∧
    (s.busy = false → s.phase = .ready → s.geo = panelConstants →
      ∃ es : List Event, es.length = 115271 ∧
        es = wc 0x2A ++ wd 0 ++ wd 0 ++ wd 0 ++ wd 0xEF ++ wc 0x2B ++ wd 0 ++ wd 0 ++ wd 0 ++ wd 0xEF ++ wc 0x2C ++
          ([.txnBegin, .pin .cs false, .pin .dc true] ++
            (List.replicate 57600 [Event.xfer (hi8 color), Event.xfer (lo8 color)]).flatten ++
            [.pin .cs true, .txnEnd]) ∧
        exec (.fillscreen color) s = .next
          { s with
            fx := 0, fy := 0, fw := 240, fh := 240, color := color, x0 := 0, y0 := 0, x1 := 239, y1 := 239
            dat := 0xEF, pixhi := hi8 color, pixlo := lo8 color, pixcnt := 0
            pin := { dc := true, cs := true, rst := s.pin.rst }
            txn := false
            trace := s.trace ++ es })

/-- R196: the clip of FILLRECT's operands on the panel, by the trigger formula and as the smaller of size and room left;
the clipped size is at least 1 and at most the room left, the window stays inside with both of its ends, every coordinate's
high byte is 0, and the two clipped sizes multiply to at most 57 600. -/
def Obligations.ClipStaysOnPanel : Prop :=
  (∀ o n limit : Word, o.toNat < limit.toNat → n ≠ 0 →
    (clip o n limit).toNat =
        (if limit.toNat ≤ o.toNat + n.toNat - 1 then limit.toNat - o.toNat else n.toNat) ∧
      (clip o n limit).toNat = min n.toNat (limit.toNat - o.toNat) ∧ 1 ≤ (clip o n limit).toNat ∧
      (lastOf o (clip o n limit)).toNat = o.toNat + (clip o n limit).toNat - 1 ∧
      o.toNat ≤ (lastOf o (clip o n limit)).toNat ∧ (lastOf o (clip o n limit)).toNat < limit.toNat) ∧
    ∀ x y w h : Word, x.toNat < 240 → y.toNat < 240 → w ≠ 0 → h ≠ 0 →
      hi8 x = 0 ∧ hi8 y = 0 ∧ hi8 (lastOf x (clip x w 240)) = 0 ∧ hi8 (lastOf y (clip y h 240)) = 0 ∧
        (clip x w 240).toNat * (clip y h 240).toNat ≤ 57600

/-- R200 (i): the two halves of a 16-bit value. -/
def Obligations.ByteSplit : Prop :=
  ∀ v : Word, 256 * (hi8 v).toNat + (lo8 v).toNat = v.toNat

/-! ### Device and acceptance -/

/-- R220, R221: RESETPULSE emits the six events from every state and leaves `PIN.RST` high and `MS` 50; nothing else
changes. -/
def Obligations.ResetPulseWritesRstThreeTimes : Prop :=
  ∀ s : State, exec .resetpulse s = .next
    { s with
      ms := 50
      pin := { s.pin with rst := true }
      trace := s.trace ++ [.pin .rst true, .delay 50, .pin .rst false, .delay 50, .pin .rst true, .delay 50] }

/-- R222, R228, R275: from an idle block in `Unpowered` or `Ready`, with a well-formed initialization program, INIT
completes: the pin directions, the reset pulse, the program's trace, the one data write, in that order; `PHASE` is
`Ready`, the geometry, the bus configuration, the pins and the directions hold their constants, `PP` stands at the end of
the program, and no other field changes. -/
def Obligations.InitBringsThePanelUp : Prop :=
  ∀ s : State, s.busy = false → (s.phase = .unpowered ∨ s.phase = .ready) →
    wellFormed s Config.initBase.toNat s.initLen = true →
    ∃ t, exec .init s = .next t ∧
      t.trace = s.trace ++
        ([.pinDir .dc, .pinDir .cs, .pinDir .rst] ++
          [.pin .rst true, .delay 50, .pin .rst false, .delay 50, .pin .rst true, .delay 50] ++
          programTrace s.rom Config.initBase.toNat ++
          [.txnBegin, .pin .dc true, .pin .cs false, .xfer 0, .pin .cs true, .txnEnd]) ∧
      t.phase = .ready ∧ t.busy = false ∧ t.txn = false ∧
      t.geo = { width := 240, height := 240, colstart := 0, rowstart := 0, xstart := 0, ystart := 0 } ∧
      t.buscfg = busConstants ∧
      t.dir = { dc := true, cs := true, rst := true } ∧ t.pin = { dc := true, cs := true, rst := true } ∧
      t.pp.toNat = Config.initBase.toNat + s.initLen ∧ t.cnt = 0 ∧ t.dat = 0 ∧
      t = { s with
            pp := t.pp, cnt := t.cnt, opc := t.opc, args := t.args, dlyf := t.dlyf, argc := t.argc, dat := t.dat,
            dly := t.dly, ms := t.ms, phase := t.phase, geo := t.geo, buscfg := t.buscfg, pin := t.pin, dir := t.dir,
            txn := t.txn, trace := t.trace }

/-- R224, R226: on a conforming ROM INIT emits the 135 events of R226 and leaves the interpreter's registers as the last
record does. -/
def Obligations.InitTraceOnConformingRom : Prop :=
  ∀ (p : Config.InitParams) (s : State), ConformingInit p s → s.busy = false →
    (s.phase = .unpowered ∨ s.phase = .ready) →
    ∃ t, exec .init s = .next t ∧ t.pp = 35 ∧ t.cnt = 0 ∧ t.opc = 0x29 ∧ t.args = 0x80 ∧ t.dlyf = true ∧ t.argc = 0 ∧
      t.dly = p.dispon ∧ t.ms = delayMs p.dispon ∧ t.dat = 0 ∧
      ∃ es : List Event, es.length = 135 ∧ t.trace = s.trace ++ es ∧
        es = [.pinDir .dc, .pinDir .cs, .pinDir .rst] ++
          [.pin .rst true, .delay 50, .pin .rst false, .delay 50, .pin .rst true, .delay 50] ++
          wc 0x01 ++ [.delay (delayMs p.swreset).toNat] ++
          wc 0x11 ++ [.delay (delayMs p.slpout).toNat] ++
          wc 0x3A ++ wd 0x55 ++ [.delay (delayMs p.colmod).toNat] ++
          wc 0x36 ++ wd 0x00 ++
          wc 0x2A ++ wd p.caset0 ++ wd p.caset1 ++ wd p.caset2 ++ wd p.caset3 ++
          wc 0x2B ++ wd p.raset0 ++ wd p.raset1 ++ wd p.raset2 ++ wd p.raset3 ++
          wc 0x21 ++ [.delay (delayMs p.invon).toNat] ++
          wc 0x13 ++ [.delay (delayMs p.noron).toNat] ++
          wc 0x29 ++ [.delay (delayMs p.dispon).toNat] ++
          wd 0x00 ∧
        commandWrites es = 9 ∧ dataWrites es = 11 ∧ delayEvents es = 9 ∧ es.countP isPinDir = 3 ∧
        es.countP isRst = 3 ∧
        (p = Config.defaultParams → delayValues es = [50, 50, 50, 150, 500, 10, 10, 10, 500] ∧
          (delayValues es).sum = 1330)

/-- R224: every conforming ROM holds, whatever its parameter bytes, a well-formed program of decoded length 35 with 9
command writes, 10 data writes, 6 delays, 120 events. -/
def Obligations.ConformingProgramIsWellFormed : Prop :=
  ∀ (p : Config.InitParams) (s : State), ConformingInit p s →
    wellFormed s Config.initBase.toNat s.initLen = true ∧
      decodedLength s.rom s.romSize.val Config.initBase.toNat = some 35 ∧
      (programRecords s.rom Config.initBase.toNat).length = 9 ∧
      commandWrites (programTrace s.rom Config.initBase.toNat) = 9 ∧
      dataWrites (programTrace s.rom Config.initBase.toNat) = 10 ∧
      delayEvents (programTrace s.rom Config.initBase.toNat) = 6 ∧
      (programTrace s.rom Config.initBase.toNat).length = 120

/-- R227: a second INIT emits what the first did. -/
def Obligations.SecondInitRepeatsTheTrace : Prop :=
  ∀ s t : State, exec .init s = .next t →
    ∃ u es, exec .init t = .next u ∧ t.trace = s.trace ++ es ∧ u.trace = t.trace ++ es

/-- R246: the acceptance table: which host operations are refused as `NotReady`, and that INIT alone is accepted in
`Unpowered`. -/
def Obligations.AcceptanceTable : Prop :=
  ∀ (s : State) (x y w h color : Word),
    (exec .init s = .refused .notReady ↔ s.busy = true ∨ s.phase = .resetting ∨ s.phase = .programExecuting) ∧
      (exec (.fillscreen color) s = .refused .notReady ↔ s.busy = true ∨ s.phase ≠ .ready) ∧
      (exec (.fillrect x y w h color) s = .refused .notReady ↔ s.busy = true ∨ s.phase ≠ .ready)

/-- R101, R244: the reserved selector is refused in every state, by the busy test where `BUSY` = 1. -/
def Obligations.ReservedSelectorIsRefused : Prop :=
  ∀ s : State, exec .reservedOp3 s = .refused (if s.busy then .notReady else .reservedHostOp)

/-- R146, R244: INIT, once accepted, is refused as `MalformedProgram` on a program that is not well-formed, before any
event. -/
def Obligations.InitRefusesMalformedProgram : Prop :=
  ∀ s : State, s.busy = false → (s.phase = .unpowered ∨ s.phase = .ready) →
    wellFormed s Config.initBase.toNat s.initLen = false → exec .init s = .refused .malformedProgram

/-- R270: the state after reset, in the fields the spec gives a value; and nothing runs until the host starts an
operation. -/
def Obligations.ResetState : Prop :=
  step State.reset = .next State.reset ∧
  State.reset.phase = .unpowered ∧ State.reset.busy = false ∧ State.reset.txn = false ∧
    State.reset.ctl = { caller := .none, pos := .idle } ∧
    State.reset.dir = { dc := false, cs := false, rst := false } ∧ State.reset.trace = []

/-! ### Whole-machine rules -/

/-- R229, R247: INIT is the only instruction that changes `PHASE`, the directions, the bus configuration or the
geometry. -/
def Obligations.OnlyInitChangesDeviceState : Prop :=
  ∀ (i : Instr) (s t : State), i ≠ .init → exec i s = .next t →
    t.phase = s.phase ∧ t.dir = s.dir ∧ t.buscfg = s.buscfg ∧ t.geo = s.geo

/-- R63, R75: no step writes the ROM, its size or the program's extent. -/
def Obligations.NoStepWritesTheRom : Prop :=
  ∀ s t : State, step s = .next t → t.rom = s.rom ∧ t.romSize = s.romSize ∧ t.initLen = s.initLen

/-- R31, R44: no instruction of one component touches another's working registers, but for the shared `DAT` and `MS` (R26,
R27): all but fills and streams leave the window writer's; fills, window and bus operations leave the interpreter's other
than `DAT`, `MS` among them, and RESETPULSE leaves them but for `MS`, which it loads. -/
def Obligations.ComponentsKeepToTheirRegisters : Prop :=
  ∀ (i : Instr) (s t : State), exec i s = .next t →
    ((match i with
      | .fillscreen _ | .fillrect _ _ _ _ _ | .streampixels _ _ _ => False
      | _ => True) →
      t.fx = s.fx ∧ t.fy = s.fy ∧ t.fw = s.fw ∧ t.fh = s.fh ∧ t.color = s.color ∧ t.x0 = s.x0 ∧ t.y0 = s.y0 ∧
        t.x1 = s.x1 ∧ t.y1 = s.y1 ∧ t.pixhi = s.pixhi ∧ t.pixlo = s.pixlo ∧ t.pixcnt = s.pixcnt) ∧
      ((match i with
        | .fillscreen _ | .fillrect _ _ _ _ _ | .streampixels _ _ _ | .setaddrwindow _ _ _ _ | .writecommand _
        | .writedata _ | .resetpulse => True
        | _ => False) →
        t.pp = s.pp ∧ t.cnt = s.cnt ∧ t.opc = s.opc ∧ t.args = s.args ∧ t.dlyf = s.dlyf ∧ t.argc = s.argc ∧
          t.dly = s.dly ∧ (i ≠ .resetpulse → t.ms = s.ms))

/-- R228: the geometry latch: after INIT the six fields hold the panel constants, and no fill changes them. -/
def Obligations.GeometryLatch : Prop :=
  ∀ s t : State,
    (exec .init s = .next t →
      t.geo = { width := 240, height := 240, colstart := 0, rowstart := 0, xstart := 0, ystart := 0 }) ∧
      (∀ color, exec (.fillscreen color) s = .next t → t.geo = s.geo) ∧
      ∀ x y w h color, exec (.fillrect x y w h color) s = .next t → t.geo = s.geo

/-- R275: INIT leaves the block in the `Ready` state of R275, and every fill from there leaves it so. -/
def Obligations.ReadyStateAfterInitAndFills : Prop :=
  ∀ s t : State,
    (exec .init s = .next t → ReadyState t) ∧
      (∀ color, ReadyState s → exec (.fillscreen color) s = .next t → ReadyState t) ∧
      ∀ x y w h color, ReadyState s → exec (.fillrect x y w h color) s = .next t → ReadyState t

/-- R247: `PHASE` moves only forward along `Unpowered`, `Resetting`, `ProgramExecuting`, `Ready`, or from `Ready` to
`Resetting` at a second INIT, one phase at a small step, and only inside INIT; no step returns to `Unpowered`. -/
def Obligations.PhaseMovesOnlyForwardAndInsideInit : Prop :=
  ∀ s t : State, Inv s → seqStep s = .next t →
    t.phase = s.phase ∨
      s.ctl.caller = .init ∧
        ((s.phase = .unpowered ∧ t.phase = .resetting) ∨ (s.phase = .ready ∧ t.phase = .resetting) ∨
          (s.phase = .resetting ∧ t.phase = .programExecuting) ∨ (s.phase = .programExecuting ∧ t.phase = .ready))

/-- R62, R72: the trace only grows: every step appends its events after those of all earlier steps, and a step that meets
a refused read keeps them and those it emitted before that read. -/
def Obligations.StepsOnlyAppendToTheTrace : Prop :=
  (∀ s t : State, step s = .next t → ∃ es, t.trace = s.trace ++ es) ∧
    ∀ (s : State) (tr : List Event), step s = .refused (.romOutOfRange tr) → ∃ es, tr = s.trace ++ es

/-- R38, R122, R250, R256, R285: the events any instruction appends keep the bus discipline: balanced transactions that do
not nest, chip-select spans inside them, bytes only inside such a span with DC driven in the same transaction, delays,
reset writes and pin directions outside every transaction. -/
def Obligations.EveryInstructionKeepsBusDiscipline : Prop :=
  ∀ (i : Instr) (s t : State), exec i s = .next t → ∃ es, t.trace = s.trace ++ es ∧ busOk es = true

/-- R251: the delays an instruction emits are 0 to 254 or 500. -/
def Obligations.OnlyEncodableDelaysOccur : Prop :=
  ∀ (i : Instr) (s t : State), exec i s = .next t → ∃ es, t.trace = s.trace ++ es ∧ es.all delayAllowed = true

/-- R229, R252: only RESETPULSE and INIT write the RST pin, and only INIT configures pins. -/
def Obligations.OnlyInitAndPulseDriveRst : Prop :=
  ∀ (i : Instr) (s t : State), exec i s = .next t → ∃ es, t.trace = s.trace ++ es ∧
    (i ≠ .init → es.all (fun e => !isPinDir e) = true) ∧
    (i ≠ .init → i ≠ .resetpulse → es.all (fun e => !isRst e) = true ∧ t.pin.rst = s.pin.rst)

/-- R70, R284: what a host operation emits, and how it ends, is a function of the ROM, the phase, `BUSY` and the geometry
alone: two blocks that agree on these append the same events, or are refused alike, whatever their working registers,
latches and traces hold. -/
def Obligations.HostOperationIgnoresWorkingRegisters : Prop :=
  ∀ (i : Instr) (s s' : State),
    (match i with | .init | .fillscreen _ | .fillrect _ _ _ _ _ | .reservedOp3 => True | _ => False) →
    s.rom = s'.rom → s.romSize = s'.romSize → s.initLen = s'.initLen → s.phase = s'.phase → s.busy = s'.busy →
    s.geo = s'.geo →
    (∃ t t' es, exec i s = .next t ∧ exec i s' = .next t' ∧ t.trace = s.trace ++ es ∧ t'.trace = s'.trace ++ es) ∨
      ∃ r, exec i s = .refused r ∧ exec i s' = .refused r

/-- R274, R275: in `Ready` any sequence of fills, none of them empty on the panel, runs to its end: each step completes, and
the block is `Ready` and idle (`CTL` = IDLE, `BUSY` = 0) after them with no request pending. It rests on the model's queue
of requests (log 6) and on one step per operation (log 7). -/
def Obligations.ReadyBlockRunsAnyFills : Prop :=
  ∀ (ws : List PortWord) (s : State), s.ctl = Ctl.idle → s.busy = false → s.phase = .ready → s.geo = panelConstants →
    s.port = ws →
    (∀ w, w ∈ ws →
      (∃ color, decodePort w = .fillscreen color) ∨
        ∃ x y a b color, decodePort w = .fillrect x y a b color ∧ (240 ≤ x.toNat ∨ 240 ≤ y.toNat ∨ (a ≠ 0 ∧ b ≠ 0))) →
    ∃ t, Host.Core.run Sys2Proof.core ws.length s = .next t ∧ t.phase = .ready ∧ t.ctl = Ctl.idle ∧ t.busy = false ∧
      t.port = [] ∧ t.geo = panelConstants ∧ t.pp = s.pp ∧ t.dir = s.dir ∧ t.pin.rst = s.pin.rst

/-! ### The invariant -/

/-- The invariant holds after reset. The model's choices: `MS` is in range because log 3 names 0 for it, which R270 leaves
unspecified, and the ROM is canonical because log 2 lists nothing. -/
def Obligations.InvariantAtReset : Prop := Inv State.reset

/-- Every step keeps the invariant (R34, R38, R246, R247, R275 among its clauses). -/
def Obligations.StepKeepsInvariant : Prop := ∀ s t : State, Inv s → step s = .next t → Inv t

/-- Every small step of the sequencer keeps the invariant. -/
def Obligations.SmallStepKeepsInvariant : Prop := ∀ s t : State, Inv s → seqStep s = .next t → Inv t

/-- R38, R246, R247: what the invariant says of an idle block: `BUSY` and `TXN` are 0 and the phase is `Unpowered` or
`Ready`. -/
def Obligations.IdleBlockIsSettled : Prop :=
  ∀ s : State, Inv s → s.ctl.pos = .idle →
    s.busy = false ∧ s.txn = false ∧ (s.phase = .unpowered ∨ s.phase = .ready)

/-! ### The step -/

/-- R246, R270: idle with no request nothing runs; with a request (the model's queue, log 6) the step is the whole meaning
of the operation the port word selects (log 7), the request taken. -/
def Obligations.StepRunsTheHostOperation : Prop :=
  ∀ s : State, s.ctl.pos = .idle →
    (s.port = [] → step s = .next s) ∧
      ∀ w rest, s.port = w :: rest → step s = exec (decodePort w) { s with port := rest }

/-- The model's step (log 7, a DESIGN CHOICE; R148's row goes one logical write at a time): at `CI_OPC`, when the ROM bytes
at `PP` decode to a record, the step is its whole meaning, followed by "next record" (return when `CNT` has reached 0, else
`CI_OPC` again); where the record runs past the ROM the step is the one small step of R148's row. -/
def Obligations.StepRunsTheRecordAtPp : Prop :=
  ∀ s : State, s.ctl.pos = .ciOpc →
    (∀ (bytes : List Byte) (i : Instr), RomHolds s s.pp.toNat bytes → decode (.record bytes) = .ok i →
      step s = mapNext (exec i s) (fun t => if t.cnt = 0 then returnFrom .runProg t else goto .ciOpc t)) ∧
      (s.romSize.val < s.pp.toNat + recordLenAt s.rom s.pp.toNat → step s = seqStep s)

/-- The model's step (log 7, a DESIGN CHOICE; R148's row goes to `CI_WAIT`): at `CI_DLYB` the step is the whole meaning of
the delay byte at `PP`, `PP` advanced past it, followed by "next record"; beyond the ROM the read is refused (R62). -/
def Obligations.StepRunsTheDelayByteAtPp : Prop :=
  ∀ s : State, s.ctl.pos = .ciDlyb →
    (∀ i, s.pp.toNat < s.romSize.val → decode (.delayByte (Memory.read s.rom s.pp.toNat)) = .ok i →
      step s = mapNext (exec i { s with pp := s.pp + 1 }) nextRecord) ∧
      (s.romSize.val ≤ s.pp.toNat → step s = .refused (.romOutOfRange s.trace))

/-- At a selected sub-operation the step is its whole meaning (log 7) on the operands in its registers (log 9), followed by
the return to the caller. -/
def Obligations.StepRunsTheSubOperation : Prop :=
  ∀ (s : State) (op : SubOp) (i : Instr), s.ctl.pos = .sub op → decode (.subop op.code s.subOperands) = .ok i →
    step s = mapNext (exec i s) (returnFrom op)

/-! ### The two renderings agree -/

/-- R148, D19: the small-step interpreter, started at `CI_COUNT`, ends exactly where RUNPROG does, or is refused as
RUNPROG is. -/
def Obligations.SmallStepInterpreterIsRunProg : Prop :=
  ∀ (base : Word) (s : State), s.ctl.caller = .none →
    (∀ t, exec (.runprog base) s = .next t →
      ∃ n, seqRun n { s with pp := base, ctl := { caller := .none, pos := .ciCount } } =
        .next { t with ctl := Ctl.idle }) ∧
      (∀ r, exec (.runprog base) s = .refused r →
        ∃ n, seqRun n { s with pp := base, ctl := { caller := .none, pos := .ciCount } } = .refused r)

/-- D19: every host operation run by the small-step sequencer ends in the state, or with the refusal, of its meaning. -/
def Obligations.SmallStepSequencerIsTheMeaning : Prop :=
  ∀ (s : State) (w : PortWord) (rest : List PortWord), s.ctl = Ctl.idle → s.port = w :: rest →
    (∀ t, exec (decodePort w) { s with port := rest } = .next t → ∃ n, seqRun n s = .next t) ∧
      (∀ r, exec (decodePort w) { s with port := rest } = .refused r → ∃ n, seqRun n s = .refused r)

/-- D19: every sub-operation run by the small-step sequencer ends where its meaning does. -/
def Obligations.SmallStepSubOperationIsTheMeaning : Prop :=
  ∀ (s : State) (op : SubOp), s.ctl = { caller := .none, pos := .sub op } →
    (∀ t, step s = .next t → ∃ n, seqRun n s = .next t) ∧ (∀ r, step s = .refused r → ∃ n, seqRun n s = .refused r)

/-! ### Encodings -/

/-- Decoding an encoded well-formed instruction gives it back, every operand at every value. -/
def Obligations.DecodeEncode : Prop := ∀ i : Instr, i.wf = true → decode (encode i) = .ok i

/-- R91, R94: a decoded record accounts for every byte: its encoding followed by the rest is the input, its length is
`2 + k + f`, and `k` is at most 127. -/
def Obligations.RecordDecodingLosesNothing : Prop :=
  ∀ (bs rest : List Byte) (r : RawRecord), decodeRecord bs = .ok (r, rest) →
    r.bytes ++ rest = bs ∧ r.bytes.length = 2 + r.args.length + (if r.delay.isSome then 1 else 0) ∧
      r.args.length ≤ 127 ∧ (nameRecord r).rawRecord? = some r ∧ (nameRecord r).wf = true

/-- R101: the selector picks the operation, a field an operation does not take is ignored, and the reserved selector is
refused. -/
def Obligations.PortWordFields : Prop :=
  ∀ x y w h color : Word,
    decodePort (mkPortWord 0 x y w h color) = .init ∧
      decodePort (mkPortWord 1 x y w h color) = .fillscreen color ∧
      decodePort (mkPortWord 2 x y w h color) = .fillrect x y w h color ∧
      ∀ s : State, s.busy = false → exec (decodePort (mkPortWord 3 x y w h color)) s = .refused .reservedHostOp

/-- R102, R107: the sub-operation codes, their operands in the working registers (log 9); that the decoder rejects the
unused codes 6 and 7 is the model's deduction (log 16); a host port word selects none of them. -/
def Obligations.SubOperationCodes : Prop :=
  ∀ r : SubOperands,
    decode (.subop 0 r) = .ok (.writecommand r.opc) ∧ decode (.subop 1 r) = .ok (.writedata r.dat) ∧
      decode (.subop 2 r) = .ok (.streampixels r.pixhi r.pixlo r.pixcnt) ∧ decode (.subop 3 r) = .ok (.runprog r.pp) ∧
      decode (.subop 4 r) = .ok (.setaddrwindow r.x0 r.y0 r.x1 r.y1) ∧ decode (.subop 5 r) = .ok .resetpulse ∧
      decode (.subop 6 r) = .error .unusedSubop ∧ decode (.subop 7 r) = .error .unusedSubop ∧
      ∀ w : PortWord, decodePort w = .init ∨ (∃ color, decodePort w = .fillscreen color) ∨
        (∃ x y a b color, decodePort w = .fillrect x y a b color) ∨ decodePort w = .reservedOp3

/-- R92: the argsByte's two fields, as bits and as masks; every argsByte is the one of its fields and all 256 are legal: a
record with any argsByte decodes when its bytes are there. -/
def Obligations.ArgsByteFields : Prop :=
  (∀ a : Byte, (hasDelay a = true ↔ a &&& 0x80 ≠ 0) ∧ (argCount a).toNat = (a &&& 0x7F).toNat ∧
    a.toNat = 128 * (hasDelay a).toNat + (argCount a).toNat ∧ mkArgsByte (hasDelay a) (argCount a) = a) ∧
    (∀ (f : Bool) (k : BitVec 7), hasDelay (mkArgsByte f k) = f ∧ argCount (mkArgsByte f k) = k) ∧
    ∀ (o a : Byte) (rest : List Byte), (argCount a).toNat + (hasDelay a).toNat ≤ rest.length →
      ∃ r after, decodeRecord (o :: a :: rest) = .ok (r, after) ∧ r.opcode = o ∧
        r.args.length = (argCount a).toNat ∧ r.delay.isSome = hasDelay a

/-- Words written out from the spec's encodings decode to their instructions (R101, R102, R105, R108, R111); the last
clause, that the unused code 6 is rejected, is the model's deduction (R107, log 16). -/
def Obligations.WrittenOutWordsDecode : Prop :=
  decode (.record [0x3A, 0x81, 0x55, 0x0A]) = .ok (.colmod [0x55] (some 0x0A)) ∧
    decode (.record [0x36, 0x01, 0x00]) = .ok (.madctl [0x00] none) ∧
    decode (.record [0xB0, 0x82, 0x12, 0x34, 0x00]) = .ok (.cmd 0xB0 [0x12, 0x34] (some 0x00)) ∧
    decode (.delayByte 0xFF) = .ok .dly500 ∧
    decode (.port 0x200EE00EF0005000507E0) = .ok (.fillrect 0xEE 0xEF 5 5 0x07E0) ∧
    decode (.subop 5 SubOperands.zero) = .ok .resetpulse ∧
    decode (.subop 6 SubOperands.zero) = .error .unusedSubop

/-- R110: an assembled program, in the ROM from some base on, is decoded as the listing's records, and is well-formed with
exactly its own length. -/
def Obligations.AssembledProgramIsTheListing : Prop :=
  ∀ (n : Byte) (lines : List AsmLine) (bytes : List Byte) (rs : List RawRecord) (base : Nat) (s : State),
    assemble n lines = some bytes → asmRecords lines = some rs → RomHolds s base bytes →
    programRecords s.rom base = rs ∧ wellFormed s base bytes.length = true

/-! ### Where the ROM ends inside a record -/

/-- R61, R62: a record that the end of the ROM cuts short runs, by small steps (log 7), up to the refused read: they emit
its command write and a data write for each argument below `ROM_SIZE`, `CNT` is not counted down, and the read at or beyond
`ROM_SIZE` is refused with those events in the trace. -/
def Obligations.CutShortRecordStopsAtTheRefusedRead : Prop :=
  ∀ s : State, s.ctl.pos = .ciOpc → s.romSize.val < s.pp.toNat + recordLenAt s.rom s.pp.toNat →
    ∃ n t, Host.Core.run Sys2Proof.core n s = .next t ∧
      t.trace = s.trace ++
        (if s.pp.toNat < s.romSize.val then
          wc (Memory.read s.rom s.pp.toNat) ++
            ((List.range (s.romSize.val - (s.pp.toNat + 2))).take (argCount (argsByteAt s.rom s.pp.toNat)).toNat).flatMap
              (fun i => wd (Memory.read s.rom (s.pp.toNat + 2 + i)))
        else []) ∧
      t.cnt = s.cnt ∧ s.romSize.val ≤ t.pp.toNat ∧ step t = .refused (.romOutOfRange t.trace)
end

