-- ==== Sys2Proof/Laws/State.lean ====
section
/-! SUPPORT. What each shared update leaves in each field of State: one lemma per field, true by `rfl`. -/

namespace Sys2Proof.Laws

open Sys2Proof Sys2Proof.Machine

/-! ### Emitting events -/

@[simp] theorem emit_pp (es : List Event) (s : State) : (emit es s).pp = s.pp := rfl
@[simp] theorem emit_cnt (es : List Event) (s : State) : (emit es s).cnt = s.cnt := rfl
@[simp] theorem emit_opc (es : List Event) (s : State) : (emit es s).opc = s.opc := rfl
@[simp] theorem emit_args (es : List Event) (s : State) : (emit es s).args = s.args := rfl
@[simp] theorem emit_dlyf (es : List Event) (s : State) : (emit es s).dlyf = s.dlyf := rfl
@[simp] theorem emit_argc (es : List Event) (s : State) : (emit es s).argc = s.argc := rfl
@[simp] theorem emit_dat (es : List Event) (s : State) : (emit es s).dat = s.dat := rfl
@[simp] theorem emit_dly (es : List Event) (s : State) : (emit es s).dly = s.dly := rfl
@[simp] theorem emit_ms (es : List Event) (s : State) : (emit es s).ms = s.ms := rfl
@[simp] theorem emit_x0 (es : List Event) (s : State) : (emit es s).x0 = s.x0 := rfl
@[simp] theorem emit_y0 (es : List Event) (s : State) : (emit es s).y0 = s.y0 := rfl
@[simp] theorem emit_x1 (es : List Event) (s : State) : (emit es s).x1 = s.x1 := rfl
@[simp] theorem emit_y1 (es : List Event) (s : State) : (emit es s).y1 = s.y1 := rfl
@[simp] theorem emit_fx (es : List Event) (s : State) : (emit es s).fx = s.fx := rfl
@[simp] theorem emit_fy (es : List Event) (s : State) : (emit es s).fy = s.fy := rfl
@[simp] theorem emit_fw (es : List Event) (s : State) : (emit es s).fw = s.fw := rfl
@[simp] theorem emit_fh (es : List Event) (s : State) : (emit es s).fh = s.fh := rfl
@[simp] theorem emit_color (es : List Event) (s : State) : (emit es s).color = s.color := rfl
@[simp] theorem emit_pixhi (es : List Event) (s : State) : (emit es s).pixhi = s.pixhi := rfl
@[simp] theorem emit_pixlo (es : List Event) (s : State) : (emit es s).pixlo = s.pixlo := rfl
@[simp] theorem emit_pixcnt (es : List Event) (s : State) : (emit es s).pixcnt = s.pixcnt := rfl
@[simp] theorem emit_phase (es : List Event) (s : State) : (emit es s).phase = s.phase := rfl
@[simp] theorem emit_busy (es : List Event) (s : State) : (emit es s).busy = s.busy := rfl
@[simp] theorem emit_geo (es : List Event) (s : State) : (emit es s).geo = s.geo := rfl
@[simp] theorem emit_buscfg (es : List Event) (s : State) : (emit es s).buscfg = s.buscfg := rfl
@[simp] theorem emit_pin (es : List Event) (s : State) : (emit es s).pin = es.foldl latchPin s.pin := rfl
@[simp] theorem emit_dir (es : List Event) (s : State) : (emit es s).dir = es.foldl latchDir s.dir := rfl
@[simp] theorem emit_txn (es : List Event) (s : State) : (emit es s).txn = es.foldl latchTxn s.txn := rfl
@[simp] theorem emit_ctl (es : List Event) (s : State) : (emit es s).ctl = s.ctl := rfl
@[simp] theorem emit_rom (es : List Event) (s : State) : (emit es s).rom = s.rom := rfl
@[simp] theorem emit_romSize (es : List Event) (s : State) : (emit es s).romSize = s.romSize := rfl
@[simp] theorem emit_initLen (es : List Event) (s : State) : (emit es s).initLen = s.initLen := rfl
@[simp] theorem emit_port (es : List Event) (s : State) : (emit es s).port = s.port := rfl
@[simp] theorem emit_trace (es : List Event) (s : State) : (emit es s).trace = s.trace ++ es := rfl

/-! ### Moving the sequencer -/

@[simp] theorem goto_pp (p : Pos) (s : State) : (goto p s).pp = s.pp := rfl
@[simp] theorem goto_cnt (p : Pos) (s : State) : (goto p s).cnt = s.cnt := rfl
@[simp] theorem goto_opc (p : Pos) (s : State) : (goto p s).opc = s.opc := rfl
@[simp] theorem goto_args (p : Pos) (s : State) : (goto p s).args = s.args := rfl
@[simp] theorem goto_dlyf (p : Pos) (s : State) : (goto p s).dlyf = s.dlyf := rfl
@[simp] theorem goto_argc (p : Pos) (s : State) : (goto p s).argc = s.argc := rfl
@[simp] theorem goto_dat (p : Pos) (s : State) : (goto p s).dat = s.dat := rfl
@[simp] theorem goto_dly (p : Pos) (s : State) : (goto p s).dly = s.dly := rfl
@[simp] theorem goto_ms (p : Pos) (s : State) : (goto p s).ms = s.ms := rfl
@[simp] theorem goto_x0 (p : Pos) (s : State) : (goto p s).x0 = s.x0 := rfl
@[simp] theorem goto_y0 (p : Pos) (s : State) : (goto p s).y0 = s.y0 := rfl
@[simp] theorem goto_x1 (p : Pos) (s : State) : (goto p s).x1 = s.x1 := rfl
@[simp] theorem goto_y1 (p : Pos) (s : State) : (goto p s).y1 = s.y1 := rfl
@[simp] theorem goto_fx (p : Pos) (s : State) : (goto p s).fx = s.fx := rfl
@[simp] theorem goto_fy (p : Pos) (s : State) : (goto p s).fy = s.fy := rfl
@[simp] theorem goto_fw (p : Pos) (s : State) : (goto p s).fw = s.fw := rfl
@[simp] theorem goto_fh (p : Pos) (s : State) : (goto p s).fh = s.fh := rfl
@[simp] theorem goto_color (p : Pos) (s : State) : (goto p s).color = s.color := rfl
@[simp] theorem goto_pixhi (p : Pos) (s : State) : (goto p s).pixhi = s.pixhi := rfl
@[simp] theorem goto_pixlo (p : Pos) (s : State) : (goto p s).pixlo = s.pixlo := rfl
@[simp] theorem goto_pixcnt (p : Pos) (s : State) : (goto p s).pixcnt = s.pixcnt := rfl
@[simp] theorem goto_phase (p : Pos) (s : State) : (goto p s).phase = s.phase := rfl
@[simp] theorem goto_busy (p : Pos) (s : State) : (goto p s).busy = s.busy := rfl
@[simp] theorem goto_geo (p : Pos) (s : State) : (goto p s).geo = s.geo := rfl
@[simp] theorem goto_buscfg (p : Pos) (s : State) : (goto p s).buscfg = s.buscfg := rfl
@[simp] theorem goto_pin (p : Pos) (s : State) : (goto p s).pin = s.pin := rfl
@[simp] theorem goto_dir (p : Pos) (s : State) : (goto p s).dir = s.dir := rfl
@[simp] theorem goto_txn (p : Pos) (s : State) : (goto p s).txn = s.txn := rfl
@[simp] theorem goto_ctl (p : Pos) (s : State) : (goto p s).ctl = { s.ctl with pos := p } := rfl
@[simp] theorem goto_rom (p : Pos) (s : State) : (goto p s).rom = s.rom := rfl
@[simp] theorem goto_romSize (p : Pos) (s : State) : (goto p s).romSize = s.romSize := rfl
@[simp] theorem goto_initLen (p : Pos) (s : State) : (goto p s).initLen = s.initLen := rfl
@[simp] theorem goto_port (p : Pos) (s : State) : (goto p s).port = s.port := rfl
@[simp] theorem goto_trace (p : Pos) (s : State) : (goto p s).trace = s.trace := rfl
@[simp] theorem endHost_pp (s : State) : (endHost s).pp = s.pp := rfl
@[simp] theorem endHost_cnt (s : State) : (endHost s).cnt = s.cnt := rfl
@[simp] theorem endHost_opc (s : State) : (endHost s).opc = s.opc := rfl
@[simp] theorem endHost_args (s : State) : (endHost s).args = s.args := rfl
@[simp] theorem endHost_dlyf (s : State) : (endHost s).dlyf = s.dlyf := rfl
@[simp] theorem endHost_argc (s : State) : (endHost s).argc = s.argc := rfl
@[simp] theorem endHost_dat (s : State) : (endHost s).dat = s.dat := rfl
@[simp] theorem endHost_dly (s : State) : (endHost s).dly = s.dly := rfl
@[simp] theorem endHost_ms (s : State) : (endHost s).ms = s.ms := rfl
@[simp] theorem endHost_x0 (s : State) : (endHost s).x0 = s.x0 := rfl
@[simp] theorem endHost_y0 (s : State) : (endHost s).y0 = s.y0 := rfl
@[simp] theorem endHost_x1 (s : State) : (endHost s).x1 = s.x1 := rfl
@[simp] theorem endHost_y1 (s : State) : (endHost s).y1 = s.y1 := rfl
@[simp] theorem endHost_fx (s : State) : (endHost s).fx = s.fx := rfl
@[simp] theorem endHost_fy (s : State) : (endHost s).fy = s.fy := rfl
@[simp] theorem endHost_fw (s : State) : (endHost s).fw = s.fw := rfl
@[simp] theorem endHost_fh (s : State) : (endHost s).fh = s.fh := rfl
@[simp] theorem endHost_color (s : State) : (endHost s).color = s.color := rfl
@[simp] theorem endHost_pixhi (s : State) : (endHost s).pixhi = s.pixhi := rfl
@[simp] theorem endHost_pixlo (s : State) : (endHost s).pixlo = s.pixlo := rfl
@[simp] theorem endHost_pixcnt (s : State) : (endHost s).pixcnt = s.pixcnt := rfl
@[simp] theorem endHost_phase (s : State) : (endHost s).phase = s.phase := rfl
@[simp] theorem endHost_busy (s : State) : (endHost s).busy = false := rfl
@[simp] theorem endHost_geo (s : State) : (endHost s).geo = s.geo := rfl
@[simp] theorem endHost_buscfg (s : State) : (endHost s).buscfg = s.buscfg := rfl
@[simp] theorem endHost_pin (s : State) : (endHost s).pin = s.pin := rfl
@[simp] theorem endHost_dir (s : State) : (endHost s).dir = s.dir := rfl
@[simp] theorem endHost_txn (s : State) : (endHost s).txn = s.txn := rfl
@[simp] theorem endHost_ctl (s : State) : (endHost s).ctl = Ctl.idle := rfl
@[simp] theorem endHost_rom (s : State) : (endHost s).rom = s.rom := rfl
@[simp] theorem endHost_romSize (s : State) : (endHost s).romSize = s.romSize := rfl
@[simp] theorem endHost_initLen (s : State) : (endHost s).initLen = s.initLen := rfl
@[simp] theorem endHost_port (s : State) : (endHost s).port = s.port := rfl
@[simp] theorem endHost_trace (s : State) : (endHost s).trace = s.trace := rfl

/-! ### Operand latches -/

@[simp] theorem latchRect_pp (x y w h color : Word) (s : State) :
    (latchRect x y w h color s).pp = s.pp := rfl
@[simp] theorem latchRect_cnt (x y w h color : Word) (s : State) :
    (latchRect x y w h color s).cnt = s.cnt := rfl
@[simp] theorem latchRect_opc (x y w h color : Word) (s : State) :
    (latchRect x y w h color s).opc = s.opc := rfl
@[simp] theorem latchRect_args (x y w h color : Word) (s : State) :
    (latchRect x y w h color s).args = s.args := rfl
@[simp] theorem latchRect_dlyf (x y w h color : Word) (s : State) :
    (latchRect x y w h color s).dlyf = s.dlyf := rfl
@[simp] theorem latchRect_argc (x y w h color : Word) (s : State) :
    (latchRect x y w h color s).argc = s.argc := rfl
@[simp] theorem latchRect_dat (x y w h color : Word) (s : State) :
    (latchRect x y w h color s).dat = s.dat := rfl
@[simp] theorem latchRect_dly (x y w h color : Word) (s : State) :
    (latchRect x y w h color s).dly = s.dly := rfl
@[simp] theorem latchRect_ms (x y w h color : Word) (s : State) :
    (latchRect x y w h color s).ms = s.ms := rfl
@[simp] theorem latchRect_x0 (x y w h color : Word) (s : State) :
    (latchRect x y w h color s).x0 = s.x0 := rfl
@[simp] theorem latchRect_y0 (x y w h color : Word) (s : State) :
    (latchRect x y w h color s).y0 = s.y0 := rfl
@[simp] theorem latchRect_x1 (x y w h color : Word) (s : State) :
    (latchRect x y w h color s).x1 = s.x1 := rfl
@[simp] theorem latchRect_y1 (x y w h color : Word) (s : State) :
    (latchRect x y w h color s).y1 = s.y1 := rfl
@[simp] theorem latchRect_fx (x y w h color : Word) (s : State) :
    (latchRect x y w h color s).fx = x := rfl
@[simp] theorem latchRect_fy (x y w h color : Word) (s : State) :
    (latchRect x y w h color s).fy = y := rfl
@[simp] theorem latchRect_fw (x y w h color : Word) (s : State) :
    (latchRect x y w h color s).fw = w := rfl
@[simp] theorem latchRect_fh (x y w h color : Word) (s : State) :
    (latchRect x y w h color s).fh = h := rfl
@[simp] theorem latchRect_color (x y w h color : Word) (s : State) :
    (latchRect x y w h color s).color = color := rfl
@[simp] theorem latchRect_pixhi (x y w h color : Word) (s : State) :
    (latchRect x y w h color s).pixhi = s.pixhi := rfl
@[simp] theorem latchRect_pixlo (x y w h color : Word) (s : State) :
    (latchRect x y w h color s).pixlo = s.pixlo := rfl
@[simp] theorem latchRect_pixcnt (x y w h color : Word) (s : State) :
    (latchRect x y w h color s).pixcnt = s.pixcnt := rfl
@[simp] theorem latchRect_phase (x y w h color : Word) (s : State) :
    (latchRect x y w h color s).phase = s.phase := rfl
@[simp] theorem latchRect_busy (x y w h color : Word) (s : State) :
    (latchRect x y w h color s).busy = s.busy := rfl
@[simp] theorem latchRect_geo (x y w h color : Word) (s : State) :
    (latchRect x y w h color s).geo = s.geo := rfl
@[simp] theorem latchRect_buscfg (x y w h color : Word) (s : State) :
    (latchRect x y w h color s).buscfg = s.buscfg := rfl
@[simp] theorem latchRect_pin (x y w h color : Word) (s : State) :
    (latchRect x y w h color s).pin = s.pin := rfl
@[simp] theorem latchRect_dir (x y w h color : Word) (s : State) :
    (latchRect x y w h color s).dir = s.dir := rfl
@[simp] theorem latchRect_txn (x y w h color : Word) (s : State) :
    (latchRect x y w h color s).txn = s.txn := rfl
@[simp] theorem latchRect_ctl (x y w h color : Word) (s : State) :
    (latchRect x y w h color s).ctl = s.ctl := rfl
@[simp] theorem latchRect_rom (x y w h color : Word) (s : State) :
    (latchRect x y w h color s).rom = s.rom := rfl
@[simp] theorem latchRect_romSize (x y w h color : Word) (s : State) :
    (latchRect x y w h color s).romSize = s.romSize := rfl
@[simp] theorem latchRect_initLen (x y w h color : Word) (s : State) :
    (latchRect x y w h color s).initLen = s.initLen := rfl
@[simp] theorem latchRect_port (x y w h color : Word) (s : State) :
    (latchRect x y w h color s).port = s.port := rfl
@[simp] theorem latchRect_trace (x y w h color : Word) (s : State) :
    (latchRect x y w h color s).trace = s.trace := rfl
@[simp] theorem clipRect_pp (s : State) : (clipRect s).pp = s.pp := rfl
@[simp] theorem clipRect_cnt (s : State) : (clipRect s).cnt = s.cnt := rfl
@[simp] theorem clipRect_opc (s : State) : (clipRect s).opc = s.opc := rfl
@[simp] theorem clipRect_args (s : State) : (clipRect s).args = s.args := rfl
@[simp] theorem clipRect_dlyf (s : State) : (clipRect s).dlyf = s.dlyf := rfl
@[simp] theorem clipRect_argc (s : State) : (clipRect s).argc = s.argc := rfl
@[simp] theorem clipRect_dat (s : State) : (clipRect s).dat = s.dat := rfl
@[simp] theorem clipRect_dly (s : State) : (clipRect s).dly = s.dly := rfl
@[simp] theorem clipRect_ms (s : State) : (clipRect s).ms = s.ms := rfl
@[simp] theorem clipRect_x0 (s : State) : (clipRect s).x0 = s.fx := rfl
@[simp] theorem clipRect_y0 (s : State) : (clipRect s).y0 = s.fy := rfl
@[simp] theorem clipRect_x1 (s : State) : (clipRect s).x1 = lastOf s.fx (clip s.fx s.fw s.geo.width) := rfl
@[simp] theorem clipRect_y1 (s : State) : (clipRect s).y1 = lastOf s.fy (clip s.fy s.fh s.geo.height) := rfl
@[simp] theorem clipRect_fx (s : State) : (clipRect s).fx = s.fx := rfl
@[simp] theorem clipRect_fy (s : State) : (clipRect s).fy = s.fy := rfl
@[simp] theorem clipRect_fw (s : State) : (clipRect s).fw = clip s.fx s.fw s.geo.width := rfl
@[simp] theorem clipRect_fh (s : State) : (clipRect s).fh = clip s.fy s.fh s.geo.height := rfl
@[simp] theorem clipRect_color (s : State) : (clipRect s).color = s.color := rfl
@[simp] theorem clipRect_pixhi (s : State) : (clipRect s).pixhi = s.pixhi := rfl
@[simp] theorem clipRect_pixlo (s : State) : (clipRect s).pixlo = s.pixlo := rfl
@[simp] theorem clipRect_pixcnt (s : State) : (clipRect s).pixcnt = s.pixcnt := rfl
@[simp] theorem clipRect_phase (s : State) : (clipRect s).phase = s.phase := rfl
@[simp] theorem clipRect_busy (s : State) : (clipRect s).busy = s.busy := rfl
@[simp] theorem clipRect_geo (s : State) : (clipRect s).geo = s.geo := rfl
@[simp] theorem clipRect_buscfg (s : State) : (clipRect s).buscfg = s.buscfg := rfl
@[simp] theorem clipRect_pin (s : State) : (clipRect s).pin = s.pin := rfl
@[simp] theorem clipRect_dir (s : State) : (clipRect s).dir = s.dir := rfl
@[simp] theorem clipRect_txn (s : State) : (clipRect s).txn = s.txn := rfl
@[simp] theorem clipRect_ctl (s : State) : (clipRect s).ctl = s.ctl := rfl
@[simp] theorem clipRect_rom (s : State) : (clipRect s).rom = s.rom := rfl
@[simp] theorem clipRect_romSize (s : State) : (clipRect s).romSize = s.romSize := rfl
@[simp] theorem clipRect_initLen (s : State) : (clipRect s).initLen = s.initLen := rfl
@[simp] theorem clipRect_port (s : State) : (clipRect s).port = s.port := rfl
@[simp] theorem clipRect_trace (s : State) : (clipRect s).trace = s.trace := rfl
@[simp] theorem loadPixels_pp (s : State) : (loadPixels s).pp = s.pp := rfl
@[simp] theorem loadPixels_cnt (s : State) : (loadPixels s).cnt = s.cnt := rfl
@[simp] theorem loadPixels_opc (s : State) : (loadPixels s).opc = s.opc := rfl
@[simp] theorem loadPixels_args (s : State) : (loadPixels s).args = s.args := rfl
@[simp] theorem loadPixels_dlyf (s : State) : (loadPixels s).dlyf = s.dlyf := rfl
@[simp] theorem loadPixels_argc (s : State) : (loadPixels s).argc = s.argc := rfl
@[simp] theorem loadPixels_dat (s : State) : (loadPixels s).dat = s.dat := rfl
@[simp] theorem loadPixels_dly (s : State) : (loadPixels s).dly = s.dly := rfl
@[simp] theorem loadPixels_ms (s : State) : (loadPixels s).ms = s.ms := rfl
@[simp] theorem loadPixels_x0 (s : State) : (loadPixels s).x0 = s.x0 := rfl
@[simp] theorem loadPixels_y0 (s : State) : (loadPixels s).y0 = s.y0 := rfl
@[simp] theorem loadPixels_x1 (s : State) : (loadPixels s).x1 = s.x1 := rfl
@[simp] theorem loadPixels_y1 (s : State) : (loadPixels s).y1 = s.y1 := rfl
@[simp] theorem loadPixels_fx (s : State) : (loadPixels s).fx = s.fx := rfl
@[simp] theorem loadPixels_fy (s : State) : (loadPixels s).fy = s.fy := rfl
@[simp] theorem loadPixels_fw (s : State) : (loadPixels s).fw = s.fw := rfl
@[simp] theorem loadPixels_fh (s : State) : (loadPixels s).fh = s.fh := rfl
@[simp] theorem loadPixels_color (s : State) : (loadPixels s).color = s.color := rfl
@[simp] theorem loadPixels_pixhi (s : State) : (loadPixels s).pixhi = hi8 s.color := rfl
@[simp] theorem loadPixels_pixlo (s : State) : (loadPixels s).pixlo = lo8 s.color := rfl
@[simp] theorem loadPixels_pixcnt (s : State) : (loadPixels s).pixcnt = pixelCount s.fw s.fh := rfl
@[simp] theorem loadPixels_phase (s : State) : (loadPixels s).phase = s.phase := rfl
@[simp] theorem loadPixels_busy (s : State) : (loadPixels s).busy = s.busy := rfl
@[simp] theorem loadPixels_geo (s : State) : (loadPixels s).geo = s.geo := rfl
@[simp] theorem loadPixels_buscfg (s : State) : (loadPixels s).buscfg = s.buscfg := rfl
@[simp] theorem loadPixels_pin (s : State) : (loadPixels s).pin = s.pin := rfl
@[simp] theorem loadPixels_dir (s : State) : (loadPixels s).dir = s.dir := rfl
@[simp] theorem loadPixels_txn (s : State) : (loadPixels s).txn = s.txn := rfl
@[simp] theorem loadPixels_ctl (s : State) : (loadPixels s).ctl = s.ctl := rfl
@[simp] theorem loadPixels_rom (s : State) : (loadPixels s).rom = s.rom := rfl
@[simp] theorem loadPixels_romSize (s : State) : (loadPixels s).romSize = s.romSize := rfl
@[simp] theorem loadPixels_initLen (s : State) : (loadPixels s).initLen = s.initLen := rfl
@[simp] theorem loadPixels_port (s : State) : (loadPixels s).port = s.port := rfl
@[simp] theorem loadPixels_trace (s : State) : (loadPixels s).trace = s.trace := rfl

/-! ### Outcomes -/

@[simp] theorem andThen_next (s : State) (f : State → Result) : andThen (.next s) f = f s := rfl
@[simp] theorem andThen_fault (r : Fault) (f : State → Result) : andThen (.fault r) f = .fault r := rfl
@[simp] theorem andThen_refused (r : Refusal) (f : State → Result) : andThen (.refused r) f = .refused r := rfl
@[simp] theorem mapNext_next (s : State) (f : State → State) : mapNext (.next s) f = .next (f s) := rfl
@[simp] theorem mapNext_fault (r : Fault) (f : State → State) : mapNext (.fault r) f = .fault r := rfl
@[simp] theorem mapNext_refused (r : Refusal) (f : State → State) : mapNext (.refused r) f = .refused r := rfl

/-- A result goes on to a next state only from a next state. -/
theorem andThen_eq_next {r : Result} {f : State → Result} {t : State} (h : andThen r f = .next t) :
    ∃ s, r = .next s ∧ f s = .next t := by
  cases r with
  | next s => exact ⟨s, rfl, h⟩
  | fault e => cases h
  | refused e => cases h

/-- The same for a state transformer. -/
theorem mapNext_eq_next {r : Result} {f : State → State} {t : State} (h : mapNext r f = .next t) :
    ∃ s, r = .next s ∧ t = f s := by
  obtain ⟨s, hs, hf⟩ := andThen_eq_next h
  exact ⟨s, hs, (by cases hf; rfl)⟩

/-- A transformed result is refused only where the result was. -/
theorem mapNext_eq_refused {r : Result} {f : State → State} {e : Refusal} (h : mapNext r f = .refused e) :
    r = .refused e := by
  cases r with
  | next s => cases h
  | fault e => cases h
  | refused e => cases h; rfl

end Sys2Proof.Laws
end

