-- ==== Sys2Proof/Laws/Memory.lean ====
section
/-! SUPPORT. The laws of the ROM: read after write, the canonical form, and what `MemRead` and the record fetch answer. -/

namespace Sys2Proof.Laws

open Sys2Proof Sys2Proof.Machine

theorem read_insert_self (a : Nat) (b : Byte) (m : Memory) : Memory.read (Memory.insert a b m) a = b := by
  induction m with
  | nil => simp [Memory.insert, Memory.read]
  | cons e m ih =>
    obtain ⟨k, c⟩ := e
    simp only [Memory.insert]
    split
    · simp [Memory.read]
    · split
      · simp [Memory.read]
      · next h => simp [Memory.read, h, ih]

theorem read_insert_other {a c : Nat} (b : Byte) (m : Memory) (h : c ≠ a) :
    Memory.read (Memory.insert a b m) c = Memory.read m c := by
  induction m with
  | nil => simp [Memory.insert, Memory.read, h]
  | cons e m ih =>
    obtain ⟨k, d⟩ := e
    simp only [Memory.insert]
    split
    · simp [Memory.read, h]
    · split
      · next hk => subst hk; simp [Memory.read, h]
      · simp [Memory.read, ih]

theorem read_erase_other {a c : Nat} (m : Memory) (h : c ≠ a) :
    Memory.read (Memory.erase a m) c = Memory.read m c := by
  induction m with
  | nil => rfl
  | cons e m ih =>
    obtain ⟨k, d⟩ := e
    simp only [Memory.erase]
    split
    · next hk => subst hk; simp [Memory.read, h]
    · simp [Memory.read, ih]

theorem wfFrom_mono {lo lo' : Nat} {m : Memory} (h : lo' ≤ lo) (hw : Memory.wfFrom lo m = true) :
    Memory.wfFrom lo' m = true := by
  cases m with
  | nil => rfl
  | cons e m =>
    obtain ⟨k, d⟩ := e
    simp only [Memory.wfFrom, Bool.and_eq_true, decide_eq_true_eq] at hw ⊢
    exact ⟨⟨by omega, hw.1.2⟩, hw.2⟩

theorem read_below {lo a : Nat} {m : Memory} (hw : Memory.wfFrom lo m = true) (h : a < lo) :
    Memory.read m a = Memory.unlisted a := by
  induction m generalizing lo with
  | nil => rfl
  | cons e m ih =>
    obtain ⟨k, d⟩ := e
    simp only [Memory.wfFrom, Bool.and_eq_true, decide_eq_true_eq] at hw
    have hk : a ≠ k := by omega
    simp only [Memory.read, hk, if_false]
    exact ih hw.2 (by omega)

theorem read_erase_self {lo : Nat} (a : Nat) {m : Memory} (hw : Memory.wfFrom lo m = true) :
    Memory.read (Memory.erase a m) a = Memory.unlisted a := by
  induction m generalizing lo with
  | nil => rfl
  | cons e m ih =>
    obtain ⟨k, d⟩ := e
    simp only [Memory.wfFrom, Bool.and_eq_true, decide_eq_true_eq] at hw
    simp only [Memory.erase]
    split
    · next hk => subst hk; exact read_below hw.2 (by omega)
    · next hk => simp [Memory.read, hk, ih hw.2]

theorem wfFrom_erase {lo : Nat} (a : Nat) {m : Memory} (hw : Memory.wfFrom lo m = true) :
    Memory.wfFrom lo (Memory.erase a m) = true := by
  induction m generalizing lo with
  | nil => rfl
  | cons e m ih =>
    obtain ⟨k, d⟩ := e
    simp only [Memory.wfFrom, Bool.and_eq_true, decide_eq_true_eq] at hw
    simp only [Memory.erase]
    split
    · exact wfFrom_mono (by omega) hw.2
    · simp only [Memory.wfFrom, Bool.and_eq_true, decide_eq_true_eq]
      exact ⟨hw.1, ih hw.2⟩

theorem wfFrom_insert {lo a : Nat} {b : Byte} {m : Memory} (hw : Memory.wfFrom lo m = true) (hlo : lo ≤ a)
    (hb : b ≠ Memory.unlisted a) : Memory.wfFrom lo (Memory.insert a b m) = true := by
  induction m generalizing lo with
  | nil => simp [Memory.insert, Memory.wfFrom, hlo, hb]
  | cons e m ih =>
    obtain ⟨k, d⟩ := e
    simp only [Memory.wfFrom, Bool.and_eq_true, decide_eq_true_eq] at hw
    simp only [Memory.insert]
    split
    · simp only [Memory.wfFrom, Bool.and_eq_true, decide_eq_true_eq]
      exact ⟨⟨hlo, by simpa using hb⟩, ⟨by omega, hw.1.2⟩, hw.2⟩
    · split
      · next hk =>
        subst hk
        simp only [Memory.wfFrom, Bool.and_eq_true, decide_eq_true_eq]
        exact ⟨⟨hlo, by simpa using hb⟩, hw.2⟩
      · simp only [Memory.wfFrom, Bool.and_eq_true, decide_eq_true_eq]
        exact ⟨hw.1, ih hw.2 (by omega)⟩

/-- A store keeps the canonical form. -/
theorem write_wf {m : Memory} (a : Nat) (b : Byte) (hw : Memory.wf m = true) : Memory.wf (Memory.write m a b) = true := by
  unfold Memory.write
  split
  · exact wfFrom_erase a hw
  · next h => exact wfFrom_insert hw (Nat.zero_le a) h

/-- So do stores at consecutive addresses. -/
theorem writeBytes_wf {m : Memory} (a : Nat) (bs : List Byte) (hw : Memory.wf m = true) :
    Memory.wf (Memory.writeBytes m a bs) = true := by
  induction bs generalizing m a with
  | nil => exact hw
  | cons b bs ih => exact ih (a + 1) (write_wf a b hw)

/-- A read after a store to the same address gives the byte stored. -/
theorem read_write_self {m : Memory} (a : Nat) (b : Byte) (hw : Memory.wf m = true) :
    Memory.read (Memory.write m a b) a = b := by
  unfold Memory.write
  split
  · next h => rw [read_erase_self a hw, h]
  · exact read_insert_self a b m

/-- A store leaves every other address alone. -/
theorem read_write_other {a c : Nat} (m : Memory) (b : Byte) (h : c ≠ a) :
    Memory.read (Memory.write m a b) c = Memory.read m c := by
  unfold Memory.write
  split
  · exact read_erase_other m h
  · exact read_insert_other b m h

theorem read_writeBytes_below {m : Memory} {a c : Nat} (bs : List Byte) (h : c < a) :
    Memory.read (Memory.writeBytes m a bs) c = Memory.read m c := by
  induction bs generalizing m a with
  | nil => rfl
  | cons b bs ih => rw [Memory.writeBytes, ih (by omega), read_write_other m b (by omega)]

/-- Bytes stored at consecutive addresses are read back. -/
theorem read_writeBytes {m : Memory} (a : Nat) (bs : List Byte) (hw : Memory.wf m = true) (i : Nat) (h : i < bs.length) :
    some (Memory.read (Memory.writeBytes m a bs) (a + i)) = bs[i]? := by
  induction bs generalizing m a i with
  | nil => simp at h
  | cons b bs ih =>
    cases i with
    | zero => simp [Memory.writeBytes, read_writeBytes_below bs (Nat.lt_succ_self a), read_write_self a b hw]
    | succ i =>
      have := ih (a + 1) (write_wf a b hw) i (by simpa using h)
      simpa [Memory.writeBytes, Nat.add_assoc, Nat.add_comm, Nat.add_left_comm] using this

/-! ### MemRead and the fetch -/

theorem memRead_inside {s : State} {a : Nat} (h : a < s.romSize.val) : s.memRead a = .ok (Memory.read s.rom a) := by
  simp [State.memRead, h]

theorem memRead_outside {s : State} {a : Nat} (h : s.romSize.val ≤ a) :
    s.memRead a = .error (.romOutOfRange s.trace) := by
  simp [State.memRead, Nat.not_lt.mpr h]

/-- A `MemRead` answers the byte below `ROM_SIZE` and the refusal at or above it, nothing else. -/
theorem memRead_cases (s : State) (a : Nat) :
    (a < s.romSize.val ∧ s.memRead a = .ok (Memory.read s.rom a)) ∨
      (s.romSize.val ≤ a ∧ s.memRead a = .error (.romOutOfRange s.trace)) := by
  by_cases h : a < s.romSize.val
  · exact .inl ⟨h, memRead_inside h⟩
  · exact .inr ⟨Nat.not_lt.mp h, memRead_outside (Nat.not_lt.mp h)⟩

theorem fetchThen_inside {s : State} (use : Byte → State → Result) (h : s.pp.toNat < s.romSize.val) :
    fetchThen s use = use (Memory.read s.rom s.pp.toNat) { s with pp := s.pp + 1 } := by
  simp only [fetchThen, memRead_inside h]

theorem fetchThen_outside {s : State} (use : Byte → State → Result) (h : s.romSize.val ≤ s.pp.toNat) :
    fetchThen s use = .refused (.romOutOfRange s.trace) := by
  simp only [fetchThen, memRead_outside h]

/-- A fetch hands the byte at `PP` to its use with `PP` advanced, or is refused with the trace as it stands (R61, R62). -/
theorem fetchThen_cases (s : State) (use : Byte → State → Result) :
    (s.pp.toNat < s.romSize.val ∧
        fetchThen s use = use (Memory.read s.rom s.pp.toNat) { s with pp := s.pp + 1 }) ∨
      (s.romSize.val ≤ s.pp.toNat ∧ fetchThen s use = .refused (.romOutOfRange s.trace)) := by
  by_cases h : s.pp.toNat < s.romSize.val
  · exact .inl ⟨h, fetchThen_inside use h⟩
  · exact .inr ⟨Nat.not_lt.mp h, fetchThen_outside use (Nat.not_lt.mp h)⟩

/-- `PP + 1` does not wrap where a byte was read (R22). -/
theorem pp_succ_toNat {s : State} (h : s.pp.toNat < s.romSize.val) : (s.pp + 1).toNat = s.pp.toNat + 1 := by
  have := s.romSize.isLt
  rw [BitVec.toNat_add]
  exact Nat.mod_eq_of_lt (by simp; omega)

/-- The fields of a record in the ROM have the length its argsByte gives. -/
theorem recordIn_len (m : Memory) (a : Nat) : (recordIn m a).len = recordLenAt m a := by
  simp only [RawRecord.len, recordIn, recordLenAt, List.length_map, List.length_range]
  cases hasDelay (argsByteAt m a) <;> simp

/-- The argsByte of a record's fields is the one in the ROM. -/
theorem recordIn_argsByte (m : Memory) (a : Nat) : (recordIn m a).argsByte = argsByteAt m a := by
  have key : ∀ ab : Byte, mkArgsByte (hasDelay ab) (argCount ab) = ab := by decide
  have hk : BitVec.ofNat 7 (recordIn m a).args.length = argCount (argsByteAt m a) := by
    simp [recordIn]
  have hd : (recordIn m a).delay.isSome = hasDelay (argsByteAt m a) := by
    simp only [recordIn]
    cases hasDelay (argsByteAt m a) <;> rfl
  rw [RawRecord.argsByte, hk, hd, key]

end Sys2Proof.Laws
end

