-- ==== Sys2Proof/Laws/Ops.lean ====
section
/-! SUPPORT. One equation per shared operation: everything it changes, as one update of the state it is given. -/

namespace Sys2Proof.Laws

open Sys2Proof Sys2Proof.Machine

theorem emit_nil (s : State) : emit [] s = s := by simp [emit]

theorem emit_append (es fs : List Event) (s : State) : emit (es ++ fs) s = emit fs (emit es s) := by
  simp [emit, List.foldl_append]

/-! ### Logical writes -/

/-- The pin latches after a logical write with DC at level `dc` (R124). -/
def pinsAfterWrite (dc : Bool) (pin : PinBits) : PinBits := { dc := dc, cs := true, rst := pin.rst }

@[simp] theorem pinsAfterWrite_rst (dc : Bool) (pin : PinBits) : (pinsAfterWrite dc pin).rst = pin.rst := rfl
@[simp] theorem pinsAfterWrite_dc (dc : Bool) (pin : PinBits) : (pinsAfterWrite dc pin).dc = dc := rfl
@[simp] theorem pinsAfterWrite_cs (dc : Bool) (pin : PinBits) : (pinsAfterWrite dc pin).cs = true := rfl
@[simp] theorem pinsAfterWrite_twice (d e : Bool) (pin : PinBits) :
    pinsAfterWrite d (pinsAfterWrite e pin) = pinsAfterWrite d pin := rfl

theorem writeCommand_eq (b : Byte) (s : State) :
    writeCommand b s = { s with pin := pinsAfterWrite false s.pin, txn := false, trace := s.trace ++ wc b } := rfl

theorem writeData_eq (b : Byte) (s : State) :
    writeData b s = { s with pin := pinsAfterWrite true s.pin, txn := false, trace := s.trace ++ wd b } := rfl

theorem sendData_eq (b : Byte) (s : State) :
    sendData b s =
      { s with dat := b, pin := pinsAfterWrite true s.pin, txn := false, trace := s.trace ++ wd b } := rfl

/-- The latches after a run of data writes: as before when there is none. -/
def pinsAfterData (args : List Byte) (pin : PinBits) : PinBits := if args = [] then pin else pinsAfterWrite true pin

theorem sendAll_cons (b : Byte) (bs : List Byte) (s : State) : sendAll (b :: bs) s = sendAll bs (sendData b s) := rfl

theorem sendAll_eq (bs : List Byte) (s : State) :
    sendAll bs s =
      { s with
        dat := bs.getLast?.getD s.dat
        pin := pinsAfterData bs s.pin
        txn := if bs = [] then s.txn else false
        trace := s.trace ++ bs.flatMap wd } := by
  induction bs generalizing s with
  | nil => simp [sendAll, pinsAfterData]
  | cons b bs ih =>
    rw [sendAll_cons, ih, sendData_eq]
    cases bs with
    | nil => simp [pinsAfterData]
    | cons c cs => simp [pinsAfterData, List.getLast?_cons]

/-! ### The delay directive and the record rule -/

theorem delayDirective_eq (d : Byte) (s : State) :
    delayDirective d s = { s with dly := d, ms := delayMs d, trace := s.trace ++ [.delay (delayMs d).toNat] } := rfl

/-- The events of a record's optional delay (R141). -/
def delayTrace (delay : Option Byte) : List Event :=
  match delay with
  | none => []
  | some d => [.delay (delayMs d).toNat]

theorem recordTrace_eq (r : RawRecord) : recordTrace r = wc r.opcode ++ r.args.flatMap wd ++ delayTrace r.delay := by
  cases r with
  | mk o as d => cases d <;> rfl

theorem delayTail_eq (delay : Option Byte) (s : State) :
    delayTail delay s =
      { s with
        dly := delay.getD s.dly
        ms := (delay.map delayMs).getD s.ms
        trace := s.trace ++ delayTrace delay } := by
  cases delay with
  | none => simp [delayTail, delayTrace]
  | some d => rfl

/-- The record rule as one update (R142). -/
theorem runRecord_eq (r : RawRecord) (s : State) :
    runRecord r s =
      { s with
        opc := r.opcode
        args := r.argsByte
        dlyf := r.delay.isSome
        argc := 0
        dat := r.args.getLast?.getD s.dat
        dly := r.delay.getD s.dly
        ms := (r.delay.map delayMs).getD s.ms
        pp := s.pp + BitVec.ofNat 16 r.len
        cnt := guardedDec s.cnt
        pin := pinsAfterWrite (!r.args.isEmpty) s.pin
        txn := false
        trace := s.trace ++ recordTrace r } := by
  obtain ⟨o, as, d⟩ := r
  simp only [runRecord, writeCommand_eq, sendAll_eq, delayTail_eq, recordTrace_eq]
  cases as with
  | nil => simp [pinsAfterData]
  | cons a as => simp [pinsAfterData]

/-! ### The pixel stream -/

theorem foldl_pixelRun {α : Type} (f : α → Event → α) (hf : ∀ a b, f a (.xfer b) = a) (hi lo : Byte) (n : Nat) (a : α) :
    (pixelRun hi lo n).foldl f a = a := by
  induction n with
  | zero => rfl
  | succ n ih =>
    rw [pixelRun, List.replicate_succ, List.flatten_cons, List.foldl_append]
    simpa [pixelPair, hf, pixelRun] using ih

theorem pixelRun_succ (hi lo : Byte) (n : Nat) : pixelRun hi lo (n + 1) = pixelPair hi lo ++ pixelRun hi lo n := rfl

theorem pixelRun_length (hi lo : Byte) (n : Nat) : (pixelRun hi lo n).length = 2 * n := by
  induction n with
  | zero => rfl
  | succ n ih => simp [pixelRun_succ, pixelPair, ih]; omega

/-- The stream as one update (R126). -/
theorem streamPixels_eq (hi lo : Byte) (n : Word) (s : State) :
    streamPixels hi lo n s =
      { s with
        pixcnt := 0
        pin := pinsAfterWrite true s.pin
        txn := false
        trace := s.trace ++ streamTrace hi lo n.toNat } := by
  have hp : (streamTrace hi lo n.toNat).foldl latchPin s.pin = pinsAfterWrite true s.pin := by
    rw [streamTrace, List.foldl_append, List.foldl_append, foldl_pixelRun latchPin (fun _ _ => rfl)]
    rfl
  have hd : (streamTrace hi lo n.toNat).foldl latchDir s.dir = s.dir := by
    rw [streamTrace, List.foldl_append, List.foldl_append, foldl_pixelRun latchDir (fun _ _ => rfl)]
    rfl
  have ht : (streamTrace hi lo n.toNat).foldl latchTxn s.txn = false := by
    rw [streamTrace, List.foldl_append, List.foldl_append, foldl_pixelRun latchTxn (fun _ _ => rfl)]
    rfl
  simp only [streamPixels, emit, hp, hd, ht]

/-! ### Window, reset pulse, INIT's steps -/

/-- The trace of SETADDRWINDOW (R190). -/
def windowTrace (x0 y0 x1 y1 : Word) : List Event :=
  wc 0x2A ++ wd (hi8 x0) ++ wd (lo8 x0) ++ wd (hi8 x1) ++ wd (lo8 x1) ++
    wc 0x2B ++ wd (hi8 y0) ++ wd (lo8 y0) ++ wd (hi8 y1) ++ wd (lo8 y1) ++ wc 0x2C

/-- SETADDRWINDOW as one update (R190). -/
theorem setAddrWindow_eq (x0 y0 x1 y1 : Word) (s : State) :
    setAddrWindow x0 y0 x1 y1 s =
      { s with
        dat := lo8 y1
        pin := pinsAfterWrite false s.pin
        txn := false
        trace := s.trace ++ windowTrace x0 y0 x1 y1 } := by
  simp [setAddrWindow, windowWrites, doWrite, writeCommand_eq, sendData_eq, windowTrace]

/-- RESETPULSE as one update (R220). -/
theorem resetPulse_eq (s : State) :
    resetPulse s =
      { s with
        ms := 50
        pin := { s.pin with rst := true }
        trace := s.trace ++ [.pin .rst true, .delay 50, .pin .rst false, .delay 50, .pin .rst true, .delay 50] } := rfl

/-- The opening of INIT as one update (R222). -/
theorem initPins_eq (s : State) :
    initPins s =
      { s with
        phase := .resetting
        dir := { dc := true, cs := true, rst := true }
        buscfg := busConstants
        trace := s.trace ++ pinDirs } := rfl

/-! ### Acceptance -/

theorem acceptInit_eq_none {s : State} :
    acceptInit s = none ↔ s.busy = false ∧ (s.phase = .unpowered ∨ s.phase = .ready) := by
  unfold acceptInit
  cases s.busy <;> cases s.phase <;> simp

theorem acceptFill_eq_none {s : State} : acceptFill s = none ↔ s.busy = false ∧ s.phase = .ready := by
  unfold acceptFill
  cases s.busy <;> cases s.phase <;> simp

theorem acceptInit_eq_some {s : State} {r : Refusal} (h : acceptInit s = some r) : r = .notReady := by
  unfold acceptInit at h
  cases hb : s.busy <;> cases hp : s.phase <;> simp [hb, hp] at h <;> exact h.symm

theorem acceptFill_eq_some {s : State} {r : Refusal} (h : acceptFill s = some r) : r = .notReady := by
  unfold acceptFill at h
  cases hb : s.busy <;> cases hp : s.phase <;> simp [hb, hp] at h <;> exact h.symm

end Sys2Proof.Laws
end

