-- ==== Sys2Proof/Laws/Program.lean ====
section
/-! SUPPORT. RUNPROG: the loop over the records of a program as one fold of the record rule, where it is refused, and
what it changes. -/

namespace Sys2Proof.Laws

open Sys2Proof Sys2Proof.Machine

/-- The records of a list run one after the other. -/
def runAll (rs : List RawRecord) (s : State) : State := rs.foldl (fun t r => runRecord r t) s

@[simp] theorem runAll_nil (s : State) : runAll [] s = s := rfl
@[simp] theorem runAll_cons (r : RawRecord) (rs : List RawRecord) (s : State) :
    runAll (r :: rs) s = runAll rs (runRecord r s) := rfl

@[simp] theorem runRecord_rom (r : RawRecord) (s : State) : (runRecord r s).rom = s.rom := by rw [runRecord_eq]
@[simp] theorem runRecord_romSize (r : RawRecord) (s : State) : (runRecord r s).romSize = s.romSize := by
  rw [runRecord_eq]
@[simp] theorem runRecord_pp (r : RawRecord) (s : State) :
    (runRecord r s).pp = s.pp + BitVec.ofNat 16 r.len := by rw [runRecord_eq]
@[simp] theorem runRecord_cnt (r : RawRecord) (s : State) : (runRecord r s).cnt = guardedDec s.cnt := by
  rw [runRecord_eq]
@[simp] theorem runRecord_trace (r : RawRecord) (s : State) : (runRecord r s).trace = s.trace ++ recordTrace r := by
  rw [runRecord_eq]

/-! ### Addresses -/

theorem recordLenAt_pos (m : Memory) (a : Nat) : 2 ≤ recordLenAt m a := by
  unfold recordLenAt; omega

theorem recordLenAt_le (m : Memory) (a : Nat) : recordLenAt m a ≤ 130 := by
  have h := (argCount (argsByteAt m a)).isLt
  have := Bool.toNat_le (hasDelay (argsByteAt m a))
  unfold recordLenAt; omega

theorem offsetAfter_bounds {m : Memory} {limit n a e : Nat} (h : offsetAfter m limit n a = some e) :
    a + 2 * n ≤ e ∧ e ≤ a + 130 * n := by
  induction n generalizing a with
  | zero => cases h; simp
  | succ n ih =>
    simp only [offsetAfter] at h
    split at h
    · have := ih h
      have := recordLenAt_pos m a
      have := recordLenAt_le m a
      omega
    · cases h

theorem offsetAfter_sum {m : Memory} {limit n a e : Nat} (h : offsetAfter m limit n a = some e) :
    e = a + ((recordsFrom m n a).map RawRecord.len).sum := by
  induction n generalizing a with
  | zero => cases h; simp [recordsFrom]
  | succ n ih =>
    simp only [offsetAfter] at h
    split at h
    · have := ih h
      simp [recordsFrom, recordIn_len]
      omega
    · cases h

/-- A limit beyond the end makes no difference. -/
theorem offsetAfter_limit {m : Memory} {limit limit' n a e : Nat} (h : offsetAfter m limit n a = some e)
    (hl : e ≤ limit') : offsetAfter m limit' n a = some e := by
  induction n generalizing a with
  | zero => exact h
  | succ n ih =>
    simp only [offsetAfter] at h ⊢
    split at h
    · have hb := offsetAfter_bounds h
      have := recordLenAt_pos m a
      rw [if_pos (by omega)]
      exact ih h
    · cases h

theorem guardedDec_toNat {n : Nat} (v : BitVec n) : (guardedDec v).toNat = v.toNat - 1 := by
  unfold guardedDec
  split
  · next h => simp [h]
  · next h =>
    have h0 : v.toNat ≠ 0 := fun h' => h (BitVec.eq_of_toNat_eq (by simpa using h'))
    have := v.isLt
    have hn : 1 % 2 ^ n = 1 := Nat.mod_eq_of_lt (by
      rcases Nat.eq_zero_or_pos n with rfl | hp
      · simp at this; omega
      · exact Nat.one_lt_two_pow (by omega))
    rw [BitVec.toNat_sub, BitVec.ofNat_eq_ofNat, BitVec.toNat_ofNat, hn]
    rw [show 2 ^ n - 1 + v.toNat = (v.toNat - 1) + 2 ^ n by omega, Nat.add_mod_right, Nat.mod_eq_of_lt (by omega)]

/-! ### One record read from the ROM -/

/-- The bytes at `n` consecutive addresses. -/
def bytesAt (m : Memory) (a n : Nat) : List Byte := (List.range n).map fun i => Memory.read m (a + i)

@[simp] theorem bytesAt_zero (m : Memory) (a : Nat) : bytesAt m a 0 = [] := rfl

theorem bytesAt_succ (m : Memory) (a n : Nat) : bytesAt m a (n + 1) = Memory.read m a :: bytesAt m (a + 1) n := by
  simp only [bytesAt, List.range_succ_eq_map, List.map_cons, List.map_map, Nat.add_zero]
  congr 2
  funext i
  simp [Nat.add_comm, Nat.add_left_comm, Nat.succ_eq_add_one]

theorem bytesAt_length (m : Memory) (a n : Nat) : (bytesAt m a n).length = n := by simp [bytesAt]

theorem bytesAt_take (m : Memory) (a n k : Nat) (h : k ≤ n) : (bytesAt m a n).take k = bytesAt m a k := by
  simp [bytesAt, ← List.map_take, List.take_range, Nat.min_eq_left h]

theorem recordIn_args (m : Memory) (a : Nat) :
    (recordIn m a).args = bytesAt m (a + 2) (argCount (argsByteAt m a)).toNat := rfl

theorem recordIn_opcode (m : Memory) (a : Nat) : (recordIn m a).opcode = Memory.read m a := rfl

/-- The latches after a command write and a run of data writes. -/
theorem pinsAfterData_write (bs : List Byte) (pin : PinBits) :
    pinsAfterData bs (pinsAfterWrite false pin) = pinsAfterWrite (!bs.isEmpty) pin := by
  cases bs <;> simp [pinsAfterData]

theorem pp_advance (pp : Word) (n : Nat) : pp + 1 + 1 + BitVec.ofNat 16 n = pp + BitVec.ofNat 16 (2 + n) := by
  rw [BitVec.ofNat_add, ← BitVec.add_assoc, BitVec.add_assoc pp 1 1]
  rfl

theorem recordIn_delay (m : Memory) (a : Nat) :
    (recordIn m a).delay =
      if hasDelay (argsByteAt m a) then some (Memory.read m (a + 2 + (argCount (argsByteAt m a)).toNat)) else none := rfl

/-- The argument loop inside the ROM: the data writes in order, `PP` past them, `ARGC` down by their number. -/
theorem runArgs_inside {n : Nat} {s : State} (h : s.pp.toNat + n ≤ s.romSize.val) :
    ∃ c, c.toNat = s.argc.toNat - n ∧
      runArgs n s =
        .next { sendAll (bytesAt s.rom s.pp.toNat n) s with pp := s.pp + BitVec.ofNat 16 n, argc := c } := by
  induction n generalizing s with
  | zero => exact ⟨s.argc, by simp, by simp [runArgs, sendAll]⟩
  | succ n ih =>
    have hp : s.pp.toNat < s.romSize.val := by omega
    have hs := pp_succ_toNat hp
    obtain ⟨c, hc, e⟩ := ih (s := { sendData (Memory.read s.rom s.pp.toNat) { s with pp := s.pp + 1 } with
      argc := guardedDec s.argc }) (by change (s.pp + 1).toNat + n ≤ s.romSize.val; omega)
    change c.toNat = (guardedDec s.argc).toNat - n at hc
    refine ⟨c, by rw [hc, guardedDec_toNat]; omega, ?_⟩
    rw [runArgs, fetchThen_inside _ hp]
    refine e.trans ?_
    change Host.Outcome.next { sendAll (bytesAt s.rom (s.pp + 1).toNat n) _ with
      pp := s.pp + 1 + BitVec.ofNat 16 n, argc := c } = _
    rw [hs, bytesAt_succ, sendAll_cons, show s.pp + 1 + BitVec.ofNat 16 n = s.pp + BitVec.ofNat 16 (n + 1) by
      rw [Nat.add_comm n 1, BitVec.ofNat_add, BitVec.add_assoc]; rfl]
    simp only [sendAll_eq, sendData_eq]

/-- The argument loop past the ROM: the arguments below `ROM_SIZE` are written, then the read is refused (R61, R62). -/
theorem runArgs_outside {n : Nat} {s : State} (h : s.romSize.val < s.pp.toNat + n) (hn : n ≠ 0) :
    runArgs n s =
      .refused (.romOutOfRange (s.trace ++ (bytesAt s.rom s.pp.toNat (s.romSize.val - s.pp.toNat)).flatMap wd)) := by
  induction n generalizing s with
  | zero => exact absurd rfl hn
  | succ n ih =>
    rw [runArgs]
    rcases fetchThen_cases s _ with ⟨hp, e⟩ | ⟨hp, e⟩ <;> rw [e]
    · have hs := pp_succ_toNat hp
      have := ih (s := { sendData (Memory.read s.rom s.pp.toNat) { s with pp := s.pp + 1 } with
        argc := guardedDec s.argc }) (by change s.romSize.val < (s.pp + 1).toNat + n; omega) (by omega)
      refine this.trans ?_
      change Host.Outcome.refused (Refusal.romOutOfRange ((s.trace ++ wd _) ++
        (bytesAt s.rom (s.pp + 1).toNat (s.romSize.val - (s.pp + 1).toNat)).flatMap wd)) = _
      rw [hs, show s.romSize.val - s.pp.toNat = s.romSize.val - (s.pp.toNat + 1) + 1 by omega, bytesAt_succ,
        List.flatMap_cons, List.append_assoc]
    · rw [Nat.sub_eq_zero_of_le hp]
      simp

/-- The state of a record's turn after the argsByte (R140, steps 1 and 2). -/
def headerDone (s : State) : State :=
  { s with
    pp := s.pp + 1 + 1
    opc := Memory.read s.rom s.pp.toNat
    args := argsByteAt s.rom s.pp.toNat
    dlyf := hasDelay (argsByteAt s.rom s.pp.toNat)
    argc := argCount (argsByteAt s.rom s.pp.toNat)
    pin := pinsAfterWrite false s.pin
    txn := false
    trace := s.trace ++ wc (Memory.read s.rom s.pp.toNat) }

/-- A record's turn, from its opcode and argsByte on; short of these it is refused with the command write emitted or with
nothing (R61). -/
theorem fetchRecord_cases (s : State) :
    (s.pp.toNat + 1 < s.romSize.val ∧
        fetchRecord s =
          andThen (runArgs (argCount (argsByteAt s.rom s.pp.toNat)).toNat (headerDone s)) fun v =>
            mapNext (runDelay v) fun w => { w with cnt := guardedDec w.cnt }) ∨
      (s.pp.toNat + 1 = s.romSize.val ∧
        fetchRecord s = .refused (.romOutOfRange (s.trace ++ wc (Memory.read s.rom s.pp.toNat)))) ∨
      (s.romSize.val ≤ s.pp.toNat ∧ fetchRecord s = .refused (.romOutOfRange s.trace)) := by
  unfold fetchRecord
  rcases fetchThen_cases s _ with ⟨h0, e0⟩ | ⟨h0, e0⟩ <;> rw [e0]
  · have hs := pp_succ_toNat h0
    generalize hu : writeCommand (Memory.read s.rom s.pp.toNat)
      { s with pp := s.pp + 1, opc := Memory.read s.rom s.pp.toNat } = u
    rcases fetchThen_cases u _ with ⟨h1, e1⟩ | ⟨h1, e1⟩ <;> rw [e1] <;> subst hu
    · change (s.pp + 1).toNat < s.romSize.val at h1
      refine .inl ⟨by omega, ?_⟩
      change andThen (runArgs (argCount (Memory.read s.rom (s.pp + 1).toNat)).toNat
        { s with
          pp := s.pp + 1 + 1
          opc := Memory.read s.rom s.pp.toNat
          args := Memory.read s.rom (s.pp + 1).toNat
          dlyf := hasDelay (Memory.read s.rom (s.pp + 1).toNat)
          argc := argCount (Memory.read s.rom (s.pp + 1).toNat)
          pin := pinsAfterWrite false s.pin
          txn := false
          trace := s.trace ++ wc (Memory.read s.rom s.pp.toNat) }) _ = _
      rw [hs]
      rfl
    · change s.romSize.val ≤ (s.pp + 1).toNat at h1
      exact .inr (.inl ⟨by omega, rfl⟩)
  · exact .inr (.inr ⟨h0, rfl⟩)

theorem headerDone_pp {s : State} (h : s.pp.toNat + 1 < s.romSize.val) :
    (headerDone s).pp.toNat = s.pp.toNat + 2 := by
  have hs := pp_succ_toNat (s := s) (by omega)
  have := pp_succ_toNat (s := { s with pp := s.pp + 1 }) (by change (s.pp + 1).toNat < s.romSize.val; omega)
  change (s.pp + 1 + 1).toNat = s.pp.toNat + 2
  change (s.pp + 1 + 1).toNat = (s.pp + 1).toNat + 1 at this
  omega

/-- The record loop's turn inside the ROM is the record rule on the record at `PP` (R140, R142). -/
theorem fetchRecord_inside {s : State} (h : s.pp.toNat + recordLenAt s.rom s.pp.toNat ≤ s.romSize.val) :
    fetchRecord s = .next (runRecord (recordIn s.rom s.pp.toNat) s) := by
  have hlen : recordLenAt s.rom s.pp.toNat =
    2 + (argCount (argsByteAt s.rom s.pp.toNat)).toNat + (hasDelay (argsByteAt s.rom s.pp.toNat)).toNat := rfl
  have hsz := s.romSize.isLt
  rcases fetchRecord_cases s with ⟨h1, e⟩ | ⟨h1, _⟩ | ⟨h1, _⟩
  · have hpp := headerDone_pp h1
    have hr : (headerDone s).rom = s.rom := rfl
    obtain ⟨c, hc, ea⟩ := runArgs_inside (s := headerDone s) (n := (argCount (argsByteAt s.rom s.pp.toNat)).toNat)
      (by rw [hpp]; change _ ≤ s.romSize.val; omega)
    have hc0 : c = 0 := BitVec.eq_of_toNat_eq (by rw [hc]; change (argCount _).toNat - _ = 0; omega)
    rw [e, ea, hpp, hr, hc0, ← recordIn_args]
    have hd := recordIn_delay s.rom s.pp.toNat
    rw [runRecord_eq, recordIn_argsByte, recordTrace_eq, recordIn_len, hlen]
    simp only [andThen, sendAll_eq, runDelay, headerDone]
    cases hf : hasDelay (argsByteAt s.rom s.pp.toNat) with
    | false =>
      rw [hf] at hd
      rw [hd]
      simp only [Bool.false_eq_true, if_false, mapNext, andThen, delayTrace, pinsAfterData_write, recordIn_opcode,
        Bool.toNat_false, ite_self, Option.isSome_none, Option.getD_none, Option.map_none, List.append_nil,
        List.append_assoc, Nat.add_zero, pp_advance]
    | true =>
      rw [hf] at hd hlen
      rw [hd]
      have hv : (s.pp + 1 + 1 + BitVec.ofNat 16 (argCount (argsByteAt s.rom s.pp.toNat)).toNat).toNat =
          s.pp.toNat + 2 + (argCount (argsByteAt s.rom s.pp.toNat)).toNat := by
        have hpp' : (s.pp + 1 + 1).toNat = s.pp.toNat + 2 := hpp
        simp only [Bool.toNat_true] at hlen
        rw [BitVec.toNat_add, hpp', BitVec.toNat_ofNat]
        omega
      simp only [if_true, mapNext]
      rw [fetchThen_inside _ (by
        change BitVec.toNat _ < s.romSize.val
        rw [hv]
        simp only [Bool.toNat_true] at hlen
        omega)]
      simp only [hv, andThen, delayDirective_eq, delayTrace, pinsAfterData_write, recordIn_opcode, Bool.toNat_true,
        ite_self, Option.isSome_some, Option.getD_some, Option.map_some, List.append_assoc]
      rw [pp_advance, BitVec.ofNat_add (2 + _) 1, ← BitVec.add_assoc]
      rfl
  all_goals omega

/-- The record loop's turn past the ROM emits what comes before the refused read (R61, R62). -/
theorem fetchRecord_outside {s : State} (h : s.romSize.val < s.pp.toNat + recordLenAt s.rom s.pp.toNat) :
    fetchRecord s =
      .refused (.romOutOfRange (s.trace ++ cutRecordTrace s.rom s.romSize.val s.pp.toNat)) := by
  have hlen : recordLenAt s.rom s.pp.toNat =
    2 + (argCount (argsByteAt s.rom s.pp.toNat)).toNat + (hasDelay (argsByteAt s.rom s.pp.toNat)).toNat := rfl
  have hbool := Bool.toNat_le (hasDelay (argsByteAt s.rom s.pp.toNat))
  have hsz := s.romSize.isLt
  rcases fetchRecord_cases s with ⟨h1, e⟩ | ⟨h1, e⟩ | ⟨h1, e⟩ <;> rw [e, cutRecordTrace]
  · have hpp := headerDone_pp h1
    have hr : (headerDone s).rom = s.rom := rfl
    have ht : (headerDone s).trace = s.trace ++ wc (recordIn s.rom s.pp.toNat).opcode := rfl
    rw [if_pos (by omega), recordIn_args]
    by_cases ha : s.pp.toNat + 2 + (argCount (argsByteAt s.rom s.pp.toNat)).toNat ≤ s.romSize.val
    · obtain ⟨c, _, ea⟩ := runArgs_inside (s := headerDone s) (n := (argCount (argsByteAt s.rom s.pp.toNat)).toNat)
        (by rw [hpp]; exact ha)
      have hf : hasDelay (argsByteAt s.rom s.pp.toNat) = true := by
        cases hf : hasDelay (argsByteAt s.rom s.pp.toNat) with
        | true => rfl
        | false => rw [hf] at hlen; simp at hlen; omega
      rw [hf] at hlen
      simp only [Bool.toNat_true] at hlen
      rw [ea, List.take_of_length_le (by rw [bytesAt_length]; omega), hpp, hr]
      have hv : ((headerDone s).pp + BitVec.ofNat 16 (argCount (argsByteAt s.rom s.pp.toNat)).toNat).toNat =
          s.pp.toNat + 2 + (argCount (argsByteAt s.rom s.pp.toNat)).toNat := by
        rw [BitVec.toNat_add, hpp, BitVec.toNat_ofNat]
        omega
      have hf' : (headerDone s).dlyf = true := hf
      have hsize : (headerDone s).romSize = s.romSize := rfl
      simp only [andThen, runDelay, mapNext, sendAll_eq, hf', if_true]
      rw [fetchThen_outside _ (by
        change (headerDone s).romSize.val ≤ BitVec.toNat _
        rw [hv, hsize]
        omega)]
      simp only [ht, List.append_assoc]
    · rw [runArgs_outside (by rw [hpp]; change s.romSize.val < _; omega) (by omega), hpp, hr, ht,
        bytesAt_take _ _ _ _ (by omega), List.append_assoc]
      rfl
  · rw [if_pos (by omega), show s.romSize.val - (s.pp.toNat + 2) = 0 by omega]
    simp [recordIn]
  · rw [if_neg (by omega), List.append_nil]

/-! ### The record loop -/

theorem runRecord_pp_toNat {s : State} (h : s.pp.toNat + recordLenAt s.rom s.pp.toNat ≤ s.romSize.val) :
    (runRecord (recordIn s.rom s.pp.toNat) s).pp.toNat = s.pp.toNat + recordLenAt s.rom s.pp.toNat := by
  have := s.romSize.isLt
  rw [runRecord_pp, recordIn_len, BitVec.toNat_add, BitVec.toNat_ofNat]
  omega

/-- While the records lie inside the ROM the loop is the fold of the record rule (R140, R142). -/
theorem runRecords_inside {n : Nat} {s : State} {limit e : Nat}
    (h : offsetAfter s.rom limit n s.pp.toNat = some e) (he : e ≤ s.romSize.val) :
    runRecords n s = .next (runAll (recordsFrom s.rom n s.pp.toNat) s) := by
  induction n generalizing s with
  | zero => rfl
  | succ n ih =>
    simp only [offsetAfter] at h
    split at h
    · have hb := (offsetAfter_bounds h).1
      have hin : s.pp.toNat + recordLenAt s.rom s.pp.toNat ≤ s.romSize.val := by omega
      rw [runRecords, fetchRecord_inside hin]
      have hpp := runRecord_pp_toNat hin
      have ih' := ih (s := runRecord (recordIn s.rom s.pp.toNat) s)
        (by rw [hpp, runRecord_rom]; exact h) (by rw [runRecord_romSize]; exact he)
      rw [hpp, runRecord_rom] at ih'
      exact ih'
    · cases h

/-- Otherwise a read reaches `ROM_SIZE`, after the events that come before it (R61, R62). -/
theorem runRecords_outside {n : Nat} {s : State}
    (h : ∀ e, offsetAfter s.rom s.romSize.val n s.pp.toNat = some e → s.romSize.val < e) (hn : n ≠ 0) :
    runRecords n s = .refused (.romOutOfRange (s.trace ++ cutTrace s.rom s.romSize.val n s.pp.toNat)) := by
  induction n generalizing s with
  | zero => exact absurd rfl hn
  | succ n ih =>
    have hl := recordLenAt_pos s.rom s.pp.toNat
    rw [cutTrace, runRecords]
    by_cases hin : s.pp.toNat + recordLenAt s.rom s.pp.toNat ≤ s.romSize.val
    · rw [fetchRecord_inside hin, if_pos hin]
      have hpp := runRecord_pp_toNat hin
      cases n with
      | zero =>
        have := h (s.pp.toNat + recordLenAt s.rom s.pp.toNat) (by
          simp only [offsetAfter]; rw [if_pos (by omega)])
        omega
      | succ n =>
        have ih' := ih (s := runRecord (recordIn s.rom s.pp.toNat) s) (by
          intro e hoff
          rw [hpp, runRecord_rom, runRecord_romSize] at hoff
          rw [runRecord_romSize]
          refine h e ?_
          rw [offsetAfter, if_pos (by omega)]
          exact hoff) (by omega)
        rw [hpp, runRecord_rom, runRecord_romSize, runRecord_trace, List.append_assoc] at ih'
        exact ih'
    · rw [fetchRecord_outside (by omega), if_neg hin]
      rfl

/-- The registers of the interpreter and the latches are all that records write. -/
def InterpreterOnly (s t : State) : Prop :=
  t = { s with
        pp := t.pp, cnt := t.cnt, opc := t.opc, args := t.args, dlyf := t.dlyf, argc := t.argc, dat := t.dat,
        dly := t.dly, ms := t.ms, pin := t.pin, txn := t.txn, trace := t.trace } ∧
    t.pin.rst = s.pin.rst ∧ (s.txn = false → t.txn = false)

theorem InterpreterOnly.refl (s : State) : InterpreterOnly s s := ⟨rfl, rfl, id⟩

theorem InterpreterOnly.trans {s t u : State} (h : InterpreterOnly s t) (k : InterpreterOnly t u) :
    InterpreterOnly s u := by
  obtain ⟨h1, h2, h3⟩ := h
  obtain ⟨k1, k2, k3⟩ := k
  refine ⟨?_, k2.trans h2, fun hs => k3 (h3 hs)⟩
  generalize hp : u.pin = up at *
  rw [k1, h1]

theorem runRecord_interpreterOnly (r : RawRecord) (s : State) : InterpreterOnly s (runRecord r s) := by
  rw [runRecord_eq]; exact ⟨rfl, rfl, fun _ => rfl⟩

theorem runAll_interpreterOnly (rs : List RawRecord) (s : State) : InterpreterOnly s (runAll rs s) := by
  induction rs generalizing s with
  | nil => exact .refl s
  | cons r rs ih => exact (runRecord_interpreterOnly r s).trans (ih _)

theorem runAll_trace (rs : List RawRecord) (s : State) : (runAll rs s).trace = s.trace ++ rs.flatMap recordTrace := by
  induction rs generalizing s with
  | nil => simp
  | cons r rs ih => simp [ih]

theorem runAll_pp (rs : List RawRecord) (s : State) :
    (runAll rs s).pp = s.pp + BitVec.ofNat 16 (rs.map RawRecord.len).sum := by
  induction rs generalizing s with
  | nil => simp
  | cons r rs ih => simp [ih, BitVec.ofNat_add, BitVec.add_assoc]

theorem runAll_cnt (rs : List RawRecord) (s : State) : (runAll rs s).cnt.toNat = s.cnt.toNat - rs.length := by
  induction rs generalizing s with
  | nil => simp
  | cons r rs ih => simp [ih, guardedDec_toNat]; omega

@[simp] theorem recordsFrom_length (m : Memory) (n a : Nat) : (recordsFrom m n a).length = n := by
  induction n generalizing a with
  | zero => rfl
  | succ n ih => simp [recordsFrom, ih]

/-- Well-formedness, taken apart (R146). -/
theorem wellFormed_iff {s : State} {base len : Nat} :
    wellFormed s base len = true ↔
      base + len ≤ s.romSize.val ∧ base < base + len ∧
        offsetAfter s.rom (base + len) (Memory.read s.rom base).toNat (base + 1) = some (base + len) := by
  simp only [wellFormed, decodedLength, Bool.and_eq_true, decide_eq_true_eq, beq_iff_eq]
  constructor
  · rintro ⟨h1, h2⟩
    split at h2
    · next hlt =>
      cases ho : offsetAfter s.rom (base + len) (Memory.read s.rom base).toNat (base + 1) with
      | none => rw [ho] at h2; cases h2
      | some e =>
        rw [ho] at h2
        have := (offsetAfter_bounds ho).1
        injection h2 with h2
        exact ⟨h1, hlt, by congr 1; omega⟩
    · cases h2
  · rintro ⟨h1, h2, h3⟩
    refine ⟨h1, ?_⟩
    rw [if_pos h2, h3]
    simp

/-- RUNPROG on a well-formed program: the count byte, then the fold of the record rule over the program's records. -/
theorem runProgram_wellFormed {base : Word} {len : Nat} {s : State} (h : wellFormed s base.toNat len = true) :
    runProgram base s =
      .next (runAll (programRecords s.rom base.toNat) { s with pp := base + 1, cnt := Memory.read s.rom base.toNat }) := by
  obtain ⟨h1, h2, h3⟩ := wellFormed_iff.mp h
  have hsz := s.romSize.isLt
  have hpp : (base + 1).toNat = base.toNat + 1 := by
    rw [BitVec.toNat_add]; simp; omega
  rw [runProgram, fetchThen_inside _ (by change base.toNat < s.romSize.val; omega)]
  have := runRecords_inside (s := { s with pp := base + 1, cnt := Memory.read s.rom base.toNat })
    (n := (Memory.read s.rom base.toNat).toNat) (limit := base.toNat + len) (e := base.toNat + len)
    (by rw [hpp]; exact h3) h1
  rw [hpp] at this
  exact this

/-- RUNPROG is refused, as `RomOutOfRange` with the events before the refused read, where no extent makes the program
well-formed (R62, R140). -/
theorem runProgram_refused {base : Word} {s : State} (h : ∀ len, wellFormed s base.toNat len = false) :
    runProgram base s = .refused (.romOutOfRange (s.trace ++ cutProgramTrace s.rom s.romSize.val base.toNat)) := by
  have hsz := s.romSize.isLt
  rw [runProgram, cutProgramTrace]
  rcases fetchThen_cases { s with pp := base } _ with ⟨hb, hr⟩ | ⟨hb, hr⟩ <;> rw [hr]
  · change base.toNat < s.romSize.val at hb
    have hpp : (base + 1).toNat = base.toNat + 1 := pp_succ_toNat (s := { s with pp := base }) hb
    rw [if_pos hb, ← hpp]
    refine runRecords_outside (s := { s with pp := base + 1, cnt := Memory.read s.rom base.toNat }) ?_ ?_
    · intro e he
      change offsetAfter s.rom s.romSize.val _ (base + 1).toNat = some e at he
      rw [hpp] at he
      change s.romSize.val < e
      by_contra hle
      have hlo := (offsetAfter_bounds he).1
      have := h (e - base.toNat)
      rw [Bool.eq_false_iff] at this
      refine this (wellFormed_iff.mpr ⟨by omega, by omega, ?_⟩)
      rw [show base.toNat + (e - base.toNat) = e by omega]
      exact offsetAfter_limit he (Nat.le_refl e)
    · intro h0
      have := h 1
      rw [Bool.eq_false_iff] at this
      refine this (wellFormed_iff.mpr ⟨by omega, by omega, ?_⟩)
      rw [h0]
      rfl
  · change s.romSize.val ≤ base.toNat at hb
    rw [if_neg (by omega), List.append_nil]

/-- What RUNPROG answers: the fold over the records of a program that is well-formed for some extent, or the refusal. -/
theorem runProgram_cases (base : Word) (s : State) :
    (∃ len, wellFormed s base.toNat len = true ∧
        runProgram base s =
          .next (runAll (programRecords s.rom base.toNat)
            { s with pp := base + 1, cnt := Memory.read s.rom base.toNat })) ∨
      ((∀ len, wellFormed s base.toNat len = false) ∧
        runProgram base s =
          .refused (.romOutOfRange (s.trace ++ cutProgramTrace s.rom s.romSize.val base.toNat))) := by
  by_cases h : ∃ len, wellFormed s base.toNat len = true
  · obtain ⟨len, hl⟩ := h
    exact .inl ⟨len, hl, runProgram_wellFormed hl⟩
  · have h' : ∀ len, wellFormed s base.toNat len = false := fun len => by
      cases hw : wellFormed s base.toNat len with
      | false => rfl
      | true => exact absurd ⟨len, hw⟩ h
    exact .inr ⟨h', runProgram_refused h'⟩

end Sys2Proof.Laws
end

