-- ==== Sys2Proof/Laws/PerInstr.lean ====
section
/-! SUPPORT. The per-instruction family `RecordFields`: a record instruction and its fields stand for each other. -/

namespace Sys2Proof.Laws.RecordFields

open Sys2Proof

/-- A well-formed record instruction is encoded as its fields' bytes, and its fields are named as it. -/
def Statement (i : Instr) : Prop :=
  i.wf = true → ∀ r, i.rawRecord? = some r → encode i = .record r.bytes ∧ nameRecord r = i

theorem swreset (args : List Byte) (delay : Option Byte) : Statement (.swreset args delay) := by
  rintro _ r ⟨⟩; exact ⟨rfl, rfl⟩

theorem slpout (args : List Byte) (delay : Option Byte) : Statement (.slpout args delay) := by
  rintro _ r ⟨⟩; exact ⟨rfl, rfl⟩

theorem colmod (args : List Byte) (delay : Option Byte) : Statement (.colmod args delay) := by
  rintro _ r ⟨⟩; exact ⟨rfl, rfl⟩

theorem madctl (args : List Byte) (delay : Option Byte) : Statement (.madctl args delay) := by
  rintro _ r ⟨⟩; exact ⟨rfl, rfl⟩

theorem caset (args : List Byte) (delay : Option Byte) : Statement (.caset args delay) := by
  rintro _ r ⟨⟩; exact ⟨rfl, rfl⟩

theorem raset (args : List Byte) (delay : Option Byte) : Statement (.raset args delay) := by
  rintro _ r ⟨⟩; exact ⟨rfl, rfl⟩

theorem ramwr (args : List Byte) (delay : Option Byte) : Statement (.ramwr args delay) := by
  rintro _ r ⟨⟩; exact ⟨rfl, rfl⟩

theorem invon (args : List Byte) (delay : Option Byte) : Statement (.invon args delay) := by
  rintro _ r ⟨⟩; exact ⟨rfl, rfl⟩

theorem noron (args : List Byte) (delay : Option Byte) : Statement (.noron args delay) := by
  rintro _ r ⟨⟩; exact ⟨rfl, rfl⟩

theorem dispon (args : List Byte) (delay : Option Byte) : Statement (.dispon args delay) := by
  rintro _ r ⟨⟩; exact ⟨rfl, rfl⟩

theorem cmd (opcode : Byte) (args : List Byte) (delay : Option Byte) : Statement (.cmd opcode args delay) := by
  rintro h r ⟨⟩
  refine ⟨rfl, ?_⟩
  have ho : listedOpcodes.contains opcode = false := by
    simp only [Instr.wf, Bool.and_eq_true, Bool.not_eq_true'] at h
    exact h.2
  simp only [listedOpcodes, List.contains_cons, List.contains_nil, Bool.or_eq_false_iff, beq_eq_false_iff_ne,
    Bool.or_false] at ho
  obtain ⟨h1, h2, h3, h4, h5, h6, h7, h8, h9, h10⟩ := ho
  unfold nameRecord
  rw [if_neg h1, if_neg h2, if_neg h3, if_neg h4, if_neg h5, if_neg h6, if_neg h7, if_neg h8, if_neg h9, if_neg h10]

theorem dly500 : Statement (.dly500) := by rintro _ r ⟨⟩

theorem dlyms (d : Byte) : Statement (.dlyms d) := by rintro _ r ⟨⟩

theorem init : Statement (.init) := by rintro _ r ⟨⟩

theorem fillscreen (color : Word) : Statement (.fillscreen color) := by rintro _ r ⟨⟩

theorem fillrect (x y w h color : Word) : Statement (.fillrect x y w h color) := by rintro _ r ⟨⟩

theorem reservedOp3 : Statement (.reservedOp3) := by rintro _ r ⟨⟩

theorem writecommand (b : Byte) : Statement (.writecommand b) := by rintro _ r ⟨⟩

theorem writedata (b : Byte) : Statement (.writedata b) := by rintro _ r ⟨⟩

theorem streampixels (hi lo : Byte) (n : Word) : Statement (.streampixels hi lo n) := by rintro _ r ⟨⟩

theorem runprog (base : Word) : Statement (.runprog base) := by rintro _ r ⟨⟩

theorem setaddrwindow (x0 y0 x1 y1 : Word) : Statement (.setaddrwindow x0 y0 x1 y1) := by rintro _ r ⟨⟩

theorem resetpulse : Statement (.resetpulse) := by rintro _ r ⟨⟩

end Sys2Proof.Laws.RecordFields
end

