-- ==== Sys2Proof/Laws/Encoding.lean ====
section
/-! SUPPORT. The fields of the encodings read back what they were built from: the argsByte (R92), a record (R91) and the
port word (R101). -/

namespace Sys2Proof.Laws

open Sys2Proof

/-- The fields of a built argsByte. -/
theorem argsByte_fields (f : Bool) (k : BitVec 7) :
    hasDelay (mkArgsByte f k) = f ∧ argCount (mkArgsByte f k) = k := by
  revert f k; decide

/-- Decoding the bytes of a record followed by anything gives the record and the rest. -/
theorem decodeRecord_bytes (r : RawRecord) (rest : List Byte) (h : r.args.length ≤ 127) :
    decodeRecord (r.bytes ++ rest) = .ok (r, rest) := by
  obtain ⟨o, as, d⟩ := r
  obtain ⟨h2, h1⟩ := argsByte_fields d.isSome (BitVec.ofNat 7 as.length)
  have hk : (BitVec.ofNat 7 as.length).toNat = as.length := by
    rw [BitVec.toNat_ofNat]
    exact Nat.mod_eq_of_lt (by simp at h; omega)
  simp only [RawRecord.bytes, RawRecord.argsByte, List.cons_append, decodeRecord, h1, h2, hk]
  cases d <;> simp

/-- A field of the low part of a concatenation. -/
theorem extract_low {n m : Nat} (a : BitVec n) (b : BitVec m) (s l : Nat) (h : s + l ≤ m) :
    (a ++ b).extractLsb' s l = b.extractLsb' s l := by
  apply BitVec.eq_of_getLsbD_eq
  intro i hi
  simp [BitVec.getLsbD_append, hi, show s + i < m by omega]

/-- A field of the high part of a concatenation. -/
theorem extract_high {n m : Nat} (a : BitVec n) (b : BitVec m) (s l : Nat) (h : m ≤ s) :
    (a ++ b).extractLsb' s l = a.extractLsb' (s - m) l := by
  apply BitVec.eq_of_getLsbD_eq
  intro i hi
  have h1 : ¬ s + i < m := by omega
  simp [BitVec.getLsbD_append, hi, h1, show s + i - m = s - m + i by omega]

/-- The fields of a port word (R101). -/
theorem portWord_fields (op : BitVec 2) (x y w h color : Word) :
    (mkPortWord op x y w h color).extractLsb' 80 2 = op ∧ (mkPortWord op x y w h color).extractLsb' 64 16 = x ∧
      (mkPortWord op x y w h color).extractLsb' 48 16 = y ∧ (mkPortWord op x y w h color).extractLsb' 32 16 = w ∧
      (mkPortWord op x y w h color).extractLsb' 16 16 = h ∧ (mkPortWord op x y w h color).extractLsb' 0 16 = color := by
  refine ⟨?_, ?_, ?_, ?_, ?_, ?_⟩ <;> unfold mkPortWord <;>
    repeat' first
      | rw [extract_high _ _ _ _ (by omega)]
      | rw [extract_low _ _ _ _ (by omega)]
  all_goals simp

/-- What the port word of an operation decodes to (R101). -/
theorem decodePort_mk (x y w h color : Word) :
    decodePort (mkPortWord 0 x y w h color) = .init ∧
      decodePort (mkPortWord 1 x y w h color) = .fillscreen color ∧
      decodePort (mkPortWord 2 x y w h color) = .fillrect x y w h color ∧
      decodePort (mkPortWord 3 x y w h color) = .reservedOp3 := by
  have f := fun op => portWord_fields op x y w h color
  refine ⟨?_, ?_, ?_, ?_⟩ <;> simp only [decodePort, f] <;> rfl

/-- The row of a record keeps its fields. -/
theorem rawRecord_nameRecord (r : RawRecord) : (nameRecord r).rawRecord? = some r := by
  obtain ⟨o, as, d⟩ := r
  simp only [nameRecord]
  repeat' split
  all_goals first | rfl | (next h => subst h; rfl)

end Sys2Proof.Laws
end

