-- ==== Sys2Proof/Laws/Fill.lean ====
section
/-! SUPPORT. The fills: the clip arithmetic and the three cases of FILLRECT's body. -/

namespace Sys2Proof.Laws

open Sys2Proof Sys2Proof.Machine

theorem toNat_ne_zero {n : Nat} {v : BitVec n} (h : v ≠ 0) : v.toNat ≠ 0 := fun h' =>
  h (BitVec.eq_of_toNat_eq (by simpa using h'))

/-- The clip is the smaller of the size and the room left (R196). -/
theorem clip_toNat {o n limit : Word} (h : o.toNat < limit.toNat) (hn : n ≠ 0) :
    (clip o n limit).toNat = min n.toNat (limit.toNat - o.toNat) := by
  have h0 := toNat_ne_zero hn
  have hl := limit.isLt
  unfold clip
  split
  · rw [BitVec.toNat_sub]; omega
  · omega

/-- The window and the stream of a clipped rectangle as one update (R195). -/
theorem paintRect_eq (s : State) :
    paintRect s =
      { s with
        dat := lo8 s.y1
        pixhi := hi8 s.color
        pixlo := lo8 s.color
        pixcnt := 0
        pin := pinsAfterWrite true s.pin
        txn := false
        trace := s.trace ++
          (windowTrace s.x0 s.y0 s.x1 s.y1 ++
            streamTrace (hi8 s.color) (lo8 s.color) (pixelCount s.fw s.fh).toNat) } := by
  simp only [paintRect, streamPixels_eq, setAddrWindow_eq, loadPixels, pinsAfterWrite_twice, List.append_assoc]

/-- Is the origin off the panel? (R197) -/
theorem offPanel_latched {x y w h color : Word} {s : State} :
    offPanel (latchRect x y w h color s) = true ↔
      s.geo.width.toNat ≤ x.toNat ∨ s.geo.height.toNat ≤ y.toNat := by
  simp only [offPanel, latchRect_fx, latchRect_fy, latchRect_geo, Bool.or_eq_true, decide_eq_true_eq, BitVec.le_def]

/-- Is the rectangle empty? (R194) -/
theorem emptyRect_latched {x y w h color : Word} {s : State} :
    emptyRect (latchRect x y w h color s) = true ↔ w = 0 ∨ h = 0 := by
  simp only [emptyRect, latchRect_fw, latchRect_fh, Bool.or_eq_true, beq_iff_eq]

theorem fillBody_offPanel {x y w h color : Word} {s : State}
    (ho : s.geo.width.toNat ≤ x.toNat ∨ s.geo.height.toNat ≤ y.toNat) :
    fillBody x y w h color s = .next (latchRect x y w h color s) := by
  simp only [fillBody, offPanel_latched.mpr ho, if_true]

theorem fillBody_empty {x y w h color : Word} {s : State} (hx : x.toNat < s.geo.width.toNat)
    (hy : y.toNat < s.geo.height.toNat) (he : w = 0 ∨ h = 0) :
    fillBody x y w h color s = .refused .degenerateRect := by
  have ho : offPanel (latchRect x y w h color s) = false := by
    rw [Bool.eq_false_iff, Ne, offPanel_latched]; omega
  simp only [fillBody, ho, emptyRect_latched.mpr he, if_true, Bool.false_eq_true, if_false]

theorem fillBody_painted {x y w h color : Word} {s : State} (hx : x.toNat < s.geo.width.toNat)
    (hy : y.toNat < s.geo.height.toNat) (hw : w ≠ 0) (hh : h ≠ 0) :
    fillBody x y w h color s = .next (paintRect (clipRect (latchRect x y w h color s))) := by
  have ho : offPanel (latchRect x y w h color s) = false := by
    rw [Bool.eq_false_iff, Ne, offPanel_latched]; omega
  have he : emptyRect (latchRect x y w h color s) = false := by
    rw [Bool.eq_false_iff, Ne, emptyRect_latched]
    exact not_or.mpr ⟨hw, hh⟩
  simp only [fillBody, ho, he, Bool.false_eq_true, if_false]

/-- What the body of FILLRECT can answer (R195). -/
theorem fillBody_cases (x y w h color : Word) (s : State) :
    ((s.geo.width.toNat ≤ x.toNat ∨ s.geo.height.toNat ≤ y.toNat) ∧
        fillBody x y w h color s = .next (latchRect x y w h color s)) ∨
      (x.toNat < s.geo.width.toNat ∧ y.toNat < s.geo.height.toNat ∧ (w = 0 ∨ h = 0) ∧
        fillBody x y w h color s = .refused .degenerateRect) ∨
      (x.toNat < s.geo.width.toNat ∧ y.toNat < s.geo.height.toNat ∧ w ≠ 0 ∧ h ≠ 0 ∧
        fillBody x y w h color s = .next (paintRect (clipRect (latchRect x y w h color s)))) := by
  by_cases ho : s.geo.width.toNat ≤ x.toNat ∨ s.geo.height.toNat ≤ y.toNat
  · exact .inl ⟨ho, fillBody_offPanel ho⟩
  · have hx : x.toNat < s.geo.width.toNat := by omega
    have hy : y.toNat < s.geo.height.toNat := by omega
    by_cases he : w = 0 ∨ h = 0
    · exact .inr (.inl ⟨hx, hy, he, fillBody_empty hx hy he⟩)
    · have he' := not_or.mp he
      exact .inr (.inr ⟨hx, hy, he'.1, he'.2, fillBody_painted hx hy he'.1 he'.2⟩)

theorem execFillrect_accepted {x y w h color : Word} {s : State} (hb : s.busy = false) (hp : s.phase = .ready) :
    execFillrect x y w h color s = accepted (fillBody x y w h color) s := by
  simp only [execFillrect, acceptFill_eq_none.mpr ⟨hb, hp⟩]

end Sys2Proof.Laws
end

