-- ==== Sys2Proof/Laws/Exec.lean ====
section
/-! SUPPORT. What `exec` can answer, said once: the update of each group of instructions, and an inversion of a completed
instruction. -/

namespace Sys2Proof.Laws

open Sys2Proof Sys2Proof.Machine

/-- Every record row runs the one record rule (R142). -/
theorem exec_record {i : Instr} {r : RawRecord} (h : i.rawRecord? = some r) (s : State) :
    exec i s = .next (runRecord r s) := by
  cases i <;> cases h <;> rfl

/-- INIT's state when RUNPROG starts (R222). -/
def initStart (s : State) : State := { resetPulse (initPins s) with phase := .programExecuting }

theorem initStart_eq (s : State) :
    initStart s =
      { s with
        phase := .programExecuting
        ms := 50
        buscfg := busConstants
        dir := { dc := true, cs := true, rst := true }
        pin := { s.pin with rst := true }
        trace := s.trace ++
          (pinDirs ++ [.pin .rst true, .delay 50, .pin .rst false, .delay 50, .pin .rst true, .delay 50]) } := by
  simp only [initStart, resetPulse_eq, initPins_eq, List.append_assoc]

/-- INIT's state when RUNPROG has read the count byte (R140). -/
def initLoop (s : State) : State :=
  { initStart s with pp := Config.initBase + 1, cnt := Memory.read s.rom Config.initBase.toNat }

/-- INIT's end state on a well-formed program (R222). -/
def initEnd (s : State) : State :=
  { initLatch (initPost (runAll (programRecords s.rom Config.initBase.toNat) (initLoop { s with busy := true }))) with
    busy := false }

theorem execInit_notReady {s : State} {r : Refusal} (h : acceptInit s = some r) : execInit s = .refused .notReady := by
  simp only [execInit, h, acceptInit_eq_some h]

theorem execInit_malformed {s : State} (h : acceptInit s = none) (hl : launchable s = false) :
    execInit s = .refused .malformedProgram := by
  simp only [execInit, h, hl, Bool.false_eq_true, if_false]

theorem execInit_ok {s : State} (h : acceptInit s = none) (hl : launchable s = true) :
    execInit s = .next (initEnd s) := by
  have := runProgram_wellFormed (base := Config.initBase) (len := s.initLen)
    (s := initStart { s with busy := true }) hl
  simp only [execInit, h, hl, if_true, accepted]
  change mapNext (mapNext (runProgram Config.initBase (initStart { s with busy := true })) _) _ = _
  rw [this]
  rfl

/-- What INIT answers (R222, R246). -/
theorem execInit_cases (s : State) :
    (acceptInit s = none ∧ launchable s = true ∧ execInit s = .next (initEnd s)) ∨
      (acceptInit s = none ∧ launchable s = false ∧ execInit s = .refused .malformedProgram) ∨
      ((∃ r, acceptInit s = some r) ∧ execInit s = .refused .notReady) := by
  cases ha : acceptInit s with
  | none =>
    cases hl : launchable s with
    | true => exact .inl ⟨rfl, rfl, execInit_ok ha hl⟩
    | false => exact .inr (.inl ⟨rfl, rfl, execInit_malformed ha hl⟩)
  | some r => exact .inr (.inr ⟨⟨r, rfl⟩, execInit_notReady ha⟩)

/-- INIT's end state field by field: the interpreter's registers as the program left them (R222). -/
theorem initEnd_shape (s : State) :
    ∃ pp cnt opc args dlyf argc dat dly ms pin,
      initEnd s =
        { s with
          pp := pp, cnt := cnt, opc := opc, args := args, dlyf := dlyf, argc := argc, dat := dat, dly := dly, ms := ms
          pin := pin, txn := false, busy := false, phase := .ready, geo := panelConstants, buscfg := busConstants
          dir := { dc := true, cs := true, rst := true }
          trace := s.trace ++
            (pinDirs ++ [.pin .rst true, .delay 50, .pin .rst false, .delay 50, .pin .rst true, .delay 50] ++
              programTrace s.rom Config.initBase.toNat ++ wd 0) } ∧
        pin = { dc := true, cs := true, rst := true } := by
  have ht := runAll_trace (programRecords s.rom Config.initBase.toNat) (initLoop { s with busy := true })
  obtain ⟨h1, h2, _⟩ := runAll_interpreterOnly (programRecords s.rom Config.initBase.toNat) (initLoop { s with busy := true })
  unfold initEnd
  generalize runAll (programRecords s.rom Config.initBase.toNat) (initLoop { s with busy := true }) = u at *
  obtain ⟨a, b, c, d, e, f, g, i, j, k, l, m, hu⟩ :
      ∃ a b c d e f g i j k l m, u = { initLoop { s with busy := true } with
        pp := a, cnt := b, opc := c, args := d, dlyf := e, argc := f, dat := g, dly := i, ms := j, pin := k, txn := l
        trace := m } := ⟨_, _, _, _, _, _, _, _, _, _, _, _, h1⟩
  clear h1
  subst hu
  change m = _ at ht
  change k.rst = true at h2
  subst ht
  refine ⟨a, b, c, d, e, f, 0, i, j, { dc := true, cs := true, rst := true }, ?_, rfl⟩
  simp only [initLatch, initPost, sendData_eq, pinsAfterWrite, h2, initLoop, initStart_eq, programTrace,
    Config.postinitData, List.append_assoc]

theorem execFillrect_notReady {x y w h color : Word} {s : State} {r : Refusal} (ha : acceptFill s = some r) :
    execFillrect x y w h color s = .refused .notReady := by
  simp only [execFillrect, ha, acceptFill_eq_some ha]

theorem execFillrect_off {x y w h color : Word} {s : State} (ha : acceptFill s = none)
    (ho : s.geo.width.toNat ≤ x.toNat ∨ s.geo.height.toNat ≤ y.toNat) :
    execFillrect x y w h color s = .next (latchRect x y w h color s) := by
  obtain ⟨hb, hp⟩ := acceptFill_eq_none.mp ha
  rw [execFillrect_accepted hb hp, accepted, fillBody_offPanel (s := { s with busy := true }) ho]
  simp only [mapNext_next, latchRect, hb]

theorem execFillrect_empty {x y w h color : Word} {s : State} (ha : acceptFill s = none)
    (hx : x.toNat < s.geo.width.toNat) (hy : y.toNat < s.geo.height.toNat) (he : w = 0 ∨ h = 0) :
    execFillrect x y w h color s = .refused .degenerateRect := by
  obtain ⟨hb, hp⟩ := acceptFill_eq_none.mp ha
  rw [execFillrect_accepted hb hp, accepted, fillBody_empty (s := { s with busy := true }) hx hy he]
  rfl

theorem execFillrect_painted {x y w h color : Word} {s : State} (ha : acceptFill s = none)
    (hx : x.toNat < s.geo.width.toNat) (hy : y.toNat < s.geo.height.toNat) (hw : w ≠ 0) (hh : h ≠ 0) :
    execFillrect x y w h color s = .next (paintRect (clipRect (latchRect x y w h color s))) := by
  obtain ⟨hb, hp⟩ := acceptFill_eq_none.mp ha
  rw [execFillrect_accepted hb hp, accepted, fillBody_painted (s := { s with busy := true }) hx hy hw hh]
  simp only [mapNext_next, paintRect_eq, clipRect, latchRect, hb]

/-- A fill's outcomes (R195, R246). -/
theorem execFillrect_cases (x y w h color : Word) (s : State) :
    (acceptFill s = none ∧ (s.geo.width.toNat ≤ x.toNat ∨ s.geo.height.toNat ≤ y.toNat) ∧
        execFillrect x y w h color s = .next (latchRect x y w h color s)) ∨
      (acceptFill s = none ∧ x.toNat < s.geo.width.toNat ∧ y.toNat < s.geo.height.toNat ∧
        (w = 0 ∨ h = 0) ∧ execFillrect x y w h color s = .refused .degenerateRect) ∨
      (acceptFill s = none ∧ x.toNat < s.geo.width.toNat ∧ y.toNat < s.geo.height.toNat ∧ w ≠ 0 ∧ h ≠ 0 ∧
        execFillrect x y w h color s = .next (paintRect (clipRect (latchRect x y w h color s)))) ∨
      ((∃ r, acceptFill s = some r) ∧ execFillrect x y w h color s = .refused .notReady) := by
  cases ha : acceptFill s with
  | some r => exact .inr (.inr (.inr ⟨⟨r, rfl⟩, execFillrect_notReady ha⟩))
  | none =>
    by_cases ho : s.geo.width.toNat ≤ x.toNat ∨ s.geo.height.toNat ≤ y.toNat
    · exact .inl ⟨rfl, ho, execFillrect_off ha ho⟩
    · have hx : x.toNat < s.geo.width.toNat := by omega
      have hy : y.toNat < s.geo.height.toNat := by omega
      by_cases he : w = 0 ∨ h = 0
      · exact .inr (.inl ⟨rfl, hx, hy, he, execFillrect_empty ha hx hy he⟩)
      · have he' := not_or.mp he
        exact .inr (.inr (.inl ⟨rfl, hx, hy, he'.1, he'.2, execFillrect_painted ha hx hy he'.1 he'.2⟩))

/-- A painted rectangle as one update (R195, R198). -/
theorem painted_eq (x y w h color : Word) (s : State) :
    paintRect (clipRect (latchRect x y w h color s)) =
      { s with
        fx := x, fy := y, fw := clip x w s.geo.width, fh := clip y h s.geo.height, color := color
        x0 := x, y0 := y, x1 := lastOf x (clip x w s.geo.width), y1 := lastOf y (clip y h s.geo.height)
        dat := lo8 (lastOf y (clip y h s.geo.height))
        pixhi := hi8 color, pixlo := lo8 color, pixcnt := 0
        pin := pinsAfterWrite true s.pin, txn := false
        trace := s.trace ++
          (windowTrace x y (lastOf x (clip x w s.geo.width)) (lastOf y (clip y h s.geo.height)) ++
            streamTrace (hi8 color) (lo8 color)
              (pixelCount (clip x w s.geo.width) (clip y h s.geo.height)).toNat) } := by
  simp only [paintRect_eq, clipRect, latchRect]

theorem execFillscreen_eq (color : Word) (s : State) :
    execFillscreen color s = execFillrect 0 0 s.geo.width s.geo.height color s := rfl

end Sys2Proof.Laws
end

