-- ==== Sys2Proof/Laws/Step.lean ====
section
/-! SUPPORT. What the step fetches and does at the interpreter's positions, and what one fetch of the sequencer answers. -/

namespace Sys2Proof.Laws

open Sys2Proof Sys2Proof.Machine

theorem fetchByte_inside {s : State} (f : Byte → State → State) (h : s.pp.toNat < s.romSize.val) :
    fetchByte s f = .next (f (Memory.read s.rom s.pp.toNat) { s with pp := s.pp + 1 }) := by
  rw [fetchByte, fetchThen_inside _ h]

theorem fetchByte_outside {s : State} (f : Byte → State → State) (h : s.romSize.val ≤ s.pp.toNat) :
    fetchByte s f = .refused (.romOutOfRange s.trace) := by
  rw [fetchByte, fetchThen_outside _ h]

/-- A fetch that completes has read the byte at `PP`, below `ROM_SIZE`. -/
theorem fetchByte_next {s t : State} {f : Byte → State → State} (h : fetchByte s f = .next t) :
    s.pp.toNat < s.romSize.val ∧ t = f (Memory.read s.rom s.pp.toNat) { s with pp := s.pp + 1 } := by
  by_cases hp : s.pp.toNat < s.romSize.val
  · rw [fetchByte_inside f hp] at h
    injection h with h
    exact ⟨hp, h.symm⟩
  · rw [fetchByte_outside f (Nat.not_lt.mp hp)] at h
    cases h

/-- A fetch that is refused leaves the trace as it stands (R62). -/
theorem fetchByte_refused {s : State} {f : Byte → State → State} {r : Refusal} (h : fetchByte s f = .refused r) :
    s.romSize.val ≤ s.pp.toNat ∧ r = .romOutOfRange s.trace := by
  by_cases hp : s.pp.toNat < s.romSize.val
  · rw [fetchByte_inside f hp] at h
    cases h
  · rw [fetchByte_outside f (Nat.not_lt.mp hp)] at h
    injection h with h
    exact ⟨Nat.not_lt.mp hp, h.symm⟩

theorem recordFits_iff {s : State} :
    s.recordFits = true ↔ s.pp.toNat + recordLenAt s.rom s.pp.toNat ≤ s.romSize.val := by
  simp [State.recordFits]

/-- At `CI_OPC` with the record inside the ROM: the record whole, then "next record". -/
theorem step_ciOpc_inside {s : State} (hp : s.ctl.pos = .ciOpc)
    (h : s.pp.toNat + recordLenAt s.rom s.pp.toNat ≤ s.romSize.val) :
    step s = mapNext (exec (nameRecord (recordIn s.rom s.pp.toNat)) s) recordDone := by
  simp only [step, fetchNext, hp, recordFits_iff.mpr h, if_true]
  rfl

/-- At `CI_OPC` with the record cut short: one small step (R61, R62). -/
theorem step_ciOpc_cut {s : State} (hp : s.ctl.pos = .ciOpc)
    (h : s.romSize.val < s.pp.toNat + recordLenAt s.rom s.pp.toNat) : step s = seqStep s := by
  have hf : s.recordFits = false := by
    rw [Bool.eq_false_iff]
    intro hf
    have := recordFits_iff.mp hf
    omega
  simp only [step, fetchNext, hp, hf, Bool.false_eq_true, if_false]

/-- At `CI_DLYB` inside the ROM: the delay byte whole, then "next record". -/
theorem step_ciDlyb_inside {s : State} (hp : s.ctl.pos = .ciDlyb) (h : s.pp.toNat < s.romSize.val) :
    step s = mapNext (exec (nameDelay (Memory.read s.rom s.pp.toNat)) { s with pp := s.pp + 1 }) nextRecord := by
  simp only [step, fetchNext, hp, memRead_inside h]
  rfl

/-- At `CI_DLYB` beyond the ROM: the refused read (R62). -/
theorem step_ciDlyb_outside {s : State} (hp : s.ctl.pos = .ciDlyb) (h : s.romSize.val ≤ s.pp.toNat) :
    step s = .refused (.romOutOfRange s.trace) := by
  simp only [step, fetchNext, hp, memRead_outside h, seqStep]
  exact fetchByte_outside _ h

end Sys2Proof.Laws
end

