-- ==== Sys2Proof/Tests/Slice0.lean ====
section
/-! SUPPORT. The model's own tests: ill-formed terms, words written out from the spec's encodings, single operations against
the vectors of 95_test_vectors.md, and for every obligation with hypotheses a state and operands that meet them. -/

namespace Sys2Proof.Tests

open Sys2Proof Sys2Proof.Machine Sys2Proof.Safety

-- One theorem after another: checked in parallel, the file's evaluations reserve more address space than the limit.
set_option Elab.async false

/-! ### Helpers -/

/-- The state an outcome reached. -/
def nextOf : Result → Option State
  | .next s => some s
  | .fault _ => none
  | .refused _ => none

/-- The reason of a refused outcome. -/
def refusalOf : Result → Option Refusal
  | .next _ => none
  | .fault _ => none
  | .refused r => some r

/-- The events an outcome reached. -/
def traceOf (r : Result) : Option (List Event) := (nextOf r).map State.trace

/-- A block in `Ready` as INIT leaves it (70_reset_and_hazards.md R275). -/
def ready : State :=
  { State.reset with
    phase := .ready, geo := panelConstants, buscfg := busConstants, dir := allOutputs, pin := allOutputs }

/-- A block whose ROM is `bytes` from address 0 on and nothing else. -/
def withRom (bytes : List Byte) (size : Fin 65536) : State :=
  { State.reset with rom := Memory.writeBytes [] 0 bytes, romSize := size }

/-- The interpreter at a position, inside RUNPROG called as a sub-operation. -/
def interpretingAt (pos : Pos) (pp : Word) (cnt : Byte) : State :=
  { State.reset with ctl := { caller := .none, pos := pos }, pp := pp, cnt := cnt }

/-! ### WellFormed refuses ill-formed terms (R92, R108) -/

/-- 128 argument bytes. -/
def tooMany : List Byte := List.replicate 128 0

theorem test_wf_swreset : (Instr.swreset tooMany none).wf = false := by simp [Instr.wf, argsFit, tooMany]
theorem test_wf_slpout : (Instr.slpout tooMany none).wf = false := by simp [Instr.wf, argsFit, tooMany]
theorem test_wf_colmod : (Instr.colmod tooMany none).wf = false := by simp [Instr.wf, argsFit, tooMany]
theorem test_wf_madctl : (Instr.madctl tooMany none).wf = false := by simp [Instr.wf, argsFit, tooMany]
theorem test_wf_caset : (Instr.caset tooMany none).wf = false := by simp [Instr.wf, argsFit, tooMany]
theorem test_wf_raset : (Instr.raset tooMany none).wf = false := by simp [Instr.wf, argsFit, tooMany]
theorem test_wf_ramwr : (Instr.ramwr tooMany none).wf = false := by simp [Instr.wf, argsFit, tooMany]
theorem test_wf_invon : (Instr.invon tooMany none).wf = false := by simp [Instr.wf, argsFit, tooMany]
theorem test_wf_noron : (Instr.noron tooMany none).wf = false := by simp [Instr.wf, argsFit, tooMany]
theorem test_wf_dispon : (Instr.dispon tooMany none).wf = false := by simp [Instr.wf, argsFit, tooMany]
theorem test_wf_cmd_args : (Instr.cmd 0xAA tooMany none).wf = false := by simp [Instr.wf, argsFit, tooMany]
theorem test_wf_cmd_listed_opcode : (Instr.cmd 0x2C [] none).wf = false := by decide
theorem test_wf_dlyms_sentinel : (Instr.dlyms 255).wf = false := by decide
/-- The largest record is well-formed (V7). -/
theorem test_wf_127_args : (Instr.cmd 0xAA (List.replicate 127 0x5A) (some 0xFF)).wf = true := by
  simp [Instr.wf, argsFit, listedOpcodes]

/-! ### Decoding: bytes and bits from R91, R93, R101, R102, R105 -/

theorem test_decode_swreset : decode (.record [0x01, 0x80, 0x96]) = .ok (.swreset [] (some 150)) := by decide
theorem test_decode_slpout : decode (.record [0x11, 0x80, 0xFF]) = .ok (.slpout [] (some 255)) := by decide
theorem test_decode_colmod : decode (.record [0x3A, 0x81, 0x55, 0x0A]) = .ok (.colmod [0x55] (some 10)) := by decide
theorem test_decode_madctl : decode (.record [0x36, 0x01, 0x00]) = .ok (.madctl [0] none) := by decide
theorem test_decode_caset :
    decode (.record [0x2A, 0x04, 0x00, 0x01, 0x02, 0xF0]) = .ok (.caset [0x00, 0x01, 0x02, 0xF0] none) := by decide
theorem test_decode_raset :
    decode (.record [0x2B, 0x04, 0x00, 0x01, 0x02, 0xF0]) = .ok (.raset [0x00, 0x01, 0x02, 0xF0] none) := by decide
theorem test_decode_ramwr : decode (.record [0x2C, 0x02, 0xF8, 0x00]) = .ok (.ramwr [0xF8, 0x00] none) := by decide
theorem test_decode_invon : decode (.record [0x21, 0x80, 0x0A]) = .ok (.invon [] (some 10)) := by decide
theorem test_decode_noron : decode (.record [0x13, 0x80, 0x0A]) = .ok (.noron [] (some 10)) := by decide
theorem test_decode_dispon : decode (.record [0x29, 0x80, 0xFF]) = .ok (.dispon [] (some 255)) := by decide
theorem test_decode_cmd : decode (.record [0xAA, 0x81, 0x55, 0xFE]) = .ok (.cmd 0xAA [0x55] (some 254)) := by decide
theorem test_decode_dly500 : decode (.delayByte 0b11111111) = .ok .dly500 := by decide
theorem test_decode_dlyms : decode (.delayByte 0b11111110) = .ok (.dlyms 254) := by decide
theorem test_decode_init : decode (.port 0x000000000000000000000) = .ok .init := by decide
theorem test_decode_fillscreen : decode (.port 0x10000000000000000F800) = .ok (.fillscreen 0xF800) := by decide
theorem test_decode_fillrect :
    decode (.port 0x200EE00EF0005000607E0) = .ok (.fillrect 0xEE 0xEF 5 6 0x07E0) := by decide
theorem test_decode_reserved : decode (.port 0x300000000000000000000) = .ok .reservedOp3 := by decide
/-- Operand registers that all differ. -/
def operands : SubOperands :=
  { opc := 1, dat := 2, pixhi := 3, pixlo := 4, pixcnt := 5, pp := 6, x0 := 7, y0 := 8, x1 := 9, y1 := 10 }
theorem test_decode_writecommand : decode (.subop 0b000 operands) = .ok (.writecommand 1) := by decide
theorem test_decode_writedata : decode (.subop 0b001 operands) = .ok (.writedata 2) := by decide
theorem test_decode_streampixels : decode (.subop 0b010 operands) = .ok (.streampixels 3 4 5) := by decide
theorem test_decode_runprog : decode (.subop 0b011 operands) = .ok (.runprog 6) := by decide
theorem test_decode_setaddrwindow : decode (.subop 0b100 operands) = .ok (.setaddrwindow 7 8 9 10) := by decide
theorem test_decode_resetpulse : decode (.subop 0b101 operands) = .ok .resetpulse := by decide
theorem test_decode_unused_codes :
    decode (.subop 0b110 operands) = .error .unusedSubop ∧ decode (.subop 0b111 operands) = .error .unusedSubop := by
  decide
theorem test_decode_cut_short :
    decode (.record []) = .error .noOpcode ∧ decode (.record [0xAA]) = .error .noArgsByte ∧
      decode (.record [0xAA, 0x02, 0x11]) = .error .missingArguments ∧
      decode (.record [0xAA, 0x81, 0x11]) = .error .missingDelayByte ∧
      decode (.record [0xAA, 0x00, 0x11]) = .error .trailingBytes := by decide
/-- V1 to V8: the two fields of the argsByte. -/
theorem test_argsByte_split :
    [0x00, 0x01, 0x04, 0x7F, 0x80, 0x81, 0xFF, 0xC0].map (fun a : Byte => (hasDelay a, (argCount a).toNat)) =
      [(false, 0), (false, 1), (false, 4), (false, 127), (true, 0), (true, 1), (true, 127), (true, 64)] := by decide

/-- The opcode table's numbering: a record header with its operand bytes zero, selectors, sub-operation codes. -/
theorem test_table_words :
    decodeTableWord 16 0x3A81 = some (.colmod [0] (some 0)) ∧ decodeTableWord 16 0x0080 = some (.cmd 0 [] (some 0)) ∧
      decodeTableWord 2 2 = some (.fillrect 0 0 0 0 0) ∧ decodeTableWord 3 5 = some .resetpulse ∧
      decodeTableWord 8 0xFF = some .dly500 ∧ decodeTableWord 8 0x64 = some (.dlyms 100) ∧
      decodeTableWord 3 7 = none := by decide

/-! ### Single operations against the vectors of 95_test_vectors.md -/

/-- V11 to V16: the delay byte. -/
theorem test_delay_bytes :
    [0x00, 0x01, 0x0A, 0x96, 0xFE, 0xFF].map (fun d : Byte => traceOf (exec (nameDelay d) State.reset)) =
      [some [.delay 0], some [.delay 1], some [.delay 10], some [.delay 150], some [.delay 254], some [.delay 500]] := by
  decide

/-- V31: WRITECOMMAND(FF). -/
theorem test_writecommand :
    traceOf (exec (.writecommand 0xFF) ready) =
      some [.txnBegin, .pin .dc false, .pin .cs false, .xfer 0xFF, .pin .cs true, .txnEnd] := by decide

/-- V33: WRITEDATA(A5). -/
theorem test_writedata :
    traceOf (exec (.writedata 0xA5) ready) =
      some [.txnBegin, .pin .dc true, .pin .cs false, .xfer 0xA5, .pin .cs true, .txnEnd] := by decide

/-- V35: STREAMPIXELS(07, E0, 2). -/
theorem test_streampixels :
    traceOf (exec (.streampixels 0x07 0xE0 2) ready) =
      some [.txnBegin, .pin .cs false, .pin .dc true, .xfer 0x07, .xfer 0xE0, .xfer 0x07, .xfer 0xE0, .pin .cs true,
            .txnEnd] := by decide

/-- V40 to V49 but for V47, one record each: the trace and the end of `PP`. -/
theorem test_single_records :
    [[0x01, 0xAA, 0x00], [0x01, 0xAA, 0x80, 0x00], [0x01, 0xAA, 0x80, 0xFF], [0x01, 0xAA, 0x01, 0x55],
      [0x01, 0xAA, 0x81, 0x55, 0xFE], [0x01, 0x2C, 0x02, 0xF8, 0x00], [0x01, 0xFF, 0x80, 0xFF]].map
      (fun p : List Byte => (nextOf (exec (.runprog 0) (withRom p 16))).map fun t => (t.trace, t.pp)) =
    [some (wc 0xAA, 3), some (wc 0xAA ++ [.delay 0], 4), some (wc 0xAA ++ [.delay 500], 4), some (wc 0xAA ++ wd 0x55, 4),
      some (wc 0xAA ++ wd 0x55 ++ [.delay 254], 5), some (wc 0x2C ++ wd 0xF8 ++ wd 0x00, 5),
      some (wc 0xFF ++ [.delay 500], 4)] := by decide

/-- V50: a program of three records. -/
theorem test_three_records :
    (nextOf (exec (.runprog 0) (withRom [0x03, 0x01, 0x00, 0x02, 0x00, 0x03, 0x80, 0x00] 8))).map
      (fun t => (t.trace, (t.pp, t.cnt, t.opc), t.args, t.dly, t.ms)) =
    some (wc 0x01 ++ wc 0x02 ++ wc 0x03 ++ [.delay 0], (8, 0, 0x03), 0x80, 0x00, 0) := by decide

/-- V51: the empty program. -/
theorem test_empty_program :
    nextOf (exec (.runprog 0) (withRom [0x00] 1)) = some { withRom [0x00] 1 with pp := 1, cnt := 0 } := by decide

/-- V52: a program cut short, with `ROM_SIZE` = 4: `WC(AA), WD(11)` are emitted, then the fetch at 4 is refused. -/
theorem test_program_cut_short :
    refusalOf (exec (.runprog 0) (withRom [0x01, 0xAA, 0x02, 0x11] 4)) =
      some (.romOutOfRange (wc 0xAA ++ wd 0x11)) := by decide

/-- V52 by steps: the record at `CI_OPC` does not fit, so the step is the small one, with its command write. -/
theorem test_step_record_cut_short :
    let s := { withRom [0x01, 0xAA, 0x02, 0x11] 4 with ctl := { caller := .none, pos := .ciOpc }, pp := 1, cnt := 1 }
    (nextOf (step s)).map (fun t => (t.ctl.pos, t.pp, t.trace)) = some (.ciHdr, 2, wc 0xAA) ∧
      (nextOf (Host.Core.run Sys2Proof.core 3 s)).map State.trace = some (wc 0xAA ++ wd 0x11) ∧
      refusalOf (Host.Core.run Sys2Proof.core 4 s) = some (.romOutOfRange (wc 0xAA ++ wd 0x11)) := by decide

/-- V71: SETADDRWINDOW sends what it is given. -/
theorem test_setaddrwindow :
    traceOf (exec (.setaddrwindow 0x0123 0x4567 0x89AB 0xCDEF) ready) =
      some (wc 0x2A ++ wd 0x01 ++ wd 0x23 ++ wd 0x89 ++ wd 0xAB ++
        (wc 0x2B ++ wd 0x45 ++ wd 0x67 ++ wd 0xCD ++ wd 0xEF) ++ wc 0x2C) := by decide

/-- V84: a fill clipped in both directions. -/
theorem test_fillrect_clipped :
    traceOf (exec (.fillrect 238 239 5 5 0x07E0) ready) =
      some (wc 0x2A ++ wd 0x00 ++ wd 0xEE ++ wd 0x00 ++ wd 0xEF ++
        (wc 0x2B ++ wd 0x00 ++ wd 0xEF ++ wd 0x00 ++ wd 0xEF ++ wc 0x2C) ++
        [.txnBegin, .pin .cs false, .pin .dc true, .xfer 0x07, .xfer 0xE0, .xfer 0x07, .xfer 0xE0, .pin .cs true,
         .txnEnd]) := by decide

/-- V87: the sum `x + w - 1` needs 17 bits. -/
theorem test_fillrect_wide_sum :
    (nextOf (exec (.fillrect 239 0 65535 1 0) ready)).map (fun t => (t.fw, t.fh, t.x0, t.y0, t.x1, t.y1, t.pixcnt)) =
      some (1, 1, 239, 0, 239, 0, 0) := by decide

/-- S4, V92, V95: off the panel nothing is sent. -/
theorem test_fillrect_off_panel :
    traceOf (exec (.fillrect 240 0 10 10 7) ready) = some [] ∧ traceOf (exec (.fillrect 240 0 0 0 7) ready) = some [] ∧
      traceOf (exec (.fillrect 65535 65535 65535 65535 7) ready) = some [] := by decide

/-- V93, V94: an empty rectangle on the panel. -/
theorem test_fillrect_empty :
    refusalOf (exec (.fillrect 5 5 0 3 7) ready) = some .degenerateRect ∧
      refusalOf (exec (.fillrect 0 0 10 0 7) ready) = some .degenerateRect := by decide

/-- S5: `w'` and `h'` of a fill at (200, 200), and S3's clip of 300 to 240. -/
theorem test_clip : clip 200 100 240 = 40 ∧ clip 0 300 240 = 240 ∧ clip 10 230 240 = 230 ∧ clip 10 231 240 = 230 := by
  decide

/-- V100 to V102, V106: what reset accepts. -/
theorem test_acceptance_at_reset :
    refusalOf (exec (.fillscreen 0) State.reset) = some .notReady ∧
      refusalOf (exec (.fillrect 0 0 1 1 0) State.reset) = some .notReady ∧
      refusalOf (exec (.fillrect 240 0 1 1 0) State.reset) = some .notReady ∧
      refusalOf (exec .reservedOp3 State.reset) = some .reservedHostOp ∧
      refusalOf (exec .reservedOp3 { State.reset with busy := true }) = some .notReady := by decide

/-- V107: INIT on a ROM cut short. -/
theorem test_init_malformed :
    refusalOf (exec .init { withRom [0x09, 0x01, 0x80] 3 with initLen := 35 }) = some .malformedProgram := by decide

/-- P1: the end state of INIT on the default image. -/
theorem test_init_end_state :
    (nextOf (exec .init State.reset)).map (fun t => (t.phase, t.pp, t.cnt, t.opc, t.args)) =
        some (.ready, 35, 0, 0x29, 0x80) ∧
      (nextOf (exec .init State.reset)).map (fun t => (t.dly, t.ms, t.dat, t.pin, t.trace.length)) =
        some (0xFF, 500, 0x00, allOutputs, 135) := ⟨rfl, rfl⟩

/-- V108: RESETPULSE alone. -/
theorem test_resetpulse :
    (nextOf (exec .resetpulse State.reset)).map (fun t => (t.pin.rst, t.ms, t.trace)) =
      some (true, 50, [.pin .rst true, .delay 50, .pin .rst false, .delay 50, .pin .rst true, .delay 50]) := by decide

/-! ### The step -/

/-- A placed record runs at the next step. -/
theorem test_step_record : traceOf (step (State.reset.withFetchWord 16 0x3A81)) = some (wc 0x3A ++ wd 0x00 ++ [.delay 0]) := by
  decide

/-- A placed delay byte, port selector and sub-operation run at the next step. -/
theorem test_step_others :
    traceOf (step (State.reset.withFetchWord 8 0x64)) = some [.delay 100] ∧
      (nextOf (step (State.reset.withFetchWord 2 0))).map State.phase = some .ready ∧
      refusalOf (step (State.reset.withFetchWord 2 3)) = some .reservedHostOp ∧
      traceOf (step (State.reset.withFetchWord 3 0)) = some (wc 0x00) := by decide

/-- The small-step interpreter goes from `CI_OPC` to `CI_HDR` after the command write (R148). -/
theorem test_small_step_opcode :
    (nextOf (seqStep (interpretingAt .ciOpc 4 8))).map (fun t => (t.ctl.pos, t.pp, t.opc, t.trace)) =
      some (.ciHdr, 5, 0x11, wc 0x11) := by decide

/-! ### The assembler notation (R110, R111) -/

/-- P1's listing. -/
def listing : List AsmLine :=
  [⟨0x01, [], some 150⟩, ⟨0x11, [], some 500⟩, ⟨0x3A, [0x55], some 10⟩, ⟨0x36, [0x00], none⟩,
   ⟨0x2A, [0x00, 0x00, 0x00, 0xF0], none⟩, ⟨0x2B, [0x00, 0x00, 0x00, 0xF0], none⟩,
   ⟨0x21, [], some 10⟩, ⟨0x13, [], some 10⟩, ⟨0x29, [], some 500⟩]

theorem test_assemble_listing :
    assemble 9 listing = some
      [0x09, 0x01, 0x80, 0x96, 0x11, 0x80, 0xFF, 0x3A, 0x81, 0x55, 0x0A, 0x36, 0x01, 0x00,
       0x2A, 0x04, 0x00, 0x00, 0x00, 0xF0, 0x2B, 0x04, 0x00, 0x00, 0x00, 0xF0, 0x21, 0x80, 0x0A, 0x13, 0x80, 0x0A,
       0x29, 0x80, 0xFF] := by decide

theorem test_assemble_errors :
    asmDelayByte 255 = none ∧ asmDelayByte 254 = some 254 ∧ asmDelayByte 501 = none ∧ assemble 8 listing = none ∧
      asmMnemonicLine "COLMOD" [0x55] (some 10) = some ⟨0x3A, [0x55], some 10⟩ := by decide

/-! ### Witnesses: a state and operands that meet each obligation's hypotheses -/

theorem test_witness_RecordRunsTheRecordRule :
    (Instr.cmd 0xAA (List.replicate 127 0x5A) (some 0xFF)).rawRecord? = some ⟨0xAA, List.replicate 127 0x5A, some 0xFF⟩ ∧
      (Instr.cmd 0xAA (List.replicate 127 0x5A) (some 0xFF)).wf = true ∧
      (Instr.ramwr [] none).rawRecord? = some ⟨0x2C, [], none⟩ ∧ (Instr.ramwr [] none).wf = true ∧
      (interpretingAt .ciOpc 1 1).cnt ≠ 0 := ⟨rfl, test_wf_127_args, rfl, by decide, by decide⟩

theorem test_witness_DelayDirectiveEmitsOneDelay : (254 : Byte) ≠ 255 ∧ (0 : Byte) ≠ 255 := by decide

theorem test_witness_RunProgOnWellFormedProgram :
    wellFormed State.reset (0 : Word).toNat 35 = true ∧ wellFormed (withRom [0x00] 1) (0 : Word).toNat 1 = true := by
  decide

theorem test_witness_RunProgRefused_runs : ∃ len, wellFormed State.reset (0 : Word).toNat len = true :=
  ⟨35, by decide⟩

theorem test_witness_RunProgRefused_stops (len : Nat) :
    wellFormed (withRom [0x01, 0xAA, 0x02, 0x11] 4) (0 : Word).toNat len = false := by
  by_cases h : len ≤ 4
  · have : ∀ n : Fin 5, wellFormed (withRom [0x01, 0xAA, 0x02, 0x11] 4) (0 : Word).toNat n.val = false := by decide
    exact this ⟨len, by omega⟩
  · have h' : ¬ ((0 : Word).toNat + len ≤ (withRom [0x01, 0xAA, 0x02, 0x11] 4).romSize.val) := by
      rw [show (withRom [0x01, 0xAA, 0x02, 0x11] 4).romSize.val = 4 from rfl]
      simpa using h
    unfold wellFormed
    rw [decide_eq_false h', Bool.false_and]

theorem test_witness_EmptyProgramEmitsNothing :
    (0 : Word).toNat < (withRom [0x00] 1).romSize.val ∧ Memory.read (withRom [0x00] 1).rom (0 : Word).toNat = 0 := by
  decide

theorem test_witness_DecodedLengthBounds :
    decodedLength [] 35 0 = some 35 ∧ decodedLength (withRom [0x00] 1).rom 1 0 = some 1 := by decide

theorem test_witness_RomReadBounds : 34 < State.reset.romSize.val ∧ State.reset.romSize.val ≤ 35 := by decide

theorem test_witness_RomStoreLaws : Memory.wf [] = true ∧ Memory.wf [(0, 0x08), (40, 0x01)] = true := by decide

theorem test_witness_FillRectPaintsClippedRectangle :
    ready.busy = false ∧ ready.phase = .ready ∧ ready.geo = panelConstants ∧ (239 : Word).toNat < 240 ∧
      (65535 : Word) ≠ 0 ∧ (1 : Word) ≠ 0 := by decide

theorem test_witness_FillRectOffPanelIsNoOp :
    ready.busy = false ∧ ready.phase = .ready ∧ ready.geo.width.toNat ≤ (240 : Word).toNat ∧
      ready.geo.height.toNat ≤ (240 : Word).toNat := by decide

theorem test_witness_FillRectRefusedOnlyWhenEmptyOnPanel :
    ready.busy = false ∧ ready.phase = .ready ∧
      ((239 : Word).toNat < ready.geo.width.toNat ∧ (239 : Word).toNat < ready.geo.height.toNat ∧
        ((0 : Word) = 0 ∨ (1 : Word) = 0)) ∧
      ¬((239 : Word).toNat < ready.geo.width.toNat ∧ (239 : Word).toNat < ready.geo.height.toNat ∧
        ((1 : Word) = 0 ∨ (1 : Word) = 0)) ∧
      ¬((240 : Word).toNat < ready.geo.width.toNat ∧ (0 : Word).toNat < ready.geo.height.toNat ∧
        ((0 : Word) = 0 ∨ (0 : Word) = 0)) := by decide

theorem test_witness_FillScreenPaintsThePanel :
    (ready.busy = false ∧ ready.phase = .ready ∧ ready.geo = panelConstants) ∧
      ({ ready with busy := true } : State).busy = true ∧ State.reset.phase ≠ .ready := by decide

theorem test_witness_ClipStaysOnPanel :
    (239 : Word).toNat < (240 : Word).toNat ∧ (65535 : Word) ≠ 0 ∧ (239 : Word).toNat < 240 := by decide

theorem test_witness_InitBringsThePanelUp :
    (State.reset.busy = false ∧ State.reset.phase = .unpowered) ∧ (ready.busy = false ∧ ready.phase = .ready) ∧
      wellFormed State.reset Config.initBase.toNat State.reset.initLen = true ∧
      wellFormed ready Config.initBase.toNat ready.initLen = true := by decide

theorem test_witness_ConformingInit :
    ConformingInit Config.defaultParams State.reset ∧ State.reset.busy = false ∧ State.reset.phase = .unpowered := by
  refine ⟨⟨by decide, by decide, ?_⟩, rfl, rfl⟩
  have : ∀ i : Fin 35, some (Memory.read State.reset.rom i.val) = (Config.initImage Config.defaultParams)[i.val]? := by
    decide
  exact fun i h => this ⟨i, h⟩

theorem test_witness_init_completes : ∃ t, exec .init State.reset = .next t := ⟨_, rfl⟩

theorem test_witness_InitRefusesMalformedProgram :
    (withRom [0x09, 0x01, 0x80] 3).busy = false ∧ (withRom [0x09, 0x01, 0x80] 3).phase = .unpowered ∧
      wellFormed (withRom [0x09, 0x01, 0x80] 3) Config.initBase.toNat (withRom [0x09, 0x01, 0x80] 3).initLen = false := by
  decide

theorem test_witness_other_instruction_completes : ∃ t, Instr.resetpulse ≠ .init ∧ exec .resetpulse ready = .next t :=
  ⟨_, by decide, rfl⟩

theorem test_witness_ComponentsKeepToTheirRegisters :
    (∃ t, exec (.cmd 0xAA [0x55] (some 0)) (interpretingAt .ciOpc 1 1) = .next t) ∧
      ∃ t, exec (.fillrect 239 239 1 1 0) ready = .next t := ⟨⟨_, rfl⟩, ⟨_, rfl⟩⟩

theorem test_ready_state : ReadyState ready := by unfold ReadyState; decide

theorem test_witness_fills_from_ready :
    ReadyState ready ∧ (∃ t, exec (.fillrect 240 0 1 1 0) ready = .next t) ∧
      ∃ t, exec (.fillscreen 0) ready = .next t :=
  ⟨test_ready_state, ⟨_, rfl⟩, ⟨_, Laws.execFillrect_painted (s := ready) rfl (by decide) (by decide) (by decide) (by decide)⟩⟩

/-- A block in the middle of INIT. -/
def inInit (pos : Pos) (phase : Phase) : State :=
  { ready with busy := true, phase := phase, ctl := { caller := .init, pos := pos } }

theorem test_inv_inInit :
    Inv (inInit .initPins .ready) ∧ Inv { inInit .initPins .unpowered with pin := State.reset.pin } ∧
      Inv (inInit .progStart .resetting) ∧ Inv (inInit .initLatch .programExecuting) := by
  refine ⟨?_, ?_, ?_, ?_⟩ <;> constructor <;> decide

theorem test_witness_PhaseMovesOnlyForwardAndInsideInit :
    (nextOf (seqStep (inInit .initPins .ready))).map State.phase = some .resetting ∧
      (nextOf (seqStep (inInit .initPins .unpowered))).map State.phase = some .resetting ∧
      (nextOf (seqStep (inInit .progStart .resetting))).map State.phase = some .programExecuting ∧
      (nextOf (seqStep (inInit .initLatch .programExecuting))).map State.phase = some .ready := by decide

theorem test_witness_HostOperationIgnoresWorkingRegisters :
    let s := State.reset
    let s' := { State.reset with pp := 7, dat := 9, trace := [.delay 1] }
    s.rom = s'.rom ∧ s.romSize = s'.romSize ∧ s.initLen = s'.initLen ∧ s.phase = s'.phase ∧ s.busy = s'.busy ∧
      s.geo = s'.geo := by decide

/-- A port word for the whole panel and one for a rectangle off it. -/
def requests : List PortWord := [mkPortWord 1 0 0 0 0 0xF800, mkPortWord 2 240 0 0 0 0]

theorem test_witness_ReadyBlockRunsAnyFills :
    ({ ready with port := requests } : State).ctl = Ctl.idle ∧ ({ ready with port := requests } : State).busy = false ∧
      ∀ w, w ∈ requests →
        (∃ color, decodePort w = .fillscreen color) ∨
          ∃ x y a b color, decodePort w = .fillrect x y a b color ∧
            (240 ≤ x.toNat ∨ 240 ≤ y.toNat ∨ (a ≠ 0 ∧ b ≠ 0)) := by
  refine ⟨rfl, rfl, fun w hw => ?_⟩
  simp only [requests, List.mem_cons, List.not_mem_nil, or_false] at hw
  rcases hw with rfl | rfl
  · exact .inl ⟨0xF800, by decide⟩
  · exact .inr ⟨240, 0, 0, 0, 0, by decide, by decide⟩

theorem test_inv_reset : Inv State.reset ∧ Inv { State.reset with port := [0] } := by
  refine ⟨?_, ?_⟩ <;> constructor <;> decide

theorem test_witness_steps_complete :
    (∃ t, step { State.reset with port := [0] } = .next t) ∧ ∃ t, seqStep { State.reset with port := [0] } = .next t :=
  ⟨⟨_, rfl⟩, ⟨_, rfl⟩⟩

theorem test_witness_IdleBlockIsSettled : State.reset.ctl.pos = .idle := rfl

theorem test_witness_StepRunsTheHostOperation :
    State.reset.port = [] ∧ ({ State.reset with port := [0, 1] } : State).port = 0 :: [1] ∧
      ({ State.reset with port := [0, 1] } : State).ctl.pos = .idle := by decide

theorem test_witness_StepRunsTheRecordAtPp :
    RomHolds (interpretingAt .ciOpc 32 1) 32 [0x29, 0x80, 0xFF] ∧
      decode (.record [0x29, 0x80, 0xFF]) = .ok (.dispon [] (some 255)) ∧
      ({ interpretingAt .ciOpc 32 1 with romSize := 34 } : State).romSize.val < 32 + recordLenAt [] 32 := by
  refine ⟨⟨by decide, ?_⟩, by decide, by decide⟩
  have : ∀ i : Fin 3, some (Memory.read (interpretingAt .ciOpc 32 1).rom (32 + i.val)) =
      ([0x29, 0x80, 0xFF] : List Byte)[i.val]? := by decide
  exact fun i h => this ⟨i, h⟩

/-- A record cut short after its opcode, before its delay byte, and one that begins at the end of the ROM. -/
theorem test_witness_CutShortRecordStopsAtTheRefusedRead :
    (interpretingAt .ciOpc 32 1).ctl.pos = .ciOpc ∧
      ({ interpretingAt .ciOpc 32 1 with romSize := 33 } : State).romSize.val < (32 : Word).toNat + recordLenAt [] 32 ∧
      ({ interpretingAt .ciOpc 32 1 with romSize := 34 } : State).romSize.val < (32 : Word).toNat + recordLenAt [] 32 ∧
      (interpretingAt .ciOpc 35 1).romSize.val < (35 : Word).toNat + recordLenAt [] 35 := by decide

theorem test_witness_step_refused :
    step (interpretingAt .ciDlyb 35 1) = .refused (.romOutOfRange []) := rfl

theorem test_witness_StepRunsTheDelayByteAtPp :
    (interpretingAt .ciDlyb 34 1).pp.toNat < (interpretingAt .ciDlyb 34 1).romSize.val ∧
      decode (.delayByte (Memory.read [] 34)) = .ok .dly500 ∧
      (interpretingAt .ciDlyb 35 1).romSize.val ≤ (interpretingAt .ciDlyb 35 1).pp.toNat := by decide

theorem test_witness_StepRunsTheSubOperation :
    [SubOp.writeCommand, .writeData, .streamPixels, .runProg, .setAddrWindow, .resetPulse].map
      (fun op => (decode (.subop op.code operands)).toOption) =
    [some (.writecommand 1), some (.writedata 2), some (.streampixels 3 4 5), some (.runprog 6),
      some (.setaddrwindow 7 8 9 10), some .resetpulse] := by decide

theorem test_witness_SmallStepInterpreterIsRunProg :
    State.reset.ctl.caller = .none ∧ (∃ t, exec (.runprog 0) State.reset = .next t) ∧
      exec (.runprog 35) State.reset = .refused (.romOutOfRange []) := ⟨rfl, ⟨_, rfl⟩, rfl⟩

theorem test_witness_SmallStepSequencerIsTheMeaning :
    (∃ t, exec (decodePort 0) State.reset = .next t) ∧
      exec (decodePort (mkPortWord 3 0 0 0 0 0)) State.reset = .refused .reservedHostOp := ⟨⟨_, rfl⟩, rfl⟩

theorem test_witness_SmallStepSubOperationIsTheMeaning :
    (∃ t, step { State.reset with ctl := { caller := .none, pos := .sub .resetPulse } } = .next t) ∧
      step { State.reset with ctl := { caller := .none, pos := .sub .runProg }, pp := 35 } =
        .refused (.romOutOfRange []) :=
  ⟨⟨_, rfl⟩, rfl⟩

theorem test_witness_DecodeEncode :
    ([.caset [1, 2, 3, 4] none, .cmd 0xFF [] (some 255), .dlyms 254, .fillrect 1 2 3 4 5, .setaddrwindow 1 2 3 4] :
      List Instr).all Instr.wf = true := by decide

theorem test_witness_RecordDecodingLosesNothing :
    decodeRecord [0xAA, 0x81, 0x55, 0xFE, 0x99] = .ok (⟨0xAA, [0x55], some 0xFE⟩, [0x99]) := by decide

theorem test_witness_ArgsByteFields :
    (argCount 0xFF).toNat + (hasDelay 0xFF).toNat ≤ (List.replicate 128 (0 : Byte)).length ∧
      (argCount 0x00).toNat + (hasDelay 0x00).toNat ≤ ([] : List Byte).length := by
  refine ⟨?_, by decide⟩
  rw [List.length_replicate]
  decide

theorem test_witness_AssembledProgramIsTheListing :
    (∃ bytes, assemble 9 listing = some bytes ∧ RomHolds State.reset 0 bytes) ∧ ∃ rs, asmRecords listing = some rs := by
  refine ⟨⟨Config.defaultImage, by decide, by decide, ?_⟩, ⟨_, rfl⟩⟩
  have : ∀ i : Fin 35, some (Memory.read State.reset.rom (0 + i.val)) = Config.defaultImage[i.val]? := by decide
  exact fun i h => this ⟨i, h⟩

end Sys2Proof.Tests
end

section
/-! PROOFS. What a completed instruction has done, said once, as one case per group of instructions; from it the bus
discipline of the appended events and the registers each component keeps to. -/

namespace Sys2Proof.Proofs

open Sys2Proof Sys2Proof.Machine Sys2Proof.Safety Sys2Proof.Laws

/-! ### Completed instructions -/

/-- A completed instruction and the state it leaves: the inversion of `exec`. A fill ends at its operand latch (R197) or
painted (R195); FILLSCREEN is a fill of the whole panel (R199). -/
inductive Completed (s : State) : Instr → State → Prop where
  | record {i : Instr} (r : RawRecord) (hr : i.rawRecord? = some r) : Completed s i (runRecord r s)
  | dly500 : Completed s .dly500 (delayDirective 255 s)
  | dlyms (d : Byte) : Completed s (.dlyms d) (delayDirective d s)
  | init (ha : acceptInit s = none) (hl : launchable s = true) : Completed s .init (initEnd s)
  | fillOff {i : Instr} (x y w h color : Word) (hi : i = .fillrect x y w h color ∨ i = .fillscreen color)
      (ha : acceptFill s = none) : Completed s i (latchRect x y w h color s)
  | fillPainted {i : Instr} (x y w h color : Word) (hi : i = .fillrect x y w h color ∨ i = .fillscreen color)
      (ha : acceptFill s = none) : Completed s i (paintRect (clipRect (latchRect x y w h color s)))
  | writecommand (b : Byte) : Completed s (.writecommand b) (writeCommand b s)
  | writedata (b : Byte) : Completed s (.writedata b) (writeData b s)
  | streampixels (hi lo : Byte) (n : Word) : Completed s (.streampixels hi lo n) (streamPixels hi lo n s)
  | runprog (base : Word) : Completed s (.runprog base)
      (runAll (programRecords s.rom base.toNat) { s with pp := base + 1, cnt := Memory.read s.rom base.toNat })
  | setaddrwindow (x0 y0 x1 y1 : Word) : Completed s (.setaddrwindow x0 y0 x1 y1) (setAddrWindow x0 y0 x1 y1 s)
  | resetpulse : Completed s .resetpulse (resetPulse s)

theorem completed_fill {i : Instr} {x y w h color : Word} {s t : State}
    (hi : i = .fillrect x y w h color ∨ i = .fillscreen color) (ht : execFillrect x y w h color s = .next t) :
    Completed s i t := by
  rcases execFillrect_cases x y w h color s with ⟨ha, _, e⟩ | ⟨_, _, _, _, e⟩ | ⟨ha, _, _, _, _, e⟩ | ⟨_, e⟩ <;>
    rw [e] at ht <;> cases ht
  · exact .fillOff x y w h color hi ha
  · exact .fillPainted x y w h color hi ha

/-- What an instruction that completes has done (R140, R142, R144, R195, R222). -/
theorem completed_of_exec {i : Instr} {s t : State} (h : exec i s = .next t) : Completed s i t := by
  cases hr : i.rawRecord? with
  | some r =>
    rw [exec_record hr] at h
    cases h
    exact .record r hr
  | none =>
    cases i with
    | dly500 => cases h; exact .dly500
    | dlyms d => cases h; exact .dlyms d
    | init =>
      rcases execInit_cases s with ⟨ha, hl, e⟩ | ⟨_, _, e⟩ | ⟨_, e⟩ <;> cases e.symm.trans h
      exact .init ha hl
    | fillscreen color => exact completed_fill (.inr rfl) h
    | fillrect x y w h' color => exact completed_fill (.inl rfl) h
    | reservedOp3 => cases h
    | writecommand b => cases h; exact .writecommand b
    | writedata b => cases h; exact .writedata b
    | streampixels hi lo n => cases h; exact .streampixels hi lo n
    | runprog base =>
      rcases runProgram_cases base s with ⟨_, _, e⟩ | ⟨_, e⟩ <;> cases e.symm.trans h
      exact .runprog base
    | setaddrwindow x0 y0 x1 y1 => cases h; exact .setaddrwindow x0 y0 x1 y1
    | resetpulse => cases h; exact .resetpulse
    | _ => cases hr

/-! ### The blocks a trace is made of -/

/-- The traces built from whole blocks: logical writes, delays, the reset pulse, the pin directions, pixel streams. -/
inductive Blocks : List Event → Prop where
  | nil : Blocks []
  | append {es fs : List Event} (he : Blocks es) (hf : Blocks fs) : Blocks (es ++ fs)
  | command (b : Byte) : Blocks (wc b)
  | data (b : Byte) : Blocks (wd b)
  | delay (d : Byte) : Blocks [.delay (delayMs d).toNat]
  | pulse : Blocks pulseEvents.toList
  | pinDirs : Blocks pinDirs
  | stream (hi lo : Byte) (n : Nat) : Blocks (streamTrace hi lo n)

theorem Blocks.flatMap {α : Type} {f : α → List Event} (hf : ∀ a, Blocks (f a)) (as : List α) :
    Blocks (as.flatMap f) := by
  induction as with
  | nil => exact .nil
  | cons a as ih => exact .append (hf a) ih

theorem blocks_recordTrace (r : RawRecord) : Blocks (recordTrace r) := by
  obtain ⟨o, as, delay⟩ := r
  refine .append (.append (.command o) (Blocks.flatMap .data as)) ?_
  cases delay with
  | none => exact .nil
  | some d => exact .delay d

theorem blocks_programTrace (m : Memory) (base : Nat) : Blocks (programTrace m base) :=
  Blocks.flatMap blocks_recordTrace _

theorem blocks_windowTrace (x0 y0 x1 y1 : Word) : Blocks (windowTrace x0 y0 x1 y1) := by
  have dataAfter {es : List Event} (b : Byte) (h : Blocks es) : Blocks (es ++ wd b) := h.append (.data b)
  exact .append (dataAfter _ <| dataAfter _ <| dataAfter _ <| dataAfter _ <|
    .append (dataAfter _ <| dataAfter _ <| dataAfter _ <| dataAfter _ <| .command _) (.command _)) (.command _)

/-- A completed instruction appends whole blocks to the trace. -/
theorem Completed.blocks {i : Instr} {s t : State} (h : Completed s i t) :
    ∃ es, t.trace = s.trace ++ es ∧ Blocks es := by
  cases h with
  | record r hr => exact ⟨_, runRecord_trace r s, blocks_recordTrace r⟩
  | dly500 => exact ⟨_, rfl, .delay 255⟩
  | dlyms d => exact ⟨_, rfl, .delay d⟩
  | init ha hl =>
    obtain ⟨_, _, _, _, _, _, _, _, _, _, e, _⟩ := initEnd_shape s
    rw [e]
    exact ⟨_, rfl, .append (.append (.append .pinDirs .pulse) (blocks_programTrace _ _)) (.data 0)⟩
  | fillOff x y w h color hi ha => exact ⟨[], by simp, .nil⟩
  | fillPainted x y w h color hi ha =>
    rw [painted_eq]
    exact ⟨_, rfl, .append (blocks_windowTrace _ _ _ _) (.stream _ _ _)⟩
  | writecommand b => exact ⟨_, rfl, .command b⟩
  | writedata b => exact ⟨_, rfl, .data b⟩
  | streampixels hi lo n => exact ⟨_, rfl, .stream hi lo n.toNat⟩
  | runprog base => exact ⟨_, runAll_trace _ _, blocks_programTrace s.rom base.toNat⟩
  | setaddrwindow x0 y0 x1 y1 =>
    rw [setAddrWindow_eq]
    exact ⟨_, rfl, blocks_windowTrace x0 y0 x1 y1⟩
  | resetpulse => exact ⟨_, rfl, .pulse⟩

/-! ### The bus discipline -/

theorem watch_append (m : BusMonitor) (es fs : List Event) :
    m.watch (es ++ fs) = (m.watch es).bind fun m' => m'.watch fs := by
  induction es generalizing m with
  | nil => rfl
  | cons e es ih =>
    simp only [List.cons_append, BusMonitor.watch]
    cases m.see e with
    | none => rfl
    | some m' => exact ih m'

theorem busOk_iff {es : List Event} : busOk es = true ↔ BusMonitor.rest.watch es = some .rest := beq_iff_eq

theorem busOk_append {es fs : List Event} (he : busOk es = true) (hf : busOk fs = true) : busOk (es ++ fs) = true := by
  rw [busOk_iff] at he hf ⊢
  rw [watch_append, he]
  exact hf

/-- Inside a stream, with the chip selected and DC driven, pixels leave the monitor as it is (R126). -/
theorem watch_pixelRun (hi lo : Byte) (n : Nat) :
    BusMonitor.watch ⟨true, true, true⟩ (pixelRun hi lo n) = some ⟨true, true, true⟩ := by
  induction n with
  | zero => rfl
  | succ n ih => rw [pixelRun_succ, watch_append]; exact ih

theorem busOk_streamTrace (hi lo : Byte) (n : Nat) : busOk (streamTrace hi lo n) = true := by
  have head : BusMonitor.rest.watch streamHead = some ⟨true, true, true⟩ := rfl
  rw [busOk_iff, streamTrace, watch_append, watch_append, head, Option.bind_some, watch_pixelRun]
  rfl

/-- Every block keeps the discipline and leaves the bus at rest, so any sequence of blocks does. -/
theorem Blocks.busOk {es : List Event} (h : Blocks es) : busOk es = true := by
  induction h with
  | nil => rfl
  | append _ _ he hf => exact busOk_append he hf
  | command b => rfl
  | data b => rfl
  | delay d => rfl
  | pulse => rfl
  | pinDirs => rfl
  | stream hi lo n => exact busOk_streamTrace hi lo n

/-- Settles O37: a completed instruction appends whole blocks, and each block keeps the discipline. -/
theorem everyInstructionKeepsBusDiscipline : Obligations.EveryInstructionKeepsBusDiscipline := by
  intro i s t h
  obtain ⟨es, ht, hb⟩ := (completed_of_exec h).blocks
  exact ⟨es, ht, hb.busOk⟩

/-! ### The registers of each component -/

/-- The working registers of the window writer and of the pixel stream (R29, R30, R44). -/
def windowRegisters (s : State) :=
  (s.fx, s.fy, s.fw, s.fh, s.color, s.x0, s.y0, s.x1, s.y1, s.pixhi, s.pixlo, s.pixcnt)

/-- The interpreter's working registers but for the shared `DAT` and `MS` (R22 to R27, R44). -/
def interpreterRegisters (s : State) := (s.pp, s.cnt, s.opc, s.args, s.dlyf, s.argc, s.dly)

/-- Every instruction but the fills and streams. -/
def NoFillOrStream : Instr → Prop
  | .fillscreen _ | .fillrect _ _ _ _ _ | .streampixels _ _ _ => False
  | _ => True

/-- The instructions of the window writer and of the bus, and RESETPULSE. -/
def FillWindowOrBus : Instr → Prop
  | .fillscreen _ | .fillrect _ _ _ _ _ | .streampixels _ _ _ | .setaddrwindow _ _ _ _ | .writecommand _
  | .writedata _ | .resetpulse => True
  | _ => False

theorem FillWindowOrBus.not_record {i : Instr} (hi : FillWindowOrBus i) : i.rawRecord? = none := by
  cases i with
  | fillscreen | fillrect | streampixels | setaddrwindow | writecommand | writedata | resetpulse => rfl
  | _ => exact hi.elim

theorem windowRegisters_of_interpreterOnly {s t : State} (h : InterpreterOnly s t) :
    windowRegisters t = windowRegisters s := (congrArg windowRegisters h.1).trans rfl

/-- All but fills and streams leave the window writer's registers (R31). -/
theorem Completed.windowRegisters_eq {i : Instr} {s t : State} (h : Completed s i t) (hi : NoFillOrStream i) :
    windowRegisters t = windowRegisters s := by
  cases h with
  | record r hr => exact windowRegisters_of_interpreterOnly (runRecord_interpreterOnly r s)
  | init ha hl =>
    obtain ⟨_, _, _, _, _, _, _, _, _, _, e, _⟩ := initEnd_shape s
    rw [e]
    rfl
  | fillOff x y w h color hf ha => rcases hf with rfl | rfl <;> exact hi.elim
  | fillPainted x y w h color hf ha => rcases hf with rfl | rfl <;> exact hi.elim
  | streampixels hi' lo n => exact hi.elim
  | runprog base => exact windowRegisters_of_interpreterOnly (runAll_interpreterOnly _ _)
  | setaddrwindow x0 y0 x1 y1 => rw [setAddrWindow_eq]; rfl
  | dly500 | dlyms | writecommand | writedata | resetpulse => rfl

/-- Fills, window and bus operations leave the interpreter's registers (R31). -/
theorem Completed.interpreterRegisters_eq {i : Instr} {s t : State} (h : Completed s i t) (hi : FillWindowOrBus i) :
    interpreterRegisters t = interpreterRegisters s := by
  cases h with
  | record r hr => cases hi.not_record.symm.trans hr
  | fillPainted x y w h color hf ha => rw [painted_eq]; rfl
  | setaddrwindow x0 y0 x1 y1 => rw [setAddrWindow_eq]; rfl
  | fillOff | writecommand | writedata | streampixels | resetpulse => rfl
  | dly500 | dlyms | init | runprog => exact hi.elim

/-- Of these only RESETPULSE loads `MS` (R220). -/
theorem Completed.ms_eq {i : Instr} {s t : State} (h : Completed s i t) (hi : FillWindowOrBus i)
    (hp : i ≠ .resetpulse) : t.ms = s.ms := by
  cases h with
  | record r hr => cases hi.not_record.symm.trans hr
  | fillPainted x y w h color hf ha => rw [painted_eq]
  | setaddrwindow x0 y0 x1 y1 => rw [setAddrWindow_eq]
  | resetpulse => exact absurd rfl hp
  | fillOff | writecommand | writedata | streampixels => rfl
  | dly500 | dlyms | init | runprog => exact hi.elim

/-- Settles O32: the two frames of a completed instruction, written out register by register. -/
theorem componentsKeepToTheirRegisters : Obligations.ComponentsKeepToTheirRegisters := by
  intro i s t h
  have hc := completed_of_exec h
  refine ⟨fun hm => ?_, fun hm => ?_⟩
  · have hi : NoFillOrStream i := by cases i <;> exact hm
    simpa only [windowRegisters, Prod.mk.injEq] using hc.windowRegisters_eq hi
  · have hi : FillWindowOrBus i := by cases i <;> exact hm
    have hr := hc.interpreterRegisters_eq hi
    simp only [interpreterRegisters, Prod.mk.injEq] at hr
    obtain ⟨hpp, hcnt, hopc, hargs, hdlyf, hargc, hdly⟩ := hr
    exact ⟨hpp, hcnt, hopc, hargs, hdlyf, hargc, hdly, hc.ms_eq hi⟩

end Sys2Proof.Proofs
end

section
/-! PROOFS. The invariant: it holds at reset, every small step keeps it, and so does every step of the machine. -/

namespace Sys2Proof.Proofs

open Sys2Proof Sys2Proof.Machine Sys2Proof.Safety Sys2Proof.Laws

/-! ### Callers and phases of each position (R150, R222, R246, R247) -/

/-- At `IDLE` no caller is left and the phase is `Unpowered` or `Ready` (R246, R247). -/
theorem positionOk_idle {c : Caller} {ph : Phase} :
    positionOk c .idle ph = true ↔ c = .none ∧ (ph = .unpowered ∨ ph = .ready) := by
  cases c <;> cases ph <;> simp [positionOk]

/-- A sub-operation is selected outside every host operation (R102). -/
theorem positionOk_sub {c : Caller} {op : SubOp} {ph : Phase} :
    positionOk c (.sub op) ph = true ↔ c = .none ∧ (ph = .unpowered ∨ ph = .ready) := by
  cases c <;> cases ph <;> simp [positionOk]

/-- RUNPROG runs alone between operations, or inside INIT in `ProgramExecuting` (R150, R222). -/
theorem positionOk_ciCount {c : Caller} {ph : Phase} :
    positionOk c .ciCount ph = true ↔
      c = .none ∧ (ph = .unpowered ∨ ph = .ready) ∨ c = .init ∧ ph = .programExecuting := by
  cases c <;> cases ph <;> simp [positionOk]

/-- RESETPULSE runs alone, or inside INIT in `Resetting` (R220, R222). -/
theorem positionOk_pulse {c : Caller} {i : Fin 6} {ph : Phase} :
    positionOk c (.pulse i) ph = true ↔
      c = .none ∧ (ph = .unpowered ∨ ph = .ready) ∨ c = .init ∧ ph = .resetting := by
  cases c <;> cases ph <;> simp [positionOk]

/-- Windows and streams run alone, or inside a fill in `Ready` (R195). -/
theorem positionOk_window {c : Caller} {i : Fin 11} {ph : Phase} :
    positionOk c (.window i) ph = true ↔ c = .none ∧ (ph = .unpowered ∨ ph = .ready) ∨ c = .fill ∧ ph = .ready := by
  cases c <;> cases ph <;> simp [positionOk]

/-- INIT begins between operations (R246). -/
theorem positionOk_initPins {c : Caller} {ph : Phase} :
    positionOk c .initPins ph = true ↔ c = .init ∧ (ph = .unpowered ∨ ph = .ready) := by
  cases c <;> cases ph <;> simp [positionOk]

theorem positionOk_progStart {c : Caller} {ph : Phase} :
    positionOk c .progStart ph = true ↔ c = .init ∧ ph = .resetting := by
  cases c <;> cases ph <;> simp [positionOk]

theorem positionOk_initPost {c : Caller} {ph : Phase} :
    positionOk c .initPost ph = true ↔ c = .init ∧ ph = .programExecuting := by
  cases c <;> cases ph <;> simp [positionOk]

theorem positionOk_fillTest {c : Caller} {ph : Phase} :
    positionOk c .fillTest ph = true ↔ c = .fill ∧ ph = .ready := by
  cases c <;> cases ph <;> simp [positionOk]

theorem positionOk_interpreting {p : Pos} (hp : Interpreting p = true) (c : Caller) (ph : Phase) :
    positionOk c p ph = positionOk c .ciCount ph := by
  cases p
  case ciCount | ciOpc | ciHdr | ciArg | ciDlyb | ciWait => rfl
  all_goals cases hp

/-- `Resetting` and `ProgramExecuting` are seen inside INIT only, past its first position (R247). -/
theorem init_of_positionOk {c : Caller} {p : Pos} {ph : Phase} (h : positionOk c p ph = true) (hu : ph ≠ .unpowered)
    (hr : ph ≠ .ready) : c = .init ∧ p ≠ .initPins := by
  cases c with
  | init => exact ⟨rfl, by rintro rfl; cases ph <;> simp_all [positionOk]⟩
  | none | fill => cases ph <;> simp_all [positionOk]

/-- Past INIT's first position the phase is no longer `Unpowered` (R222). -/
theorem not_unpowered_of_positionOk {p : Pos} {ph : Phase} (h : positionOk .init p ph = true) (hp : p ≠ .initPins) :
    ph ≠ .unpowered := by
  rintro rfl
  cases p
  case initPins => exact hp rfl
  all_goals cases h

/-! ### The invariant in two parts -/

/-- What the invariant says of the block wherever the sequencer stands. -/
structure Settled (s : State) : Prop where
  romWf : Memory.wf s.rom = true
  busyCaller : s.busy = !(s.ctl.caller == .none)
  geometry : s.phase = .ready → s.geo = panelConstants
  configured : s.phase ≠ .unpowered → s.buscfg = busConstants ∧ s.dir = allOutputs
  deselected : s.phase = .ready → s.txn = false → s.pin.cs = true
  msRange : s.ms.toNat ≤ 254 ∨ s.ms = 500

/-- What must be left to do at a position: a record, an argument, a pixel; at the latch the chip is deselected. -/
def Due (s : State) : Pos → Prop
  | .ciOpc | .ciHdr | .ciDlyb | .ciWait => s.cnt ≠ 0
  | .ciArg => s.cnt ≠ 0 ∧ s.argc ≠ 0
  | .streamPix => s.pixcnt ≠ 0
  | .initLatch => s.pin.cs = true
  | .idle | .sub _ | .initPins | .pulse _ | .progStart | .ciCount | .initPost | .fillTest | .window _ | .pixLoad
  | .streamOpen | .streamClose => True

/-- What the invariant says of the block because the sequencer stands at `p`. -/
structure Placed (s : State) (p : Pos) : Prop where
  position : positionOk s.ctl.caller p s.phase = true
  txnStream : s.txn = InStream p
  due : Due s p

theorem settled_of_inv {s : State} (h : Inv s) : Settled s where
  romWf := h.romWf
  busyCaller := h.busyCaller
  geometry hr := (h.readyConstants hr).1
  configured hu := by
    by_cases hr : s.phase = .ready
    · exact (h.readyConstants hr).2
    · obtain ⟨hc, hp⟩ := init_of_positionOk h.position hu hr
      exact h.initConstants hc hp
  deselected hr := h.deselected (.inl hr)
  msRange := h.msRange

theorem placed_of_inv {s : State} (h : Inv s) : Placed s s.ctl.pos where
  position := h.position
  txnStream := h.txnStream
  due := by
    have htxn := h.txnStream
    have hlatch := h.deselected
    have hrec := h.recordDue
    have harg := h.argDue
    have hpix := h.pixelDue
    cases hp : s.ctl.pos <;> rw [hp] at htxn hlatch hrec harg hpix
    case ciOpc | ciHdr | ciDlyb | ciWait => exact hrec rfl
    case ciArg => exact ⟨hrec rfl, harg rfl⟩
    case streamPix => exact hpix rfl
    case initLatch => exact hlatch (.inr rfl) htxn
    all_goals trivial

/-- The two parts make up the invariant. -/
theorem Settled.inv {s : State} (h : Settled s) (hp : Placed s s.ctl.pos) : Inv s where
  romWf := h.romWf
  position := hp.position
  busyCaller := h.busyCaller
  txnStream := hp.txnStream
  readyConstants hr := ⟨h.geometry hr, h.configured (by simp [hr])⟩
  initConstants hc hn := h.configured (not_unpowered_of_positionOk (hc ▸ hp.position) hn)
  deselected hd ht := by
    rcases hd with hr | hl
    · exact h.deselected hr ht
    · have := hp.due
      rwa [hl] at this
  recordDue hr := by
    have hd := hp.due
    cases hpos : s.ctl.pos <;> rw [hpos] at hr hd
    case ciOpc | ciHdr | ciDlyb | ciWait => exact hd
    case ciArg => exact hd.1
    all_goals cases hr
  argDue ha := by
    have hd := hp.due
    rw [ha] at hd
    exact hd.2
  pixelDue hx := by
    have hd := hp.due
    rwa [hx] at hd
  msRange := h.msRange

/-- Settles O42: the reset state clause by clause. -/
theorem invariantAtReset : Obligations.InvariantAtReset where
  romWf := rfl
  position := rfl
  busyCaller := rfl
  txnStream := rfl
  readyConstants := nofun
  initConstants := nofun
  deselected := by rintro (h | h) <;> cases h
  recordDue := nofun
  argDue := nofun
  pixelDue := nofun
  msRange := .inl (Nat.zero_le _)

/-- Settles O45: `positionOk` leaves no caller at `IDLE`, and `BUSY` is 1 only for a caller. -/
theorem idleBlockIsSettled : Obligations.IdleBlockIsSettled := by
  intro s h hidle
  have hpos := h.position
  have htxn := h.txnStream
  rw [hidle] at hpos htxn
  obtain ⟨hc, hph⟩ := positionOk_idle.mp hpos
  exact ⟨by rw [h.busyCaller, hc]; rfl, htxn, hph⟩

/-! ### Updates that keep the settled part -/

/-- The fields outside `MS`, `TXN` and the pins that the settled part speaks of. -/
def fixedPart (s : State) := (s.rom, s.phase, s.busy, s.ctl.caller, s.geo, s.buscfg, s.dir)

theorem Settled.of_fixedPart {s t : State} (h : Settled s) (hf : fixedPart t = fixedPart s)
    (hcs : s.phase = .ready → t.txn = false → t.pin.cs = true) (hms : t.ms.toNat ≤ 254 ∨ t.ms = 500) :
    Settled t := by
  simp only [fixedPart, Prod.mk.injEq] at hf
  obtain ⟨hrom, hphase, hbusy, hcaller, hgeo, hcfg, hdir⟩ := hf
  exact {
    romWf := by rw [hrom]; exact h.romWf
    busyCaller := by rw [hbusy, hcaller]; exact h.busyCaller
    geometry := by rw [hphase, hgeo]; exact h.geometry
    configured := by rw [hphase, hcfg, hdir]; exact h.configured
    deselected := by rw [hphase]; exact hcs
    msRange := hms }

/-- The delay unit's values (R27, R251). -/
theorem delayMs_range (d : Byte) : (delayMs d).toNat ≤ 254 ∨ delayMs d = 500 := by
  unfold delayMs
  split
  · exact .inr rfl
  · next h =>
    have hne : d.toNat ≠ 255 := fun h' => h (BitVec.eq_of_toNat_eq h')
    have hlt := d.isLt
    left
    rw [BitVec.toNat_setWidth, Nat.mod_eq_of_lt (by omega)]
    omega

theorem runRecord_ms_range {r : RawRecord} {s : State} (h : s.ms.toNat ≤ 254 ∨ s.ms = 500) :
    (runRecord r s).ms.toNat ≤ 254 ∨ (runRecord r s).ms = 500 := by
  rw [runRecord_eq]
  cases hd : r.delay with
  | none => simpa [hd] using h
  | some d => simpa [hd] using delayMs_range d

theorem runAll_ms_range {rs : List RawRecord} {s : State} (h : s.ms.toNat ≤ 254 ∨ s.ms = 500) :
    (runAll rs s).ms.toNat ≤ 254 ∨ (runAll rs s).ms = 500 := by
  induction rs generalizing s with
  | nil => exact h
  | cons r rs ih => exact ih (runRecord_ms_range h)

theorem Settled.writeCommand {s : State} (b : Byte) (h : Settled s) : Settled (writeCommand b s) :=
  h.of_fixedPart rfl (fun _ _ => rfl) h.msRange

theorem Settled.writeData {s : State} (b : Byte) (h : Settled s) : Settled (writeData b s) :=
  h.of_fixedPart rfl (fun _ _ => rfl) h.msRange

theorem Settled.sendData {s : State} (b : Byte) (h : Settled s) : Settled (sendData b s) :=
  h.of_fixedPart rfl (fun _ _ => rfl) h.msRange

theorem Settled.doWrite {s : State} (w : LogicalWrite) (h : Settled s) : Settled (doWrite w s) := by
  cases w with
  | command b => exact h.writeCommand b
  | data b => exact h.sendData b

theorem Settled.delayDirective {s : State} (d : Byte) (h : Settled s) : Settled (delayDirective d s) :=
  h.of_fixedPart rfl h.deselected (delayMs_range d)

theorem Settled.runRecord {s : State} (r : RawRecord) (h : Settled s) : Settled (runRecord r s) :=
  h.of_fixedPart (by rw [runRecord_eq]; rfl) (fun _ _ => by rw [runRecord_eq]; rfl) (runRecord_ms_range h.msRange)

theorem Settled.runAll {s : State} (rs : List RawRecord) (h : Settled s) : Settled (runAll rs s) := by
  induction rs generalizing s with
  | nil => exact h
  | cons r rs ih => exact ih (h.runRecord r)

/-- The end of a host operation, in a phase between operations (R246). -/
theorem Settled.inv_endHost {s : State} (h : Settled s) (hph : s.phase = .unpowered ∨ s.phase = .ready)
    (ht : s.txn = false) : Inv (endHost s) :=
  Settled.inv { h with busyCaller := rfl } ⟨positionOk_idle.mpr ⟨rfl, hph⟩, ht, trivial⟩

theorem Settled.inv_goto {s : State} {p : Pos} (h : Settled s) (hp : Placed s p) : Inv (goto p s) :=
  Settled.inv { h with } ⟨hp.position, hp.txnStream, by have := hp.due; cases p <;> exact this⟩

/-- The acceptance of a host operation: `BUSY` and the caller rise together (R246). -/
def hostStarted (c : Caller) (p : Pos) (s : State) : State := { s with busy := true, ctl := { caller := c, pos := p } }

theorem Settled.inv_hostStarted {s : State} {c : Caller} {p : Pos} (h : Settled s) (hc : c ≠ .none)
    (hp : Placed (hostStarted c p s) p) : Inv (hostStarted c p s) :=
  Settled.inv { h with busyCaller := by change true = !(c == .none); simp [hc] } hp

/-! ### Where a sub-operation returns to -/

theorem returnFrom_of_none {s : State} (op : SubOp) (hc : s.ctl.caller = .none) : returnFrom op s = goto .idle s := by
  simp only [returnFrom, hc, goto, Ctl.idle]

/-- Inside INIT the reset pulse is followed by the program (R222). -/
theorem returnFrom_resetPulse_of_init {s : State} (hc : s.ctl.caller = .init) :
    returnFrom .resetPulse s = goto .progStart s := by
  simp only [returnFrom, hc]

/-- Inside INIT the program is followed by the one data write (R223). -/
theorem returnFrom_runProg_of_init {s : State} (hc : s.ctl.caller = .init) :
    returnFrom .runProg s = goto .initPost s := by
  simp only [returnFrom, hc]

/-- Inside INIT the data write is followed by the latch (R222). -/
theorem returnFrom_writeData_of_init {s : State} (hc : s.ctl.caller = .init) :
    returnFrom .writeData s = goto .initLatch s := by
  simp only [returnFrom, hc]

/-- Inside a fill the window is followed by the pixels (R195). -/
theorem returnFrom_setAddrWindow_of_fill {s : State} (hc : s.ctl.caller = .fill) :
    returnFrom .setAddrWindow s = goto .pixLoad s := by
  simp only [returnFrom, hc]

/-- The stream is the last of a fill (R195). -/
theorem returnFrom_streamPixels_of_fill {s : State} (hc : s.ctl.caller = .fill) :
    returnFrom .streamPixels s = endHost s := by
  simp only [returnFrom, hc]

/-- A sub-operation that nobody called ends at `IDLE`. -/
theorem Settled.inv_returnFrom_none {s : State} (op : SubOp) (h : Settled s) (hc : s.ctl.caller = .none)
    (hph : s.phase = .unpowered ∨ s.phase = .ready) (ht : s.txn = false) : Inv (returnFrom op s) := by
  rw [returnFrom_of_none op hc]
  exact h.inv_goto ⟨positionOk_idle.mpr ⟨hc, hph⟩, ht, trivial⟩

/-! ### The interpreter's small steps -/

/-- What holds of the block between the bytes of a program, wherever the interpreter stands (R148). -/
structure InProgram (s : State) : Prop extends Settled s where
  position : positionOk s.ctl.caller .ciCount s.phase = true
  closed : s.txn = false

theorem InProgram.inv_returnFrom {s : State} (h : InProgram s) : Inv (returnFrom .runProg s) := by
  rcases positionOk_ciCount.mp h.position with ⟨hc, hph⟩ | ⟨hc, hph⟩
  · exact h.toSettled.inv_returnFrom_none .runProg hc hph h.closed
  · rw [returnFrom_runProg_of_init hc]
    exact h.toSettled.inv_goto ⟨by rw [hc, hph]; rfl, h.closed, trivial⟩

theorem InProgram.inv_goto {s : State} {p : Pos} (h : InProgram s) (hp : Interpreting p = true) (hd : Due s p) :
    Inv (goto p s) := by
  refine h.toSettled.inv_goto ⟨by rw [positionOk_interpreting hp]; exact h.position, ?_, hd⟩
  rw [h.closed]
  cases p
  case streamPix | streamClose => cases hp
  all_goals rfl

theorem InProgram.inv_recordDone {s : State} (h : InProgram s) : Inv (recordDone s) := by
  unfold recordDone
  split
  · exact h.inv_returnFrom
  · next hcnt => exact h.inv_goto rfl hcnt

theorem InProgram.inv_nextRecord {s : State} (h : InProgram s) : Inv (nextRecord s) :=
  InProgram.inv_recordDone { h with }

theorem InProgram.inv_afterArgs {s : State} (h : InProgram s) (hcnt : s.cnt ≠ 0) : Inv (afterArgs s) := by
  unfold afterArgs
  split
  · split
    · exact h.inv_goto rfl hcnt
    · exact h.inv_nextRecord
  · next hargc => exact h.inv_goto rfl ⟨hcnt, hargc⟩

theorem inProgram_of_inv {s : State} (h : Inv s) (hi : Interpreting s.ctl.pos = true) : InProgram s where
  toSettled := settled_of_inv h
  position := by rw [← positionOk_interpreting hi]; exact h.position
  closed := by
    have := h.txnStream
    cases hp : s.ctl.pos <;> rw [hp] at hi this
    case streamPix | streamClose => cases hi
    all_goals exact this

theorem inv_seqStep_interpreting {s t : State} (h : Inv s) (hi : Interpreting s.ctl.pos = true)
    (hs : seqStep s = .next t) : Inv t := by
  have hq := inProgram_of_inv h hi
  have hd := (placed_of_inv h).due
  unfold seqStep at hs
  cases hp : s.ctl.pos <;> rw [hp] at hi hs hd
  case ciCount =>
    obtain ⟨_, rfl⟩ := fetchByte_next hs
    exact InProgram.inv_recordDone { hq with }
  case ciOpc =>
    obtain ⟨_, rfl⟩ := fetchByte_next hs
    exact InProgram.inv_goto { hq with closed := rfl, deselected := fun _ _ => rfl } rfl hd
  case ciHdr =>
    obtain ⟨_, rfl⟩ := fetchByte_next hs
    exact InProgram.inv_afterArgs { hq with } hd
  case ciArg =>
    obtain ⟨_, rfl⟩ := fetchByte_next hs
    exact InProgram.inv_afterArgs { hq with closed := rfl, deselected := fun _ _ => rfl } hd.1
  case ciDlyb =>
    obtain ⟨_, rfl⟩ := fetchByte_next hs
    exact InProgram.inv_goto { hq with msRange := delayMs_range _ } rfl hd
  case ciWait =>
    cases hs
    exact InProgram.inv_nextRecord { hq with }
  all_goals cases hi

/-! ### Acceptance and the start of a sub-operation -/

/-- A host operation that starts is an accepted INIT or an accepted fill (R246). -/
theorem startHost_next {i : Instr} {s t : State} (h : startHost i s = .next t) :
    acceptInit s = none ∧ t = hostStarted .init .initPins s ∨
      ∃ x y w h' color, acceptFill s = none ∧ t = hostStarted .fill .fillTest (latchRect x y w h' color s) := by
  cases i with
  | init =>
    simp only [startHost] at h
    split at h
    · cases h
    · next ha => split at h <;> cases h; exact .inl ⟨ha, rfl⟩
  | fillscreen color =>
    simp only [startHost] at h
    split at h <;> cases h
    next ha => exact .inr ⟨_, _, _, _, _, ha, rfl⟩
  | fillrect x y w h' color =>
    simp only [startHost] at h
    split at h <;> cases h
    next ha => exact .inr ⟨_, _, _, _, _, ha, rfl⟩
  | _ => cases h

theorem inv_startHost {i : Instr} {s t : State} (h : Settled s) (ht : s.txn = false) (hs : startHost i s = .next t) :
    Inv t := by
  rcases startHost_next hs with ⟨ha, rfl⟩ | ⟨x, y, w, h', color, ha, rfl⟩
  · have hph : positionOk .init .initPins s.phase = true := by
      rcases (acceptInit_eq_none.mp ha).2 with hp | hp <;> rw [hp] <;> rfl
    exact h.inv_hostStarted nofun ⟨hph, ht, trivial⟩
  · have hph : positionOk .fill .fillTest s.phase = true := by
      rw [(acceptFill_eq_none.mp ha).2]; rfl
    exact Settled.inv_hostStarted (s := latchRect x y w h' color s) { h with } nofun ⟨hph, ht, trivial⟩

theorem resetHoldMs_range : Config.resetHoldMs.toNat ≤ 254 := by decide

theorem inv_startSub {s : State} (op : SubOp) (h : Settled s) (hp : Placed s (.sub op)) : Inv (startSub op s) := by
  obtain ⟨hc, hph⟩ := positionOk_sub.mp hp.position
  have ht : s.txn = false := hp.txnStream
  cases op with
  | writeCommand => exact (h.writeCommand s.opc).inv_returnFrom_none .writeCommand hc hph rfl
  | writeData => exact (h.writeData s.dat).inv_returnFrom_none .writeData hc hph rfl
  | streamPixels => exact h.inv_goto ⟨positionOk_window (i := 0).mpr (.inl ⟨hc, hph⟩), ht, trivial⟩
  | runProg => exact h.inv_goto ⟨positionOk_ciCount.mpr (.inl ⟨hc, hph⟩), ht, trivial⟩
  | setAddrWindow => exact h.inv_goto ⟨positionOk_window.mpr (.inl ⟨hc, hph⟩), ht, trivial⟩
  | resetPulse =>
    exact Settled.inv_goto { h with msRange := .inl resetHoldMs_range }
      ⟨positionOk_pulse.mpr (.inl ⟨hc, hph⟩), ht, trivial⟩

/-! ### The reset pulse, the window and the stream -/

/-- The reset pulse, step by step: no event of it opens a transaction, and it leaves the chip select alone (R220). -/
theorem pulseEvents_latches (i : Fin 6) (txn : Bool) (pin : PinBits) (dir : PinBits) :
    latchTxn txn (pulseEvents.get i) = txn ∧ (latchPin pin (pulseEvents.get i)).cs = pin.cs ∧
      latchDir dir (pulseEvents.get i) = dir := by
  fin_cases i <;> exact ⟨rfl, rfl, rfl⟩

theorem Settled.pulseEvent {s : State} (i : Fin 6) (h : Settled s) : Settled (emit [pulseEvents.get i] s) := by
  obtain ⟨htxn, hcs, hdir⟩ := pulseEvents_latches i s.txn s.pin s.dir
  refine h.of_fixedPart ?_ ?_ h.msRange
  · change (_, _, _, _, _, _, latchDir s.dir (pulseEvents.get i)) = _
    rw [hdir]
    rfl
  · change s.phase = .ready → latchTxn s.txn (pulseEvents.get i) = false →
      (latchPin s.pin (pulseEvents.get i)).cs = true
    rw [htxn, hcs]
    exact h.deselected

theorem inv_seqStep_pulse {s t : State} {i : Fin 6} (h : Inv s) (hpos : s.ctl.pos = .pulse i)
    (hs : seqStep s = .next t) : Inv t := by
  have hu := (settled_of_inv h).pulseEvent i
  have hp := placed_of_inv h
  rw [hpos] at hp
  have hclosed : (emit [pulseEvents.get i] s).txn = false :=
    (pulseEvents_latches i s.txn s.pin s.dir).1.trans hp.txnStream
  unfold seqStep at hs
  simp only [hpos] at hs
  split at hs <;> cases hs
  · exact hu.inv_goto ⟨hp.position, hclosed, trivial⟩
  · rcases positionOk_pulse.mp hp.position with ⟨hc, hph⟩ | ⟨hc, hph⟩
    · exact hu.inv_returnFrom_none .resetPulse hc hph hclosed
    · rw [returnFrom_resetPulse_of_init (s := emit [pulseEvents.get i] s) hc]
      exact hu.inv_goto ⟨by rw [emit_ctl, emit_phase, hc, hph]; rfl, hclosed, trivial⟩

theorem inv_seqStep_window {s t : State} {i : Fin 11} (h : Inv s) (hpos : s.ctl.pos = .window i)
    (hs : seqStep s = .next t) : Inv t := by
  have hp := placed_of_inv h
  rw [hpos] at hp
  unfold seqStep at hs
  simp only [hpos] at hs
  generalize (windowWrites s.x0 s.y0 s.x1 s.y1).get i = w at hs
  have hu := (settled_of_inv h).doWrite w
  have hclosed : (doWrite w s).txn = false := by cases w <;> rfl
  have hctl : (doWrite w s).ctl = s.ctl := by cases w <;> rfl
  have hphase : (doWrite w s).phase = s.phase := by cases w <;> rfl
  split at hs <;> cases hs
  · exact hu.inv_goto ⟨by rw [hctl, hphase]; exact hp.position, hclosed, trivial⟩
  · rcases positionOk_window.mp hp.position with ⟨hc, hph⟩ | ⟨hc, hph⟩
    · exact hu.inv_returnFrom_none .setAddrWindow (by rw [hctl, hc]) (by rw [hphase]; exact hph) hclosed
    · rw [returnFrom_setAddrWindow_of_fill (by rw [hctl, hc])]
      exact hu.inv_goto ⟨by rw [hctl, hphase, hc, hph]; rfl, hclosed, trivial⟩

/-- A stream runs in the phases and for the callers a window does (R126, R195). -/
theorem inv_seqStep_streamClose {s t : State} (h : Inv s) (hpos : s.ctl.pos = .streamClose)
    (hs : seqStep s = .next t) : Inv t := by
  have hp := placed_of_inv h
  rw [hpos] at hp
  unfold seqStep at hs
  simp only [hpos] at hs
  cases hs
  have hu : Settled (emit streamTail s) :=
    (settled_of_inv h).of_fixedPart rfl (fun _ _ => rfl) h.msRange
  rcases positionOk_window (i := 0).mp hp.position with ⟨hc, hph⟩ | ⟨hc, hph⟩
  · exact hu.inv_returnFrom_none .streamPixels hc hph rfl
  · rw [returnFrom_streamPixels_of_fill (s := emit streamTail s) hc]
    exact hu.inv_endHost (.inr hph) rfl

/-- Inside a stream: on to the next pixel, or to the end (R126). -/
def nextPixel (s : State) : State := if s.pixcnt = 0 then goto .streamClose s else goto .streamPix s

theorem Settled.inv_nextPixel {s : State} (h : Settled s) (hp : positionOk s.ctl.caller .streamPix s.phase = true)
    (ht : s.txn = true) : Inv (nextPixel s) := by
  unfold nextPixel
  split
  · exact h.inv_goto ⟨hp, ht, trivial⟩
  · next hpix => exact h.inv_goto ⟨hp, ht, hpix⟩

/-! ### INIT's own small steps -/

/-- The pins and the bus configuration, then into the reset pulse in `Resetting` (R222). -/
theorem Settled.inv_initPins {s : State} (h : Settled s) (hp : Placed s .initPins) : Inv (enterPulse (initPins s)) := by
  have hc := (positionOk_initPins.mp hp.position).1
  have hu : Settled { initPins s with ms := Config.resetHoldMs } :=
    { h with
      geometry := nofun
      configured := fun _ => ⟨rfl, rfl⟩
      deselected := nofun
      msRange := .inl resetHoldMs_range }
  exact hu.inv_goto ⟨positionOk_pulse.mpr (.inr ⟨hc, rfl⟩), hp.txnStream, trivial⟩

/-- Into RUNPROG in `ProgramExecuting` (R222). -/
theorem Settled.inv_progStart {s : State} (h : Settled s) (hp : Placed s .progStart) :
    Inv (goto .ciCount { s with phase := .programExecuting, pp := Config.initBase }) := by
  obtain ⟨hc, hph⟩ := positionOk_progStart.mp hp.position
  have hu : Settled { s with phase := .programExecuting, pp := Config.initBase } :=
    { h with
      geometry := nofun
      configured := fun _ => h.configured (by rw [hph]; nofun)
      deselected := nofun }
  exact hu.inv_goto ⟨positionOk_ciCount.mpr (.inr ⟨hc, rfl⟩), hp.txnStream, trivial⟩

/-- The data write deselects the chip, as the latch asks (R223). -/
theorem Settled.inv_initPost {s : State} (h : Settled s) (hp : Placed s .initPost) :
    Inv (returnFrom .writeData (initPost s)) := by
  have hc := (positionOk_initPost.mp hp.position).1
  rw [returnFrom_writeData_of_init (s := initPost s) hc]
  exact (h.sendData _).inv_goto ⟨hp.position, rfl, rfl⟩

/-- The geometry latch ends INIT in `Ready` (R228). -/
theorem Settled.inv_initLatch {s : State} (h : Settled s) (hp : Placed s .initLatch) : Inv (endHost (initLatch s)) := by
  have hph : s.phase = .programExecuting := (positionOk_initPost.mp hp.position).2
  have hu : Settled (initLatch s) :=
    { h with
      geometry := fun _ => rfl
      configured := fun _ => h.configured (by rw [hph]; nofun)
      deselected := fun _ _ => hp.due }
  exact hu.inv_endHost (.inr rfl) hp.txnStream

/-- Settles O44, by the position of the sequencer: each step leaves the settled part alone or renews it, and what its
next position asks for. -/
theorem smallStepKeepsInvariant : Obligations.SmallStepKeepsInvariant := by
  intro s t h hs
  have hb := settled_of_inv h
  have hp := placed_of_inv h
  cases hpos : s.ctl.pos <;> rw [hpos] at hp
  case ciCount | ciOpc | ciHdr | ciArg | ciDlyb | ciWait => exact inv_seqStep_interpreting h (by rw [hpos]; rfl) hs
  case pulse i => exact inv_seqStep_pulse h hpos hs
  case window i => exact inv_seqStep_window h hpos hs
  case streamClose => exact inv_seqStep_streamClose h hpos hs
  all_goals
    unfold seqStep at hs
    simp only [hpos] at hs
  case idle =>
    split at hs
    · cases hs; exact h
    · next w rest _ => exact inv_startHost (s := { s with port := rest }) { hb with } hp.txnStream hs
  case sub op => cases hs; exact inv_startSub op hb hp
  case initPins => cases hs; exact hb.inv_initPins hp
  case progStart => cases hs; exact hb.inv_progStart hp
  case initPost => cases hs; exact hb.inv_initPost hp
  case initLatch => cases hs; exact hb.inv_initLatch hp
  case fillTest =>
    obtain ⟨hc, hph⟩ := positionOk_fillTest.mp hp.position
    split at hs
    · cases hs; exact hb.inv_endHost (.inr hph) hp.txnStream
    · split at hs <;> cases hs
      exact Settled.inv_goto (s := clipRect s) { hb with }
        ⟨positionOk_window.mpr (.inr ⟨hc, hph⟩), hp.txnStream, trivial⟩
  case pixLoad =>
    cases hs
    have hwin := positionOk_window (i := 0).mpr (.inr (positionOk_fillTest.mp hp.position))
    exact Settled.inv_goto (s := loadPixels s) { hb with } ⟨hwin, hp.txnStream, trivial⟩
  case streamOpen =>
    cases hs
    exact Settled.inv_nextPixel { hb with deselected := nofun } hp.position rfl
  case streamPix =>
    cases hs
    have hu : Settled (emit (pixelPair s.pixhi s.pixlo) { s with pixcnt := guardedDec s.pixcnt }) := { hb with }
    exact hu.inv_nextPixel hp.position hp.txnStream

end Sys2Proof.Proofs
end

section
/-! PROOFS. Every step of the machine keeps the invariant: a completed instruction keeps its settled part, and the
return to the caller places the sequencer. -/

namespace Sys2Proof.Proofs

open Sys2Proof Sys2Proof.Machine Sys2Proof.Safety Sys2Proof.Laws

/-! ### What a completed instruction leaves of the sequencer and the phase -/

theorem ctl_of_interpreterOnly {s t : State} (h : InterpreterOnly s t) : t.ctl = s.ctl :=
  (congrArg State.ctl h.1).trans rfl

theorem phase_of_interpreterOnly {s t : State} (h : InterpreterOnly s t) : t.phase = s.phase :=
  (congrArg State.phase h.1).trans rfl

theorem Completed.ctl_eq {i : Instr} {s t : State} (h : Completed s i t) : t.ctl = s.ctl := by
  cases h with
  | record r hr => rw [runRecord_eq]
  | init ha hl =>
    obtain ⟨_, _, _, _, _, _, _, _, _, _, e, _⟩ := initEnd_shape s
    rw [e]
  | fillPainted x y w h color hi ha => rw [painted_eq]
  | runprog base => exact ctl_of_interpreterOnly (runAll_interpreterOnly _ _)
  | setaddrwindow x0 y0 x1 y1 => rw [setAddrWindow_eq]
  | dly500 | dlyms | fillOff | writecommand | writedata | streampixels | resetpulse => rfl

/-- A completed instruction leaves the phase alone, or it is INIT and ends in `Ready` (R247). -/
theorem Completed.phase_eq {i : Instr} {s t : State} (h : Completed s i t) : t.phase = s.phase ∨ t.phase = .ready := by
  cases h with
  | record r hr => left; rw [runRecord_eq]
  | init ha hl => exact .inr rfl
  | fillPainted x y w h color hi ha => left; rw [painted_eq]
  | runprog base => exact .inl (phase_of_interpreterOnly (runAll_interpreterOnly _ _))
  | setaddrwindow x0 y0 x1 y1 => left; rw [setAddrWindow_eq]
  | dly500 | dlyms | fillOff | writecommand | writedata | streampixels | resetpulse => exact .inl rfl

/-- A completed instruction leaves no transaction open (R38). -/
theorem Completed.closed {i : Instr} {s t : State} (h : Completed s i t) (ht : s.txn = false) : t.txn = false := by
  cases h with
  | record r hr => rw [runRecord_eq]
  | init ha hl => rfl
  | fillPainted x y w h color hi ha => rw [painted_eq]
  | runprog base => exact (runAll_interpreterOnly _ _).2.2 ht
  | setaddrwindow x0 y0 x1 y1 => rw [setAddrWindow_eq]
  | streampixels hi lo n => rw [streamPixels_eq]
  | writecommand | writedata => rfl
  | dly500 | dlyms | fillOff | resetpulse => exact ht

theorem initLoop_ctl (s : State) : (initLoop s).ctl = s.ctl := by simp only [initLoop, initStart_eq]

theorem initLoop_ms (s : State) : (initLoop s).ms = Config.resetHoldMs := by simp only [initLoop, initStart_eq]; rfl

/-- INIT, accepted while no operation runs, leaves the settled part as R275 asks. -/
theorem settled_initEnd {s : State} (h : Settled s) (ha : acceptInit s = none) : Settled (initEnd s) := by
  have hms : (initEnd s).ms.toNat ≤ 254 ∨ (initEnd s).ms = 500 :=
    runAll_ms_range (by rw [initLoop_ms]; exact .inl resetHoldMs_range)
  have hbusy : s.busy = !(s.ctl.caller == .none) := h.busyCaller
  rw [(acceptInit_eq_none.mp ha).1] at hbusy
  obtain ⟨_, _, _, _, _, _, _, _, _, _, e, rfl⟩ := initEnd_shape s
  rw [e] at hms ⊢
  exact {
    romWf := h.romWf
    busyCaller := hbusy
    geometry := fun _ => rfl
    configured := fun _ => ⟨rfl, rfl⟩
    deselected := fun _ _ => rfl
    msRange := hms }

/-- Every completed instruction keeps the settled part. -/
theorem Completed.settled {i : Instr} {s t : State} (h : Completed s i t) (hs : Settled s) : Settled t := by
  cases h with
  | record r hr => exact hs.runRecord r
  | dly500 => exact hs.delayDirective 255
  | dlyms d => exact hs.delayDirective d
  | init ha hl => exact settled_initEnd hs ha
  | fillOff x y w h color hi ha => exact { hs with }
  | fillPainted x y w h color hi ha =>
    rw [painted_eq]
    exact hs.of_fixedPart rfl (fun _ _ => rfl) hs.msRange
  | writecommand b => exact hs.writeCommand b
  | writedata b => exact hs.writeData b
  | streampixels hi lo n =>
    rw [streamPixels_eq]
    exact hs.of_fixedPart rfl (fun _ _ => rfl) hs.msRange
  | runprog base => exact Settled.runAll _ { hs with }
  | setaddrwindow x0 y0 x1 y1 =>
    rw [setAddrWindow_eq]
    exact hs.of_fixedPart rfl (fun _ _ => rfl) hs.msRange
  | resetpulse => exact hs.of_fixedPart rfl hs.deselected (.inl resetHoldMs_range)

/-! ### The step -/

/-- Between operations the phase of a completed instruction is again one of the two (R247). -/
theorem Completed.phase_between {i : Instr} {s t : State} (h : Completed s i t)
    (hph : s.phase = .unpowered ∨ s.phase = .ready) : t.phase = .unpowered ∨ t.phase = .ready := by
  rcases h.phase_eq with e | e
  · rw [e]; exact hph
  · exact .inr e

/-- At `IDLE`: an operation run whole ends at `IDLE`. -/
theorem inv_of_completed_idle {i : Instr} {s t : State} (hs : Settled s) (hp : Placed s .idle)
    (hidle : s.ctl.pos = .idle) (h : Completed s i t) : Inv t := by
  obtain ⟨hc, hph⟩ := positionOk_idle.mp hp.position
  refine (h.settled hs).inv ?_
  rw [h.ctl_eq, hidle]
  exact ⟨positionOk_idle.mpr ⟨by rw [h.ctl_eq, hc], h.phase_between hph⟩, h.closed hp.txnStream, trivial⟩

/-- At a selected sub-operation: it ends at `IDLE`. -/
theorem inv_of_completed_sub {i : Instr} {op : SubOp} {s t : State} (hs : Settled s) (hp : Placed s (.sub op))
    (h : Completed s i t) : Inv (returnFrom op t) := by
  obtain ⟨hc, hph⟩ := positionOk_sub.mp hp.position
  exact (h.settled hs).inv_returnFrom_none op (by rw [h.ctl_eq, hc]) (h.phase_between hph) (h.closed hp.txnStream)

theorem InProgram.runRecord {s : State} (r : RawRecord) (h : InProgram s) : InProgram (runRecord r s) where
  toSettled := h.toSettled.runRecord r
  position := by rw [runRecord_eq]; exact h.position
  closed := by rw [runRecord_eq]

theorem exec_nameDelay (d : Byte) (s : State) : exec (nameDelay d) s = .next (delayDirective d s) := by
  unfold nameDelay
  split
  · next h => subst h; rfl
  · rfl

/-- A step is a small step but where the sequencer stands at an instruction (log 7). -/
theorem step_eq_seqStep {s : State} (h : fetchNext s = .micro) : step s = seqStep s := by
  unfold step
  rw [h]

theorem inv_step_ciOpc {s t : State} (h : Inv s) (hpos : s.ctl.pos = .ciOpc) (hs : step s = .next t) : Inv t := by
  have hq := inProgram_of_inv h (by rw [hpos]; rfl)
  by_cases hin : s.pp.toNat + recordLenAt s.rom s.pp.toNat ≤ s.romSize.val
  · rw [step_ciOpc_inside hpos hin, exec_record (rawRecord_nameRecord _)] at hs
    cases hs
    exact (hq.runRecord _).inv_recordDone
  · rw [step_ciOpc_cut hpos (by omega)] at hs
    exact smallStepKeepsInvariant s t h hs

theorem inv_step_ciDlyb {s t : State} (h : Inv s) (hpos : s.ctl.pos = .ciDlyb) (hs : step s = .next t) : Inv t := by
  have hq := inProgram_of_inv h (by rw [hpos]; rfl)
  by_cases hin : s.pp.toNat < s.romSize.val
  · rw [step_ciDlyb_inside hpos hin, exec_nameDelay] at hs
    cases hs
    exact InProgram.inv_nextRecord { hq with msRange := delayMs_range _ }
  · rw [step_ciDlyb_outside hpos (by omega)] at hs
    cases hs

/-- Settles O43, by what the position offers the step: a host operation, a sub-operation, a record or a delay byte run
whole, or one small step. -/
theorem stepKeepsInvariant : Obligations.StepKeepsInvariant := by
  intro s t h hs
  have hb := settled_of_inv h
  have hp := placed_of_inv h
  cases hpos : s.ctl.pos <;> rw [hpos] at hp
  case idle =>
    cases hport : s.port with
    | nil =>
      simp only [step, fetchNext, hpos, hport] at hs
      cases hs
      exact h
    | cons w rest =>
      simp only [step, fetchNext, hpos, hport] at hs
      obtain ⟨u, hu, rfl⟩ := mapNext_eq_next hs
      exact inv_of_completed_idle (s := { s with port := rest }) { hb with } { hp with } hpos (completed_of_exec hu)
  case sub op =>
    simp only [step, fetchNext, hpos] at hs
    obtain ⟨u, hu, rfl⟩ := mapNext_eq_next hs
    exact inv_of_completed_sub hb hp (completed_of_exec hu)
  case ciOpc => exact inv_step_ciOpc h hpos hs
  case ciDlyb => exact inv_step_ciDlyb h hpos hs
  all_goals
    rw [step_eq_seqStep (by simp only [fetchNext, hpos])] at hs
    exact smallStepKeepsInvariant s t h hs

end Sys2Proof.Proofs
end

section
/-! PROOFS. The two renderings agree (D19): the small-step sequencer, started at the first position of an operation,
ends in the state, or with the refusal, of the operation's meaning. -/

namespace Sys2Proof.Proofs

open Sys2Proof Sys2Proof.Machine Sys2Proof.Safety Sys2Proof.Laws

/-! ### Runs of the sequencer -/

/-- The sequencer, run from `s`, answers `r` after some number of small steps. -/
def Reaches (s : State) (r : Result) : Prop := ∃ n, seqRun n s = r

theorem Reaches.refl (s : State) : Reaches s (.next s) := ⟨0, rfl⟩

theorem Reaches.step {s t : State} {r : Result} (hs : seqStep s = .next t) (h : Reaches t r) : Reaches s r := by
  obtain ⟨n, hn⟩ := h
  exact ⟨n + 1, by rw [seqRun, hs, andThen_next, hn]⟩

theorem Reaches.refused {s : State} {e : Refusal} (hs : seqStep s = .refused e) : Reaches s (.refused e) :=
  ⟨1, by rw [seqRun, hs, andThen_refused]⟩

theorem seqRun_add (n m : Nat) (s : State) : seqRun (n + m) s = andThen (seqRun n s) (seqRun m) := by
  induction n generalizing s with
  | zero => rw [Nat.zero_add]; rfl
  | succ n ih =>
    rw [Nat.succ_add, seqRun, seqRun]
    cases seqStep s with
    | next t => exact ih t
    | fault e => rfl
    | refused e => rfl

theorem Reaches.trans {s t : State} {r : Result} (hs : Reaches s (.next t)) (ht : Reaches t r) : Reaches s r := by
  obtain ⟨n, hn⟩ := hs
  obtain ⟨m, hm⟩ := ht
  exact ⟨n + m, by rw [seqRun_add, hn, andThen_next, hm]⟩

/-- A fetching step followed by what the meaning does with the byte (R61). -/
theorem Reaches.fetch {s u : State} {f : Byte → State → State} {g : Byte → State → Result}
    (hs : seqStep s = fetchByte u f)
    (h : ∀ b, Reaches (f b { u with pp := u.pp + 1 }) (g b { u with pp := u.pp + 1 })) :
    Reaches s (fetchThen u g) := by
  rcases fetchThen_cases u g with ⟨hp, e⟩ | ⟨hp, e⟩ <;> rw [e]
  · exact .step (hs.trans (fetchByte_inside f hp)) (h _)
  · exact .refused (hs.trans (fetchByte_outside f hp))

/-! ### A position leaves no trace behind -/

theorem returnFrom_goto (op : SubOp) (p : Pos) (s : State) : returnFrom op (goto p s) = returnFrom op s := by
  simp only [returnFrom, goto_ctl]
  cases s.ctl.caller <;> cases op <;> rfl

theorem recordDone_goto (p : Pos) (s : State) : recordDone (goto p s) = recordDone s := by
  simp only [recordDone, goto_cnt, returnFrom_goto]
  rfl

theorem nextRecord_goto (p : Pos) (s : State) : nextRecord (goto p s) = nextRecord s :=
  recordDone_goto p { s with cnt := guardedDec s.cnt }

theorem afterArgs_goto (p : Pos) (s : State) : afterArgs (goto p s) = afterArgs s := by
  simp only [afterArgs, goto_argc, goto_dlyf, nextRecord_goto]
  rfl

/-! ### Sequencing of outcomes -/

theorem andThen_assoc (r : Result) (f g : State → Result) :
    andThen (andThen r f) g = andThen r fun s => andThen (f s) g := by
  cases r <;> rfl

theorem andThen_fetchThen (s : State) (g : Byte → State → Result) (k : State → Result) :
    andThen (fetchThen s g) k = fetchThen s fun b t => andThen (g b t) k := by
  unfold fetchThen
  cases s.memRead s.pp.toNat <;> rfl

/-! ### RUNPROG -/

/-- The position a fetch is made at does not reach what is done with the byte. -/
theorem fetchByte_goto {p : Pos} {f g : Byte → State → State} (s : State) (h : ∀ b t, f b (goto p t) = g b t) :
    fetchByte (goto p s) f = fetchByte s g := by
  obtain rfl : (fun b t => f b (goto p t)) = g := by
    funext b t
    exact h b t
  rfl

theorem seqStep_ciCount (s : State) :
    seqStep (goto .ciCount s) = fetchByte s fun c t => recordDone { t with cnt := c } :=
  fetchByte_goto s fun c t => recordDone_goto .ciCount { t with cnt := c }

theorem seqStep_ciOpc (s : State) :
    seqStep (goto .ciOpc s) = fetchByte s fun o t => goto .ciHdr (writeCommand o { t with opc := o }) :=
  fetchByte_goto s fun _ _ => rfl

theorem seqStep_ciHdr (s : State) :
    seqStep (goto .ciHdr s) =
      fetchByte s fun a t => afterArgs { t with args := a, dlyf := hasDelay a, argc := argCount a } :=
  fetchByte_goto s fun a t => afterArgs_goto .ciHdr { t with args := a, dlyf := hasDelay a, argc := argCount a }

theorem seqStep_ciArg (s : State) :
    seqStep (goto .ciArg s) = fetchByte s fun d t => afterArgs { sendData d t with argc := guardedDec t.argc } :=
  fetchByte_goto s fun d t => afterArgs_goto .ciArg { sendData d t with argc := guardedDec t.argc }

theorem seqStep_ciDlyb (s : State) :
    seqStep (goto .ciDlyb s) = fetchByte s fun d t => goto .ciWait { t with dly := d, ms := delayMs d } :=
  fetchByte_goto s fun _ _ => rfl

theorem seqStep_ciWait (s : State) :
    seqStep (goto .ciWait s) = .next (nextRecord (emit [.delay s.ms.toNat] s)) :=
  congrArg Host.Outcome.next (nextRecord_goto .ciWait (emit [.delay s.ms.toNat] s))

/-- The arguments of a record, then whatever follows them (R140 step 3). -/
theorem reaches_args {n : Nat} {s : State} {k : State → Result} (hn : s.argc.toNat = n)
    (hk : ∀ v, v.argc = 0 → v.cnt = s.cnt → Reaches (afterArgs v) (k v)) :
    Reaches (afterArgs s) (andThen (runArgs n s) k) := by
  induction n generalizing s with
  | zero => exact hk s (BitVec.eq_of_toNat_eq hn) rfl
  | succ n ih =>
    have hne : s.argc ≠ 0 := fun h0 => by rw [h0] at hn; cases hn
    have e : afterArgs s = goto .ciArg s := if_neg hne
    rw [e, runArgs, andThen_fetchThen]
    refine .fetch (seqStep_ciArg s) fun d => ?_
    exact ih (by rw [guardedDec_toNat, hn]; rfl) hk

/-- The delay of a record, if it is flagged, then whatever follows it (R140 step 4). -/
theorem reaches_delay {v : State} {k : State → Result} (hv : v.argc = 0)
    (hk : ∀ w, w.cnt = v.cnt → Reaches (nextRecord w) (k w)) :
    Reaches (afterArgs v) (andThen (runDelay v) k) := by
  unfold afterArgs runDelay
  rw [if_pos hv]
  split
  · rw [andThen_fetchThen]
    refine .fetch (seqStep_ciDlyb v) fun d => ?_
    exact .step (seqStep_ciWait _) (hk _ rfl)
  · exact hk v rfl

/-- The record loop, from "is a record due?" to the return (R148). -/
theorem reaches_records {n : Nat} {s : State} (hn : s.cnt.toNat = n) :
    Reaches (recordDone s) (mapNext (runRecords n s) (returnFrom .runProg)) := by
  induction n generalizing s with
  | zero =>
    have e : recordDone s = returnFrom .runProg s := if_pos (BitVec.eq_of_toNat_eq hn)
    rw [e]
    exact .refl _
  | succ n ih =>
    have hne : s.cnt ≠ 0 := fun h0 => by rw [h0] at hn; cases hn
    have e : recordDone s = goto .ciOpc s := if_neg hne
    rw [e, runRecords, mapNext, andThen_assoc, fetchRecord, andThen_fetchThen]
    refine .fetch (seqStep_ciOpc s) fun o => ?_
    rw [andThen_fetchThen]
    refine .fetch (seqStep_ciHdr _) fun a => ?_
    rw [andThen_assoc]
    refine reaches_args rfl fun v hv hcnt => ?_
    rw [mapNext, andThen_assoc]
    refine reaches_delay hv fun w hw => ?_
    exact ih (by rw [guardedDec_toNat, hw, hcnt]; exact congrArg (· - 1) hn)

/-- RUNPROG by small steps, for every caller: it returns where its meaning ends, or is refused as it is (R148). -/
theorem reaches_runProgram (s : State) :
    Reaches (goto .ciCount s) (mapNext (runProgram s.pp s) (returnFrom .runProg)) := by
  rw [runProgram, mapNext, andThen_fetchThen]
  exact .fetch (seqStep_ciCount s) fun c => reaches_records rfl

/-! ### RESETPULSE, SETADDRWINDOW, STREAMPIXELS -/

theorem finRange_drop {n : Nat} (i : Fin n) :
    (List.finRange n).drop i.val = i :: (List.finRange n).drop (i.val + 1) := by
  rw [List.drop_eq_getElem_cons (by simp), List.getElem_finRange]
  rfl

/-- A sub-operation that acts once at each of `n` positions, from position `i` on. -/
theorem reaches_walk {n : Nat} {op : SubOp} {pos : Fin n → Pos} {act : Fin n → State → State}
    (hstep : ∀ (i : Fin n) (s : State), seqStep (goto (pos i) s) =
      .next (if h : i.val + 1 < n then goto (pos ⟨i.val + 1, h⟩) (act i s) else returnFrom op (act i s)))
    (i : Fin n) (s : State) :
    Reaches (goto (pos i) s)
      (.next (returnFrom op (((List.finRange n).drop i.val).foldl (fun t j => act j t) s))) := by
  obtain ⟨k, hk⟩ : ∃ k, i.val + k + 1 = n := ⟨n - i.val - 1, by omega⟩
  induction k generalizing i s with
  | zero =>
    have hlast : (List.finRange n).drop (i.val + 1) = [] := List.drop_of_length_le (by simp; omega)
    refine .step (hstep i s) ?_
    rw [dif_neg (by omega), finRange_drop, List.foldl_cons, hlast]
    exact .refl _
  | succ k ih =>
    refine .step (hstep i s) ?_
    rw [dif_pos (by omega), finRange_drop, List.foldl_cons]
    exact ih ⟨i.val + 1, by omega⟩ (act i s) (by simp only; omega)

theorem seqStep_pulse (i : Fin 6) (s : State) : seqStep (goto (.pulse i) s) =
    .next (if h : i.val + 1 < 6 then goto (.pulse ⟨i.val + 1, h⟩) (emit [pulseEvents.get i] s)
      else returnFrom .resetPulse (emit [pulseEvents.get i] s)) := by
  change (if h : i.val + 1 < 6 then Host.Outcome.next _ else Host.Outcome.next _) = _
  split
  · rfl
  · exact congrArg Host.Outcome.next (returnFrom_goto .resetPulse (.pulse i) (emit [pulseEvents.get i] s))

theorem emit_foldl (es : List Event) (s : State) : es.foldl (fun t e => emit [e] t) s = emit es s := by
  induction es generalizing s with
  | nil => exact (emit_nil s).symm
  | cons e es ih => rw [List.foldl_cons, ih, ← emit_append]; rfl

theorem reaches_pulse (s : State) :
    Reaches (goto (.pulse 0) s) (.next (returnFrom .resetPulse (emit pulseEvents.toList s))) := by
  have hall : (List.finRange 6).map pulseEvents.get = pulseEvents.toList := rfl
  rw [← emit_foldl, ← hall, List.foldl_map]
  exact reaches_walk seqStep_pulse 0 s

theorem seqStep_window (i : Fin 11) (s : State) : seqStep (goto (.window i) s) =
    .next (if h : i.val + 1 < 11
      then goto (.window ⟨i.val + 1, h⟩) (doWrite ((windowWrites s.x0 s.y0 s.x1 s.y1).get i) s)
      else returnFrom .setAddrWindow (doWrite ((windowWrites s.x0 s.y0 s.x1 s.y1).get i) s)) := by
  have hgoto (w : LogicalWrite) : doWrite w (goto (.window i) s) = goto (.window i) (doWrite w s) := by
    cases w <;> rfl
  simp only [seqStep, goto_ctl, goto_x0, goto_y0, goto_x1, goto_y1, hgoto, returnFrom_goto]
  split
  · rfl
  · rfl

/-- A logical write leaves the window operands, so each position sends its write of the window given at the start. -/
theorem foldl_windowWrites (is : List (Fin 11)) (s : State) :
    is.foldl (fun t j => doWrite ((windowWrites t.x0 t.y0 t.x1 t.y1).get j) t) s =
      (is.map (windowWrites s.x0 s.y0 s.x1 s.y1).get).foldl (fun t w => doWrite w t) s := by
  induction is generalizing s with
  | nil => rfl
  | cons i is ih =>
    have hkeep (w : LogicalWrite) : windowWrites (doWrite w s).x0 (doWrite w s).y0 (doWrite w s).x1 (doWrite w s).y1 =
        windowWrites s.x0 s.y0 s.x1 s.y1 := by
      cases w <;> rfl
    rw [List.foldl_cons, ih, hkeep, List.map_cons, List.foldl_cons]

theorem reaches_window (s : State) :
    Reaches (goto (.window 0) s) (.next (returnFrom .setAddrWindow (setAddrWindow s.x0 s.y0 s.x1 s.y1 s))) := by
  have hall : (List.finRange 11).map (windowWrites s.x0 s.y0 s.x1 s.y1).get =
      (windowWrites s.x0 s.y0 s.x1 s.y1).toList := rfl
  rw [setAddrWindow, ← hall, ← foldl_windowWrites]
  exact reaches_walk seqStep_window 0 s

theorem seqStep_streamPix (s : State) :
    seqStep (goto .streamPix s) =
      .next (nextPixel (emit (pixelPair s.pixhi s.pixlo) { s with pixcnt := guardedDec s.pixcnt })) := rfl

theorem seqStep_streamClose (s : State) :
    seqStep (goto .streamClose s) = .next (returnFrom .streamPixels (emit streamTail s)) :=
  congrArg Host.Outcome.next (returnFrom_goto .streamPixels .streamClose (emit streamTail s))

/-- The pixels that are left, and the end of the stream (R126). -/
theorem reaches_pixels {n : Nat} {s : State} (hn : s.pixcnt.toNat = n) :
    Reaches (nextPixel s)
      (.next (returnFrom .streamPixels (emit (pixelRun s.pixhi s.pixlo n ++ streamTail) { s with pixcnt := 0 }))) := by
  induction n generalizing s with
  | zero =>
    have h0 : s.pixcnt = 0 := BitVec.eq_of_toNat_eq hn
    have e : nextPixel s = goto .streamClose { s with pixcnt := 0 } := by rw [← h0]; exact if_pos h0
    rw [e]
    exact .step (seqStep_streamClose _) (.refl _)
  | succ n ih =>
    have hne : s.pixcnt ≠ 0 := fun h0 => by rw [h0] at hn; cases hn
    have e : nextPixel s = goto .streamPix s := if_neg hne
    rw [e, pixelRun_succ, List.append_assoc, emit_append]
    exact .step (seqStep_streamPix s) (ih (by change (guardedDec s.pixcnt).toNat = n; rw [guardedDec_toNat, hn]; rfl))

theorem reaches_stream (s : State) :
    Reaches (goto .streamOpen s)
      (.next (returnFrom .streamPixels (streamPixels s.pixhi s.pixlo s.pixcnt s))) := by
  have hstep : seqStep (goto .streamOpen s) = .next (nextPixel (emit streamHead s)) := rfl
  have e : streamPixels s.pixhi s.pixlo s.pixcnt s =
      emit (pixelRun s.pixhi s.pixlo s.pixcnt.toNat ++ streamTail) { emit streamHead s with pixcnt := 0 } := by
    rw [streamPixels, streamTrace, List.append_assoc, emit_append]
    rfl
  rw [e]
  exact .step hstep (reaches_pixels rfl)

/-! ### The sub-operations -/

/-- A sub-operation by small steps, from its operand registers, returns where its meaning ends (R102). -/
theorem reaches_startSub (op : SubOp) (s : State) :
    Reaches (startSub op s) (mapNext (exec (nameSub op s.subOperands) s) (returnFrom op)) := by
  cases op with
  | writeCommand => exact .refl _
  | writeData => exact .refl _
  | streamPixels => exact reaches_stream s
  | runProg => exact reaches_runProgram s
  | setAddrWindow => exact reaches_window s
  | resetPulse => exact reaches_pulse { s with ms := Config.resetHoldMs }

/-- Settles O52: the selected sub-operation starts by one small step and runs as `reaches_startSub` says. -/
theorem smallStepSubOperationIsTheMeaning : Obligations.SmallStepSubOperationIsTheMeaning := by
  intro s op hctl
  have hpos : s.ctl.pos = .sub op := by rw [hctl]
  have hmeaning : step s = mapNext (exec (nameSub op s.subOperands) s) (returnFrom op) := by
    simp only [step, fetchNext, hpos]
    rfl
  have hstart : seqStep s = .next (startSub op s) := by simp only [seqStep, hpos]
  have hreach : Reaches s (step s) := hmeaning ▸ .step hstart (reaches_startSub op s)
  exact ⟨fun t ht => ht ▸ hreach, fun r hr => hr ▸ hreach⟩

/-! ### The host operations -/

/-- `CTL` set to `c`: a meaning leaves `CTL` alone, where the sequencer keeps the caller in it. -/
def withCtl (c : Ctl) (s : State) : State := { s with ctl := c }

theorem runAll_withCtl (c : Ctl) (rs : List RawRecord) (s : State) :
    runAll rs (withCtl c s) = withCtl c (runAll rs s) := by
  induction rs generalizing s with
  | nil => rfl
  | cons r rs ih =>
    have e : runRecord r (withCtl c s) = withCtl c (runRecord r s) := by
      rw [runRecord_eq, runRecord_eq]; rfl
    rw [runAll_cons, e, ih, runAll_cons]

/-- The sequencer's state where INIT calls RUNPROG (R222). -/
def initProgram (s : State) : State := { initStart (hostStarted .init .ciCount s) with pp := Config.initBase }

theorem initProgram_rom (s : State) : (initProgram s).rom = s.rom := by
  simp only [initProgram, initStart_eq, hostStarted]

theorem initProgram_romSize (s : State) : (initProgram s).romSize = s.romSize := by
  simp only [initProgram, initStart_eq, hostStarted]

/-- INIT's first half by small steps: pins, bus configuration, reset pulse (R222). -/
theorem reaches_initProgram (s : State) :
    Reaches (hostStarted .init .initPins s) (.next (goto .ciCount (initProgram s))) :=
  Reaches.step rfl <|
    (reaches_pulse { initPins (hostStarted .init .initPins s) with ms := Config.resetHoldMs }).trans <|
      .step rfl (.refl _)

/-- INIT's second half by small steps: the data write and the latch (R222, R223). -/
theorem reaches_initLatch {s : State} (hc : s.ctl.caller = .init) :
    Reaches (returnFrom .runProg s) (.next (endHost (initLatch (initPost s)))) := by
  have hpost : seqStep (goto .initPost s) = .next (goto .initLatch (initPost s)) := by
    rw [← returnFrom_writeData_of_init (s := initPost s) hc, ← returnFrom_goto _ .initPost]
    rfl
  rw [returnFrom_runProg_of_init hc]
  exact .step hpost (.step rfl (.refl _))

/-- Well-formedness speaks of the ROM alone (R146). -/
theorem wellFormed_congr {s t : State} {base len : Nat} (hrom : t.rom = s.rom) (hsize : t.romSize = s.romSize) :
    wellFormed t base len = wellFormed s base len := by
  simp only [wellFormed, hrom, hsize]

/-- The program's records in the sequencer's state and in the meaning's: `CTL` is all they differ in. -/
theorem runProgram_initProgram {s : State} (hl : launchable s = true) :
    runProgram Config.initBase (initProgram s) =
      .next (withCtl { caller := .init, pos := .ciCount }
        (runAll (programRecords s.rom Config.initBase.toNat) (initLoop { s with busy := true }))) := by
  have hw : wellFormed (initProgram s) Config.initBase.toNat s.initLen = true :=
    (wellFormed_congr (initProgram_rom s) (initProgram_romSize s)).trans hl
  rw [runProgram_wellFormed hw, initProgram_rom, ← runAll_withCtl]
  simp only [initProgram, initLoop, initStart_eq, hostStarted, withCtl]

/-- The sequencer ends INIT in the meaning's end state: `CTL` is back at `IDLE` (R222, R246). -/
theorem endHost_initLatch {s : State} (hctl : s.ctl = Ctl.idle) (c : Ctl) :
    endHost (initLatch (initPost (withCtl c
      (runAll (programRecords s.rom Config.initBase.toNat) (initLoop { s with busy := true }))))) = initEnd s := by
  have hloop : (initLoop { s with busy := true }).ctl = Ctl.idle := (initLoop_ctl _).trans hctl
  have hidle := (ctl_of_interpreterOnly (runAll_interpreterOnly (programRecords s.rom Config.initBase.toNat)
    (initLoop { s with busy := true }))).trans hloop
  unfold initEnd
  generalize runAll (programRecords s.rom Config.initBase.toNat) (initLoop { s with busy := true }) = u at hidle ⊢
  simp only [endHost, initLatch, initPost, sendData_eq, withCtl, hidle]

/-- INIT by small steps, from its first position, on a well-formed program (R222). -/
theorem reaches_init {s : State} (hctl : s.ctl = Ctl.idle) (hl : launchable s = true) :
    Reaches (hostStarted .init .initPins s) (.next (initEnd s)) := by
  have hrun := reaches_runProgram (initProgram s)
  rw [show (initProgram s).pp = Config.initBase from rfl, runProgram_initProgram hl, mapNext_next] at hrun
  rw [← endHost_initLatch hctl]
  exact (reaches_initProgram s).trans (hrun.trans (reaches_initLatch rfl))

/-- The window and the stream of a fill by small steps (R195). -/
theorem reaches_paint {s : State} (hc : s.ctl.caller = .fill) :
    Reaches (goto (.window 0) s) (.next (endHost (paintRect s))) := by
  have hwin := reaches_window s
  have hctl : (setAddrWindow s.x0 s.y0 s.x1 s.y1 s).ctl = s.ctl := by rw [setAddrWindow_eq]
  unfold paintRect
  generalize setAddrWindow s.x0 s.y0 s.x1 s.y1 s = t at hwin hctl
  have htc : t.ctl.caller = .fill := by rw [hctl, hc]
  have hstream := reaches_stream (loadPixels t)
  rw [returnFrom_setAddrWindow_of_fill htc] at hwin
  rw [returnFrom_streamPixels_of_fill (by rw [streamPixels_eq]; exact htc)] at hstream
  exact hwin.trans (.step rfl hstream)

/-- The first small step of a fill: off-panel test, empty test, clip (R195). -/
theorem seqStep_fillTest (s : State) :
    seqStep (hostStarted .fill .fillTest s) =
      if offPanel s then .next (endHost s)
      else if emptyRect s then .refused .degenerateRect
      else .next (goto (.window 0) (clipRect (hostStarted .fill .fillTest s))) := rfl

theorem endHost_of_idle {s : State} (hctl : s.ctl = Ctl.idle) (hb : s.busy = false) : endHost s = s := by
  rw [endHost, ← hctl, ← hb]

/-- A fill by small steps, from its first position (R195). -/
theorem reaches_fill {x y w h color : Word} {s : State} (hctl : s.ctl = Ctl.idle) (ha : acceptFill s = none) :
    Reaches (hostStarted .fill .fillTest (latchRect x y w h color s)) (execFillrect x y w h color s) := by
  have hb := (acceptFill_eq_none.mp ha).1
  have hoff := offPanel_latched (x := x) (y := y) (w := w) (h := h) (color := color) (s := s)
  have hempty := emptyRect_latched (x := x) (y := y) (w := w) (h := h) (color := color) (s := s)
  have hstep := seqStep_fillTest (latchRect x y w h color s)
  rcases execFillrect_cases x y w h color s with
    ⟨_, ho, e⟩ | ⟨_, hx, hy, he, e⟩ | ⟨_, hx, hy, hw, hh, e⟩ | ⟨⟨r, hr⟩, _⟩
  · rw [if_pos (hoff.mpr ho), endHost_of_idle (s := latchRect x y w h color s) hctl hb] at hstep
    rw [e]
    exact .step hstep (.refl _)
  · rw [if_neg (mt hoff.mp (by omega)), if_pos (hempty.mpr he)] at hstep
    rw [e]
    exact .refused hstep
  · rw [if_neg (mt hoff.mp (by omega)), if_neg (mt hempty.mp (not_or.mpr ⟨hw, hh⟩))] at hstep
    have hend : endHost (paintRect (clipRect (hostStarted .fill .fillTest (latchRect x y w h color s)))) =
        paintRect (clipRect (latchRect x y w h color s)) := by
      simp only [endHost, paintRect_eq, clipRect, hostStarted, latchRect, hctl, hb]
    rw [e, ← hend]
    exact .step hstep (reaches_paint rfl)
  · rw [ha] at hr
    cases hr

/-- FILLRECT by small steps, its acceptance included (R195, R246). -/
theorem reaches_fillrect {x y w h color : Word} {s u : State} (hctl : u.ctl = Ctl.idle)
    (hs : seqStep s = startHost (.fillrect x y w h color) u) : Reaches s (execFillrect x y w h color u) := by
  cases ha : acceptFill u with
  | none =>
    simp only [startHost, ha] at hs
    exact .step hs (reaches_fill hctl ha)
  | some r =>
    simp only [startHost, ha] at hs
    rw [execFillrect, ha]
    exact .refused hs

/-- INIT by small steps, its acceptance and launch premise included (R222, R244, R246). -/
theorem reaches_execInit {s u : State} (hctl : u.ctl = Ctl.idle) (hs : seqStep s = startHost .init u) :
    Reaches s (execInit u) := by
  rcases execInit_cases u with ⟨ha, hl, e⟩ | ⟨ha, hl, e⟩ | ⟨⟨r, ha⟩, e⟩ <;> rw [e]
  · simp only [startHost, ha, hl, if_true] at hs
    exact .step hs (reaches_init hctl hl)
  · simp only [startHost, ha, hl, Bool.false_eq_true, if_false] at hs
    exact .refused hs
  · simp only [startHost, ha, acceptInit_eq_some ha] at hs
    exact .refused hs

/-- The host operations a port word can select (R101). -/
theorem decodePort_cases (w : PortWord) :
    decodePort w = .init ∨ (∃ color, decodePort w = .fillscreen color) ∨
      (∃ x y a b color, decodePort w = .fillrect x y a b color) ∨ decodePort w = .reservedOp3 := by
  unfold decodePort
  simp only
  split
  · exact .inl rfl
  · split
    · exact .inr (.inl ⟨_, rfl⟩)
    · split
      · exact .inr (.inr (.inl ⟨_, _, _, _, _, rfl⟩))
      · exact .inr (.inr (.inr rfl))

/-- The operation a port word selects, started by the sequencer on an idle block, ends as its meaning does. -/
theorem reaches_hostOperation {w : PortWord} {rest : List PortWord} {s : State} (hctl : s.ctl = Ctl.idle)
    (hport : s.port = w :: rest) : Reaches s (exec (decodePort w) { s with port := rest }) := by
  have hpos : s.ctl.pos = .idle := by rw [hctl]; rfl
  have hs : seqStep s = startHost (decodePort w) { s with port := rest } := by simp only [seqStep, hpos, hport]
  rcases decodePort_cases w with e | ⟨color, e⟩ | ⟨x, y, a, b, color, e⟩ | e <;> rw [e] at hs ⊢
  · exact reaches_execInit hctl hs
  · exact reaches_fillrect hctl hs
  · exact reaches_fillrect hctl hs
  · exact .refused hs

/-- Settles O51: whatever the meaning answers is what the sequencer reaches. -/
theorem smallStepSequencerIsTheMeaning : Obligations.SmallStepSequencerIsTheMeaning := by
  intro s w rest hctl hport
  have hreach := reaches_hostOperation hctl hport
  exact ⟨fun t ht => ht ▸ hreach, fun r hr => hr ▸ hreach⟩

end Sys2Proof.Proofs
end

section
/-! PROOFS. The program ROM (R60 to R63): its reads and stores, and that a step leaves it alone and only appends to the
trace, up to a refused read. -/

namespace Sys2Proof.Proofs

open Sys2Proof Sys2Proof.Machine Sys2Proof.Safety Sys2Proof.Laws

/-! ### Reads and stores -/

/-- Settles O12. -/
theorem romReadBounds : Obligations.RomReadBounds := fun _ _ => ⟨memRead_inside, memRead_outside⟩

/-- Settles O13: at the address stored to the byte is read back, elsewhere the store is not seen. -/
theorem romStoreLaws : Obligations.RomStoreLaws := by
  intro m a c b hwf
  refine ⟨write_wf a b hwf, ?_⟩
  split
  · next hc => rw [hc, read_write_self a b hwf]
  · next hc => exact read_write_other m b hc

/-! ### What a step leaves behind it -/

/-- The ROM, its size and the program's extent: the configuration fixed before a run (R21). -/
def romConfig (s : State) := (s.rom, s.romSize, s.initLen)

/-- `t` follows `s`: the same ROM, and a trace that begins with that of `s`. -/
structure Extends (s t : State) : Prop where
  romConfig : romConfig t = romConfig s
  trace : s.trace <+: t.trace

theorem Extends.of_trace_eq {s t : State} (hrom : Proofs.romConfig t = Proofs.romConfig s)
    (htrace : t.trace = s.trace) : Extends s t := ⟨hrom, [], by rw [List.append_nil, htrace]⟩

theorem Extends.refl (s : State) : Extends s s := .of_trace_eq rfl rfl

theorem Extends.trans {s t u : State} (h : Extends s t) (k : Extends t u) : Extends s u :=
  ⟨k.romConfig.trans h.romConfig, h.trace.trans k.trace⟩

theorem Extends.emit {s t : State} (es : List Event) (h : Extends s t) : Extends s (emit es t) :=
  ⟨h.romConfig, h.trace.trans ⟨es, rfl⟩⟩

theorem Extends.goto {s t : State} (p : Pos) (h : Extends s t) : Extends s (goto p t) := ⟨h.romConfig, h.trace⟩

theorem Extends.endHost {s t : State} (h : Extends s t) : Extends s (endHost t) := ⟨h.romConfig, h.trace⟩

/-- A sub-operation returns by a new control state alone, or it ends the host operation (R150, R246). -/
theorem returnFrom_cases (op : SubOp) (s : State) :
    (∃ c, returnFrom op s = { s with ctl := c }) ∨ returnFrom op s = endHost s := by
  unfold returnFrom
  cases s.ctl.caller with
  | none => exact .inl ⟨_, rfl⟩
  | init => cases op <;> exact .inl ⟨_, rfl⟩
  | fill =>
    cases op with
    | streamPixels => exact .inr rfl
    | _ => exact .inl ⟨_, rfl⟩

theorem Extends.returnFrom {s t : State} (op : SubOp) (h : Extends s t) : Extends s (returnFrom op t) := by
  rcases returnFrom_cases op t with ⟨c, e⟩ | e <;> rw [e]
  · exact ⟨h.romConfig, h.trace⟩
  · exact h.endHost

theorem Extends.recordDone {s t : State} (h : Extends s t) : Extends s (recordDone t) := by
  unfold Machine.recordDone
  split
  · exact h.returnFrom .runProg
  · exact h.goto .ciOpc

theorem Extends.nextRecord {s t : State} (h : Extends s t) : Extends s (nextRecord t) :=
  Extends.recordDone (t := { t with cnt := guardedDec t.cnt }) ⟨h.romConfig, h.trace⟩

theorem Extends.afterArgs {s t : State} (h : Extends s t) : Extends s (afterArgs t) := by
  unfold Machine.afterArgs
  split
  · split
    · exact h.goto .ciDlyb
    · exact h.nextRecord
  · exact h.goto .ciArg

theorem Extends.nextPixel {s t : State} (h : Extends s t) : Extends s (nextPixel t) := by
  unfold Proofs.nextPixel
  split
  · exact h.goto .streamClose
  · exact h.goto .streamPix

theorem doWrite_extends (w : LogicalWrite) (s : State) : Extends s (doWrite w s) := by
  cases w <;> exact ⟨rfl, _, rfl⟩

/-! ### A small step -/

theorem startSub_extends (op : SubOp) (s : State) : Extends s (startSub op s) := by
  cases op with
  | writeCommand => exact ((Extends.refl s).emit (wc s.opc)).returnFrom .writeCommand
  | writeData => exact ((Extends.refl s).emit (wd s.dat)).returnFrom .writeData
  | streamPixels | runProg | setAddrWindow | resetPulse => exact .of_trace_eq rfl rfl

/-- The interpreter's positions: every fetch leaves the ROM alone, and what follows it only emits (R148). -/
theorem seqStep_extends_interpreting {s t : State} (hi : Interpreting s.ctl.pos = true) (h : seqStep s = .next t) :
    Extends s t := by
  unfold seqStep at h
  cases hpos : s.ctl.pos <;> rw [hpos] at hi h
  case ciCount =>
    obtain ⟨_, rfl⟩ := fetchByte_next h
    exact Extends.recordDone (.of_trace_eq rfl rfl)
  case ciOpc =>
    obtain ⟨_, rfl⟩ := fetchByte_next h
    exact ⟨rfl, _, rfl⟩
  case ciHdr =>
    obtain ⟨_, rfl⟩ := fetchByte_next h
    exact Extends.afterArgs (.of_trace_eq rfl rfl)
  case ciArg =>
    obtain ⟨_, rfl⟩ := fetchByte_next h
    exact Extends.afterArgs ⟨rfl, _, rfl⟩
  case ciDlyb =>
    obtain ⟨_, rfl⟩ := fetchByte_next h
    exact .of_trace_eq rfl rfl
  case ciWait =>
    cases h
    exact ((Extends.refl s).emit _).nextRecord
  all_goals cases hi

theorem seqStep_extends {s t : State} (h : seqStep s = .next t) : Extends s t := by
  cases hpos : s.ctl.pos
  case ciCount | ciOpc | ciHdr | ciArg | ciDlyb | ciWait => exact seqStep_extends_interpreting (by rw [hpos]; rfl) h
  all_goals
    unfold seqStep at h
    simp only [hpos] at h
  case idle =>
    split at h
    · cases h; exact .refl s
    · rcases startHost_next h with ⟨_, rfl⟩ | ⟨_, _, _, _, _, _, rfl⟩ <;> exact .of_trace_eq rfl rfl
  case sub op => cases h; exact startSub_extends op s
  case initPins => cases h; exact Extends.goto _ ⟨rfl, _, rfl⟩
  case initPost => cases h; exact Extends.returnFrom .writeData ⟨rfl, _, rfl⟩
  case progStart | initLatch | pixLoad => cases h; exact .of_trace_eq rfl rfl
  case pulse i =>
    have hp := (Extends.refl s).emit [pulseEvents.get i]
    split at h <;> cases h
    · exact hp.goto _
    · exact hp.returnFrom .resetPulse
  case fillTest =>
    split at h
    · cases h; exact (Extends.refl s).endHost
    · split at h <;> cases h
      exact .of_trace_eq rfl rfl
  case window i =>
    have hw := doWrite_extends ((windowWrites s.x0 s.y0 s.x1 s.y1).get i) s
    split at h <;> cases h
    · exact hw.goto _
    · exact hw.returnFrom .setAddrWindow
  case streamOpen => cases h; exact ((Extends.refl s).emit streamHead).nextPixel
  case streamPix => cases h; exact Extends.nextPixel ⟨rfl, _, rfl⟩
  case streamClose => cases h; exact ((Extends.refl s).emit streamTail).returnFrom .streamPixels

/-! ### A whole instruction -/

theorem Completed.romConfig_eq {i : Instr} {s t : State} (h : Completed s i t) : romConfig t = romConfig s := by
  cases h with
  | record r hr => rw [runRecord_eq]; rfl
  | init ha hl =>
    obtain ⟨_, _, _, _, _, _, _, _, _, _, e, _⟩ := initEnd_shape s
    rw [e]
    rfl
  | fillPainted x y w h color hi ha => rw [painted_eq]; rfl
  | runprog base => exact (congrArg romConfig (runAll_interpreterOnly _ _).1).trans rfl
  | setaddrwindow x0 y0 x1 y1 => rw [setAddrWindow_eq]; rfl
  | dly500 | dlyms | fillOff | writecommand | writedata | streampixels | resetpulse => rfl

theorem extends_of_completed {i : Instr} {s t : State} (h : Completed s i t) : Extends s t := by
  obtain ⟨es, he, _⟩ := h.blocks
  exact ⟨h.romConfig_eq, es, he.symm⟩

/-- The fetch of a whole instruction moves `PP` or takes a request, and writes nothing else. -/
theorem fetchNext_run {i : Instr} {s t : State} (h : fetchNext s = .run i t) :
    romConfig t = romConfig s ∧ t.trace = s.trace := by
  unfold fetchNext at h
  cases hpos : s.ctl.pos <;> simp only [hpos] at h
  case idle | ciOpc | ciDlyb =>
    split at h <;> cases h
    exact ⟨rfl, rfl⟩
  case sub op => cases h; exact ⟨rfl, rfl⟩
  all_goals cases h

theorem Extends.afterInstr {s t : State} (p : Pos) (h : Extends s t) : Extends s (afterInstr p t) := by
  cases p
  case sub op => exact h.returnFrom op
  case ciOpc => exact h.recordDone
  case ciDlyb => exact h.nextRecord
  all_goals exact h

/-- Every step keeps the ROM and extends the trace. -/
theorem step_extends {s t : State} (h : step s = .next t) : Extends s t := by
  unfold step at h
  cases hf : fetchNext s with
  | quiet => rw [hf] at h; cases h; exact .refl s
  | run i u =>
    rw [hf] at h
    obtain ⟨v, hv, rfl⟩ := mapNext_eq_next h
    obtain ⟨hrom, htrace⟩ := fetchNext_run hf
    have hu : Extends s u := .of_trace_eq hrom htrace
    exact (hu.trans (extends_of_completed (completed_of_exec hv))).afterInstr _
  | micro => rw [hf] at h; exact seqStep_extends h

/-- Settles O31: the ROM is part of what every step keeps. -/
theorem noStepWritesTheRom : Obligations.NoStepWritesTheRom := by
  intro s t h
  have hrom := (step_extends h).romConfig
  simpa only [romConfig, Prod.mk.injEq] using hrom

/-! ### A refused read -/

theorem refuseReserved_ne_romOutOfRange (s : State) (tr : List Event) : refuseReserved s ≠ .romOutOfRange tr := by
  unfold refuseReserved
  split <;> nofun

/-- The start of a host operation reads no ROM, so it is not refused as `RomOutOfRange` (R246). -/
theorem startHost_ne_romOutOfRange (i : Instr) (s : State) (tr : List Event) :
    startHost i s ≠ .refused (.romOutOfRange tr) := by
  intro h
  cases i with
  | init =>
    simp only [startHost] at h
    split at h
    · next hr => rw [acceptInit_eq_some hr] at h; cases h
    · split at h <;> cases h
  | fillscreen | fillrect =>
    simp only [startHost] at h
    split at h
    · next hr => rw [acceptFill_eq_some hr] at h; cases h
    · cases h
  | _ => exact refuseReserved_ne_romOutOfRange s tr (Host.Outcome.refused.inj h)

/-- A small step that meets a refused read has emitted nothing before it (R62). -/
theorem seqStep_romOutOfRange {s : State} {tr : List Event} (h : seqStep s = .refused (.romOutOfRange tr)) :
    tr = s.trace := by
  unfold seqStep at h
  cases hpos : s.ctl.pos <;> simp only [hpos] at h
  case idle =>
    split at h
    · cases h
    · exact absurd h (startHost_ne_romOutOfRange _ _ tr)
  case ciCount | ciOpc | ciHdr | ciArg | ciDlyb => cases (fetchByte_refused h).2; rfl
  case pulse | window => split at h <;> cases h
  case fillTest =>
    split at h
    · cases h
    · split at h <;> cases h
  all_goals cases h

/-- A fill reads no ROM. -/
theorem execFillrect_ne_romOutOfRange (x y w h color : Word) (s : State) (tr : List Event) :
    execFillrect x y w h color s ≠ .refused (.romOutOfRange tr) := by
  rcases execFillrect_cases x y w h color s with
    ⟨_, _, e⟩ | ⟨_, _, _, _, e⟩ | ⟨_, _, _, _, _, e⟩ | ⟨_, e⟩ <;> rw [e] <;> nofun

/-- Of the whole instructions RUNPROG alone meets a refused read, after the events of the program up to there (R62). -/
theorem exec_romOutOfRange {i : Instr} {s : State} {tr : List Event} (h : exec i s = .refused (.romOutOfRange tr)) :
    s.trace <+: tr := by
  cases hr : i.rawRecord? with
  | some r => cases (exec_record hr s).symm.trans h
  | none =>
    cases i with
    | init => rcases execInit_cases s with ⟨_, _, e⟩ | ⟨_, _, e⟩ | ⟨_, e⟩ <;> cases e.symm.trans h
    | fillscreen color => exact absurd h (execFillrect_ne_romOutOfRange 0 0 s.geo.width s.geo.height color s tr)
    | fillrect x y w h' color => exact absurd h (execFillrect_ne_romOutOfRange x y w h' color s tr)
    | reservedOp3 => exact absurd (Host.Outcome.refused.inj h) (refuseReserved_ne_romOutOfRange s tr)
    | runprog base =>
      rcases runProgram_cases base s with ⟨_, _, e⟩ | ⟨_, e⟩ <;> cases e.symm.trans h
      exact ⟨_, rfl⟩
    | _ => cases h

theorem step_romOutOfRange {s : State} {tr : List Event} (h : step s = .refused (.romOutOfRange tr)) :
    s.trace <+: tr := by
  unfold step at h
  cases hf : fetchNext s with
  | quiet => rw [hf] at h; cases h
  | run i u =>
    rw [hf] at h
    rw [← (fetchNext_run hf).2]
    exact exec_romOutOfRange (mapNext_eq_refused h)
  | micro => rw [hf] at h; rw [seqStep_romOutOfRange h]

/-- Settles O36: the trace after a step begins with the one before it, and so does the trace a refused read carries. -/
theorem stepsOnlyAppendToTheTrace : Obligations.StepsOnlyAppendToTheTrace := by
  refine ⟨fun s t h => ?_, fun s tr h => ?_⟩
  · obtain ⟨es, he⟩ := (step_extends h).trace
    exact ⟨es, he.symm⟩
  · obtain ⟨es, he⟩ := step_romOutOfRange h
    exact ⟨es, he.symm⟩

end Sys2Proof.Proofs
end

section
/-! PROOFS. A host operation reads the ROM, the phase, `BUSY` and the geometry, and no working register, latch or trace
(R70, R284). -/

namespace Sys2Proof.Proofs

open Sys2Proof Sys2Proof.Machine Sys2Proof.Safety Sys2Proof.Laws

/-- Two blocks that agree on all a host operation reads. -/
structure SameInputs (s s' : State) : Prop where
  rom : s.rom = s'.rom
  romSize : s.romSize = s'.romSize
  initLen : s.initLen = s'.initLen
  phase : s.phase = s'.phase
  busy : s.busy = s'.busy
  geo : s.geo = s'.geo

/-- Two answers, from `s` and from `s'`, that append the same events or are the same refusal. -/
def AnswersAlike (s s' : State) (r r' : Result) : Prop :=
  (∃ t t' es, r = .next t ∧ r' = .next t' ∧ t.trace = s.trace ++ es ∧ t'.trace = s'.trace ++ es) ∨
    ∃ e, r = .refused e ∧ r' = .refused e

theorem SameInputs.acceptInit_eq {s s' : State} (h : SameInputs s s') : acceptInit s = acceptInit s' := by
  simp only [acceptInit, h.busy, h.phase]

theorem SameInputs.acceptFill_eq {s s' : State} (h : SameInputs s s') : acceptFill s = acceptFill s' := by
  simp only [acceptFill, h.busy, h.phase]

theorem SameInputs.launchable_eq {s s' : State} (h : SameInputs s s') : launchable s = launchable s' := by
  unfold launchable
  rw [h.initLen]
  exact wellFormed_congr h.rom h.romSize

theorem SameInputs.init {s s' : State} (h : SameInputs s s') : AnswersAlike s s' (execInit s) (execInit s') := by
  rcases execInit_cases s with ⟨ha, hl, e⟩ | ⟨ha, hl, e⟩ | ⟨⟨r, ha⟩, e⟩ <;> rw [h.acceptInit_eq] at ha
  · have e' := execInit_ok ha (h.launchable_eq ▸ hl)
    obtain ⟨_, _, _, _, _, _, _, _, _, _, hs, _⟩ := initEnd_shape s
    obtain ⟨_, _, _, _, _, _, _, _, _, _, hs', _⟩ := initEnd_shape s'
    rw [hs, h.rom] at e
    rw [hs'] at e'
    exact .inl ⟨_, _, _, e, e', rfl, rfl⟩
  · exact .inr ⟨_, e, execInit_malformed ha (h.launchable_eq ▸ hl)⟩
  · exact .inr ⟨_, e, execInit_notReady ha⟩

theorem SameInputs.fill {s s' : State} (k : SameInputs s s') (x y w h color : Word) :
    AnswersAlike s s' (execFillrect x y w h color s) (execFillrect x y w h color s') := by
  rcases execFillrect_cases x y w h color s with
    ⟨ha, ho, e⟩ | ⟨ha, hx, hy, he, e⟩ | ⟨ha, hx, hy, hw, hh, e⟩ | ⟨⟨r, ha⟩, e⟩ <;> rw [k.acceptFill_eq] at ha
  · rw [k.geo] at ho
    exact .inl ⟨_, _, [], e, execFillrect_off ha ho, by simp⟩
  · rw [k.geo] at hx hy
    exact .inr ⟨_, e, execFillrect_empty ha hx hy he⟩
  · rw [k.geo] at hx hy
    have e' := execFillrect_painted (color := color) ha hx hy hw hh
    rw [painted_eq, k.geo] at e
    rw [painted_eq] at e'
    exact .inl ⟨_, _, _, e, e', rfl, rfl⟩
  · exact .inr ⟨_, e, execFillrect_notReady ha⟩

/-- Settles O40, by the host operation. -/
theorem hostOperationIgnoresWorkingRegisters : Obligations.HostOperationIgnoresWorkingRegisters := by
  intro i s s' hi hrom hsize hlen hphase hbusy hgeo
  have h : SameInputs s s' := ⟨hrom, hsize, hlen, hphase, hbusy, hgeo⟩
  cases i with
  | init => exact h.init
  | fillscreen color =>
    have hfill := h.fill 0 0 s.geo.width s.geo.height color
    rw [← execFillscreen_eq, hgeo, ← execFillscreen_eq] at hfill
    exact hfill
  | fillrect x y w h' color => exact h.fill x y w h' color
  | reservedOp3 =>
    have hr : refuseReserved s' = refuseReserved s := by simp only [refuseReserved, hbusy]
    exact .inr ⟨refuseReserved s, rfl, congrArg Host.Outcome.refused hr⟩
  | _ => exact hi.elim

end Sys2Proof.Proofs
end

section
/-! PROOFS. A record that the end of the ROM cuts short: its small steps up to the refused read (R61, R62). -/

namespace Sys2Proof.Proofs

open Sys2Proof Sys2Proof.Machine Sys2Proof.Safety Sys2Proof.Laws

/-- The machine, run from `s`, comes to a read at or beyond `limit` that is refused, with the trace `tr` and `CNT` at
`cnt`. -/
def StopsWith (limit : Nat) (cnt : Byte) (s : State) (tr : List Event) : Prop :=
  ∃ n t, Host.Core.run Sys2Proof.core n s = .next t ∧ t.trace = tr ∧ t.cnt = cnt ∧ limit ≤ t.pp.toNat ∧
    step t = .refused (.romOutOfRange t.trace)

theorem StopsWith.step {limit : Nat} {cnt : Byte} {s u : State} {tr : List Event} (hs : step s = .next u)
    (h : StopsWith limit cnt u tr) : StopsWith limit cnt s tr := by
  obtain ⟨n, t, hrun, hstop⟩ := h
  have hcore : Host.Core.step Sys2Proof.core s = .next u := hs
  refine ⟨n + 1, t, ?_, hstop⟩
  simp only [Host.Core.run, hcore]
  exact hrun

/-- A fetching step taken with `PP` at or beyond `ROM_SIZE`: the run stops here. -/
theorem stopsWith_fetch {p : Pos} {s : State} {f : Byte → State → State} (hs : step (goto p s) = fetchByte s f)
    (hp : s.romSize.val ≤ s.pp.toNat) : StopsWith s.romSize.val s.cnt (goto p s) s.trace :=
  ⟨0, goto p s, rfl, rfl, rfl, hp, hs.trans (fetchByte_outside f hp)⟩

theorem step_ciHdr (s : State) : step (goto .ciHdr s) =
    fetchByte s fun a t => afterArgs { t with args := a, dlyf := hasDelay a, argc := argCount a } :=
  (step_eq_seqStep rfl).trans (seqStep_ciHdr s)

theorem step_ciArg (s : State) : step (goto .ciArg s) =
    fetchByte s fun d t => afterArgs { sendData d t with argc := guardedDec t.argc } :=
  (step_eq_seqStep rfl).trans (seqStep_ciArg s)

/-- The first step of a record cut short is its opcode's fetch (R61). -/
theorem step_ciOpc_goto {s : State} (hcut : s.romSize.val < s.pp.toNat + recordLenAt s.rom s.pp.toNat) :
    step (goto .ciOpc s) = fetchByte s fun o t => goto .ciHdr (writeCommand o { t with opc := o }) :=
  (step_ciOpc_cut (s := goto .ciOpc s) rfl hcut).trans (seqStep_ciOpc s)

/-- After the argsByte, with `n` arguments due and the rest of the record not all below `ROM_SIZE`: a data write for
each argument that is (R61). -/
theorem stopsWith_arguments {n : Nat} {s : State} (hn : s.argc.toNat = n) (hp : s.pp.toNat ≤ s.romSize.val)
    (hcut : s.romSize.val < s.pp.toNat + n + s.dlyf.toNat) :
    StopsWith s.romSize.val s.cnt (afterArgs s)
      (s.trace ++ (bytesAt s.rom s.pp.toNat (min n (s.romSize.val - s.pp.toNat))).flatMap wd) := by
  induction n generalizing s with
  | zero =>
    have hf : s.dlyf = true := by
      cases hf : s.dlyf with
      | true => rfl
      | false => rw [hf, Bool.toNat_false] at hcut; omega
    have hout : s.romSize.val ≤ s.pp.toNat := by rw [hf, Bool.toNat_true] at hcut; omega
    have e : afterArgs s = goto .ciDlyb s := by
      rw [afterArgs, if_pos (BitVec.eq_of_toNat_eq hn), if_pos hf]
    rw [e, Nat.zero_min, bytesAt_zero, List.flatMap_nil, List.append_nil]
    exact ⟨0, goto .ciDlyb s, rfl, rfl, rfl, hout, step_ciDlyb_outside rfl hout⟩
  | succ n ih =>
    have e : afterArgs s = goto .ciArg s := if_neg fun h0 => by rw [h0] at hn; cases hn
    rw [e]
    by_cases hin : s.pp.toNat < s.romSize.val
    · have hpp := pp_succ_toNat hin
      have hrest := ih (s := { sendData (Memory.read s.rom s.pp.toNat) { s with pp := s.pp + 1 } with
          argc := guardedDec s.argc })
        (by rw [guardedDec_toNat, hn]; rfl)
        (by change (s.pp + 1).toNat ≤ s.romSize.val; omega)
        (by change s.romSize.val < (s.pp + 1).toNat + n + s.dlyf.toNat; omega)
      change StopsWith s.romSize.val s.cnt _ (s.trace ++ wd (Memory.read s.rom s.pp.toNat) ++
        (bytesAt s.rom (s.pp + 1).toNat (min n (s.romSize.val - (s.pp + 1).toNat))).flatMap wd) at hrest
      rw [hpp, List.append_assoc, ← List.flatMap_cons, ← bytesAt_succ,
        show min n (s.romSize.val - (s.pp.toNat + 1)) + 1 = min (n + 1) (s.romSize.val - s.pp.toNat) by omega] at hrest
      exact .step ((step_ciArg s).trans (fetchByte_inside _ hin)) hrest
    · rw [Nat.sub_eq_zero_of_le (by omega), Nat.min_zero, bytesAt_zero, List.flatMap_nil, List.append_nil]
      exact stopsWith_fetch (step_ciArg s) (by omega)

/-- After the opcode's command write: the argsByte, if it lies below `ROM_SIZE`, then the arguments that do. -/
theorem stopsWith_header {s : State} {k : Nat} (hk : k = (argCount (Memory.read s.rom s.pp.toNat)).toNat)
    (hp : s.pp.toNat ≤ s.romSize.val)
    (hcut : s.romSize.val < s.pp.toNat + 1 + k + (hasDelay (Memory.read s.rom s.pp.toNat)).toNat) :
    StopsWith s.romSize.val s.cnt (goto .ciHdr s)
      (s.trace ++ (bytesAt s.rom (s.pp.toNat + 1) (min k (s.romSize.val - (s.pp.toNat + 1)))).flatMap wd) := by
  by_cases hin : s.pp.toNat < s.romSize.val
  · have hpp := pp_succ_toNat hin
    rw [← hpp] at hcut ⊢
    exact .step ((step_ciHdr s).trans (fetchByte_inside _ hin)) (stopsWith_arguments
      (s := { s with
        pp := s.pp + 1, args := Memory.read s.rom s.pp.toNat, dlyf := hasDelay (Memory.read s.rom s.pp.toNat)
        argc := argCount (Memory.read s.rom s.pp.toNat) })
      hk.symm (by change (s.pp + 1).toNat ≤ s.romSize.val; omega) hcut)
  · rw [Nat.sub_eq_zero_of_le (by omega), Nat.min_zero, bytesAt_zero, List.flatMap_nil, List.append_nil]
    exact stopsWith_fetch (step_ciHdr s) (by omega)

/-- A record cut short, from its opcode on (R61, R62). -/
theorem stopsWith_record {s : State} (hcut : s.romSize.val < s.pp.toNat + recordLenAt s.rom s.pp.toNat) :
    StopsWith s.romSize.val s.cnt (goto .ciOpc s) (s.trace ++
      if s.pp.toNat < s.romSize.val then
        wc (Memory.read s.rom s.pp.toNat) ++ (bytesAt s.rom (s.pp.toNat + 2)
          (min (argCount (argsByteAt s.rom s.pp.toNat)).toNat (s.romSize.val - (s.pp.toNat + 2)))).flatMap wd
      else []) := by
  have hs := step_ciOpc_goto hcut
  split
  · next hin =>
    have hpp := pp_succ_toNat hin
    have hheader := stopsWith_header
      (s := writeCommand (Memory.read s.rom s.pp.toNat)
        { s with pp := s.pp + 1, opc := Memory.read s.rom s.pp.toNat }) rfl
      (by change (s.pp + 1).toNat ≤ s.romSize.val; omega)
      (by
        change s.romSize.val < (s.pp + 1).toNat + 1 + (argCount (Memory.read s.rom (s.pp + 1).toNat)).toNat +
          (hasDelay (Memory.read s.rom (s.pp + 1).toNat)).toNat
        rw [recordLenAt, argsByteAt] at hcut
        rw [hpp]
        omega)
    change StopsWith s.romSize.val s.cnt _ (s.trace ++ wc (Memory.read s.rom s.pp.toNat) ++
      (bytesAt s.rom ((s.pp + 1).toNat + 1) (min (argCount (Memory.read s.rom (s.pp + 1).toNat)).toNat
        (s.romSize.val - ((s.pp + 1).toNat + 1)))).flatMap wd) at hheader
    rw [hpp, List.append_assoc] at hheader
    exact .step (hs.trans (fetchByte_inside _ hin)) hheader
  · next hout =>
    rw [List.append_nil]
    exact stopsWith_fetch hs (by omega)

/-- Settles O60: the run of `stopsWith_record`, the arguments written out as the statement lists them. -/
theorem cutShortRecordStopsAtTheRefusedRead : Obligations.CutShortRecordStopsAtTheRefusedRead := by
  intro s hpos hcut
  have hgoto : goto .ciOpc s = s := by rw [← hpos]; rfl
  have hstop := stopsWith_record hcut
  rw [hgoto] at hstop
  simpa only [StopsWith, bytesAt, List.take_range, List.flatMap_map] using hstop

end Sys2Proof.Proofs
end

section
/-! PROOFS. The encodings (30_encoding.md): the argsByte and the record, the port word and the `SUBOP` codes, decoding
after encoding, and an assembled program in the ROM. -/

namespace Sys2Proof.Proofs

open Sys2Proof Sys2Proof.Machine Sys2Proof.Safety Sys2Proof.Laws

/-! ### The argsByte (R92) -/

/-- Every argsByte is the one of its fields. -/
theorem mkArgsByte_fields (a : Byte) : mkArgsByte (hasDelay a) (argCount a) = a := by
  revert a; decide

/-- The fields of an argsByte as masks, and its value as `0x80 * f + k`. -/
theorem argsByte_masks (a : Byte) : (hasDelay a = true ↔ a &&& 0x80 ≠ 0) ∧
    (argCount a).toNat = (a &&& 0x7F).toNat ∧ a.toNat = 128 * (hasDelay a).toNat + (argCount a).toNat := by
  revert a; decide

/-- A record's argsByte is the byte whose fields describe the record. -/
theorem argsByte_eq {r : RawRecord} {a : Byte} (hk : r.args.length = (argCount a).toNat)
    (hf : r.delay.isSome = hasDelay a) : r.argsByte = a := by
  rw [RawRecord.argsByte, hk, hf, BitVec.ofNat_toNat, BitVec.setWidth_eq, mkArgsByte_fields]

/-- The fields of a record's argsByte describe the record. -/
theorem fields_argsByte {r : RawRecord} (hfit : r.args.length ≤ 127) :
    (argCount r.argsByte).toNat = r.args.length ∧ hasDelay r.argsByte = r.delay.isSome := by
  obtain ⟨hf, hk⟩ := argsByte_fields r.delay.isSome (BitVec.ofNat 7 r.args.length)
  refine ⟨?_, hf⟩
  rw [RawRecord.argsByte, hk, BitVec.toNat_ofNat]
  omega

/-! ### Records (R91, R94) -/

theorem bytes_length (r : RawRecord) : r.bytes.length = r.len := by
  simp only [RawRecord.bytes, RawRecord.len, List.length_cons, List.length_append]
  omega

theorem delay_toList_length (r : RawRecord) : r.delay.toList.length = r.delay.isSome.toNat := by
  cases r.delay <;> rfl

/-- A flag's delay byte off the front of a byte list that has it (R93). -/
theorem exists_delay {f : Bool} {tail : List Byte} (h : f.toNat ≤ tail.length) :
    ∃ (delay : Option Byte) (after : List Byte), delay.isSome = f ∧ delay.toList ++ after = tail := by
  match f, tail with
  | false, tail => exact ⟨none, tail, rfl, rfl⟩
  | true, [] => cases h
  | true, d :: after => exact ⟨some d, after, rfl, rfl⟩

/-- Where the bytes an argsByte announces are there, a record is their cut into arguments, delay byte and rest. -/
theorem exists_record (o : Byte) {a : Byte} {tail : List Byte}
    (h : (argCount a).toNat + (hasDelay a).toNat ≤ tail.length) :
    ∃ (r : RawRecord) (after : List Byte), r.bytes ++ after = o :: a :: tail ∧ r.opcode = o ∧
      r.args.length = (argCount a).toNat ∧ r.delay.isSome = hasDelay a := by
  obtain ⟨delay, after, hf, hdrop⟩ := exists_delay (f := hasDelay a) (tail := tail.drop (argCount a).toNat)
    (by rw [List.length_drop]; omega)
  have hk : (tail.take (argCount a).toNat).length = (argCount a).toNat := List.length_take_of_le (by omega)
  have ha := argsByte_eq (r := ⟨o, tail.take (argCount a).toNat, delay⟩) hk hf
  refine ⟨⟨o, tail.take (argCount a).toNat, delay⟩, after, ?_, rfl, hk, hf⟩
  rw [RawRecord.bytes, ha, List.cons_append, List.cons_append, List.append_assoc, hdrop, List.take_append_drop]

/-- The bytes an argsByte announces are there when the record decodes. -/
theorem length_le_of_decodeRecord {o a : Byte} {tail : List Byte} {p : RawRecord × List Byte}
    (h : decodeRecord (o :: a :: tail) = .ok p) : (argCount a).toNat + (hasDelay a).toNat ≤ tail.length := by
  simp only [decodeRecord] at h
  split at h
  · cases h
  · next hlen =>
    split at h
    · next hf => rw [hf, Bool.toNat_false]; omega
    · cases h
    · next hf hdrop =>
      have := congrArg List.length hdrop
      rw [List.length_drop, List.length_cons] at this
      rw [hf, Bool.toNat_true]
      omega

/-- What a decoded record is: its argument count fits, and its bytes are the input's. -/
theorem decodeRecord_eq_ok {bs rest : List Byte} {r : RawRecord} (h : decodeRecord bs = .ok (r, rest)) :
    r.args.length ≤ 127 ∧ r.bytes ++ rest = bs := by
  match bs with
  | [] => cases h
  | [_] => cases h
  | o :: a :: tail =>
    obtain ⟨q, after, hbytes, _, hk, _⟩ := exists_record o (length_le_of_decodeRecord h)
    have hfit : q.args.length ≤ 127 := by have := (argCount a).isLt; omega
    rw [← hbytes, decodeRecord_bytes q after hfit] at h
    cases h
    exact ⟨hfit, hbytes⟩

/-- The row of a record whose argument count fits is well-formed: the catch-all comes after the ten opcodes that have a
row (R108). -/
theorem wf_nameRecord {r : RawRecord} (hfit : r.args.length ≤ 127) : (nameRecord r).wf = true := by
  have hargs : argsFit r.args = true := decide_eq_true hfit
  unfold nameRecord
  iterate 10
    split
    · exact hargs
  simp_all [Instr.wf, listedOpcodes]

/-- Settles O54: a decoded record's bytes and its row. -/
theorem recordDecodingLosesNothing : Obligations.RecordDecodingLosesNothing := by
  intro bs rest r h
  obtain ⟨hfit, hbytes⟩ := decodeRecord_eq_ok h
  refine ⟨hbytes, ?_, hfit, rawRecord_nameRecord r, wf_nameRecord hfit⟩
  rw [bytes_length, RawRecord.len, delay_toList_length]
  cases r.delay <;> rfl

/-- Settles O57: the fields as masks, and for every argsByte the record that has it. -/
theorem argsByteFields : Obligations.ArgsByteFields := by
  refine ⟨fun a => ?_, argsByte_fields, fun o a rest h => ?_⟩
  · obtain ⟨hflag, hcount, hvalue⟩ := argsByte_masks a
    exact ⟨hflag, hcount, hvalue, mkArgsByte_fields a⟩
  · obtain ⟨r, after, hbytes, ho, hk, hf⟩ := exists_record o h
    have := (argCount a).isLt
    exact ⟨r, after, hbytes ▸ decodeRecord_bytes r after (by omega), ho, hk, hf⟩

/-! ### Decoding after encoding -/

/-- A record instruction and its fields stand for each other. -/
theorem recordFields (i : Instr) : RecordFields.Statement i := by
  cases i with
  | swreset args delay => exact RecordFields.swreset args delay
  | slpout args delay => exact RecordFields.slpout args delay
  | colmod args delay => exact RecordFields.colmod args delay
  | madctl args delay => exact RecordFields.madctl args delay
  | caset args delay => exact RecordFields.caset args delay
  | raset args delay => exact RecordFields.raset args delay
  | ramwr args delay => exact RecordFields.ramwr args delay
  | invon args delay => exact RecordFields.invon args delay
  | noron args delay => exact RecordFields.noron args delay
  | dispon args delay => exact RecordFields.dispon args delay
  | cmd opcode args delay => exact RecordFields.cmd opcode args delay
  | _ => rintro _ r ⟨⟩

/-- A well-formed record instruction has at most 127 arguments (R92). -/
theorem args_length_le_of_wf {i : Instr} {r : RawRecord} (hwf : i.wf = true) (hr : i.rawRecord? = some r) :
    r.args.length ≤ 127 := by
  have hargs : argsFit r.args = true := by
    cases i <;> cases hr
    case cmd => exact (Bool.and_eq_true_iff.mp hwf).1
    all_goals exact hwf
  exact of_decide_eq_true hargs

theorem decode_record_bytes {r : RawRecord} (hfit : r.args.length ≤ 127) :
    decode (.record r.bytes) = .ok (nameRecord r) := by
  have h := decodeRecord_bytes r [] hfit
  rw [List.append_nil] at h
  simp only [decode, h]

theorem decode_encode_record {i : Instr} {r : RawRecord} (hwf : i.wf = true) (hr : i.rawRecord? = some r) :
    decode (encode i) = .ok i := by
  obtain ⟨hencode, hname⟩ := recordFields i hwf r hr
  rw [hencode, decode_record_bytes (args_length_le_of_wf hwf hr), hname]

theorem nameDelay_of_ne {d : Byte} (h : d ≠ 255) : nameDelay d = .dlyms d := if_neg h

/-- The code of a sub-operation selects it (R102). -/
theorem decode_subop (op : SubOp) (r : SubOperands) : decode (.subop op.code r) = .ok (nameSub op r) := by
  cases op <;> rfl

/-- Settles O53: one case per format of the opcode table. -/
theorem decodeEncode : Obligations.DecodeEncode := by
  intro i hwf
  cases i with
  | swreset | slpout | colmod | madctl | caset | raset | ramwr | invon | noron | dispon | cmd =>
    exact decode_encode_record hwf rfl
  | dly500 => rfl
  | dlyms d => exact congrArg Except.ok (nameDelay_of_ne (bne_iff_ne.mp hwf))
  | init =>
    obtain ⟨hinit, _, _, _⟩ := decodePort_mk 0 0 0 0 0
    exact congrArg Except.ok hinit
  | fillscreen color =>
    obtain ⟨_, hscreen, _, _⟩ := decodePort_mk 0 0 0 0 color
    exact congrArg Except.ok hscreen
  | fillrect x y w h color =>
    obtain ⟨_, _, hrect, _⟩ := decodePort_mk x y w h color
    exact congrArg Except.ok hrect
  | reservedOp3 =>
    obtain ⟨_, _, _, hreserved⟩ := decodePort_mk 0 0 0 0 0
    exact congrArg Except.ok hreserved
  | writecommand | writedata | streampixels | runprog | setaddrwindow | resetpulse => exact decode_subop _ _

/-! ### The port word and the sub-operation codes (R101, R102, R107) -/

theorem exec_reservedOp3 (s : State) :
    exec .reservedOp3 s = .refused (if s.busy then .notReady else .reservedHostOp) := rfl

/-- Settles O27: the arm of the reserved selector. -/
theorem reservedSelectorIsRefused : Obligations.ReservedSelectorIsRefused := exec_reservedOp3

/-- Settles O55: the fields of a port word, and the reserved selector's refusal on an idle block. -/
theorem portWordFields : Obligations.PortWordFields := by
  intro x y w h color
  obtain ⟨hinit, hscreen, hrect, hreserved⟩ := decodePort_mk x y w h color
  refine ⟨hinit, hscreen, hrect, fun s hb => ?_⟩
  rw [hreserved, exec_reservedOp3, hb]
  rfl

/-- Settles O56: the six codes of `decode_subop`, the two unused ones, and the operations a port word can select. -/
theorem subOperationCodes : Obligations.SubOperationCodes := fun r =>
  ⟨decode_subop .writeCommand r, decode_subop .writeData r, decode_subop .streamPixels r, decode_subop .runProg r,
    decode_subop .setAddrWindow r, decode_subop .resetPulse r, rfl, rfl, decodePort_cases⟩

/-- At a selected sub-operation the step is its meaning on its registers (log 7, log 9). -/
theorem step_sub {s : State} {op : SubOp} (hpos : s.ctl.pos = .sub op) :
    step s = mapNext (exec (nameSub op s.subOperands) s) (returnFrom op) := by
  simp only [step, fetchNext, hpos]
  rfl

/-- Settles O49: the code's sub-operation is the one the step runs. -/
theorem stepRunsTheSubOperation : Obligations.StepRunsTheSubOperation := by
  intro s op i hpos hi
  rw [decode_subop] at hi
  cases hi
  exact step_sub hpos

/-- Settles O58: by computation, each word being a literal. -/
theorem writtenOutWordsDecode : Obligations.WrittenOutWordsDecode := by
  unfold Obligations.WrittenOutWordsDecode
  decide

/-! ### The delay byte (R93) -/

theorem delayMs_sentinel : delayMs 255 = 500 := rfl

theorem delayMs_toNat_of_ne {d : Byte} (h : d ≠ 255) : (delayMs d).toNat = d.toNat := by
  have := d.isLt
  rw [delayMs, Config.delaySentinel, if_neg h, BitVec.toNat_setWidth]
  omega

/-- Settles O3: the sentinel gives 500, and another byte itself, which is not 255. -/
theorem delayByteMapping : Obligations.DelayByteMapping := by
  intro d
  by_cases h : d = 255
  · subst h
    rw [delayMs_sentinel, if_pos rfl]
    decide
  · rw [delayMs_toNat_of_ne h, if_neg h]
    exact ⟨rfl, fun h' => h (BitVec.eq_of_toNat_eq h')⟩

/-! ### The length of a program in the ROM (R95, R146) -/

theorem decodedLength_eq_some {m : Memory} {limit base len : Nat} (h : decodedLength m limit base = some len) :
    ∃ e, offsetAfter m limit (Memory.read m base).toNat (base + 1) = some e ∧ len = e - base := by
  unfold decodedLength at h
  split at h
  · split at h
    · cases h
    · next e he => cases h; exact ⟨e, he, rfl⟩
  · cases h

/-- Settles O11: the count byte and at most 255 records of at most 130 bytes. -/
theorem decodedLengthBounds : Obligations.DecodedLengthBounds := by
  intro m limit base len h
  obtain ⟨e, he, rfl⟩ := decodedLength_eq_some h
  have hbounds := offsetAfter_bounds he
  have hcount := (Memory.read m base).isLt
  omega

/-- Records that lie below the limit have an end, the sum of their lengths on (R95). -/
theorem offsetAfter_of_le {m : Memory} {limit n a : Nat}
    (h : a + ((recordsFrom m n a).map RawRecord.len).sum ≤ limit) :
    offsetAfter m limit n a = some (a + ((recordsFrom m n a).map RawRecord.len).sum) := by
  induction n generalizing a with
  | zero => rfl
  | succ n ih =>
    have hlen := recordLenAt_pos m a
    rw [recordsFrom, List.map_cons, List.sum_cons, recordIn_len, ← Nat.add_assoc] at h ⊢
    rw [offsetAfter, if_pos (by omega), ih h]

/-! ### Bytes in the ROM -/

theorem bytesAt_add (m : Memory) (a n k : Nat) : bytesAt m a (n + k) = bytesAt m a n ++ bytesAt m (a + n) k := by
  simp only [bytesAt, List.range_add, List.map_append, List.map_map, Function.comp_def, Nat.add_assoc]

theorem bytesAt_append {m : Memory} {a : Nat} {bs cs : List Byte} (h : bytesAt m a (bs ++ cs).length = bs ++ cs) :
    bytesAt m a bs.length = bs ∧ bytesAt m (a + bs.length) cs.length = cs := by
  rw [List.length_append, bytesAt_add] at h
  exact List.append_inj h (bytesAt_length m a bs.length)

theorem bytesAt_cons {m : Memory} {a : Nat} {b : Byte} {bs : List Byte}
    (h : bytesAt m a (b :: bs).length = b :: bs) : Memory.read m a = b ∧ bytesAt m (a + 1) bs.length = bs := by
  rw [List.length_cons, bytesAt_succ] at h
  exact List.cons_eq_cons.mp h

theorem bytesAt_of_romHolds {s : State} {a : Nat} {bytes : List Byte} (h : RomHolds s a bytes) :
    bytesAt s.rom a bytes.length = bytes := by
  obtain ⟨_, hread⟩ := h
  refine List.ext_getElem (bytesAt_length _ _ _) fun i _ hi => ?_
  rw [← Option.some_inj, ← List.getElem?_eq_getElem hi, ← hread i hi]
  simp [bytesAt]

/-- A record whose bytes are in the ROM is the record read there. -/
theorem recordIn_of_bytesAt {m : Memory} {a : Nat} {r : RawRecord} (hfit : r.args.length ≤ 127)
    (h : bytesAt m a r.bytes.length = r.bytes) : recordIn m a = r := by
  obtain ⟨hk, hf⟩ := fields_argsByte hfit
  obtain ⟨hopcode, htail⟩ := bytesAt_cons h
  obtain ⟨hargsByte, htail⟩ := bytesAt_cons htail
  obtain ⟨hargs, hdelay⟩ := bytesAt_append htail
  have hargs' : (recordIn m a).args = r.args := by
    rw [recordIn_args, argsByteAt, hargsByte, hk]
    exact hargs
  have hdelay' : (recordIn m a).delay = r.delay := by
    rw [recordIn_delay, argsByteAt, hargsByte, hk, hf]
    cases hd : r.delay with
    | none => rfl
    | some d =>
      rw [hd] at hdelay
      obtain ⟨hbyte, _⟩ := bytesAt_cons hdelay
      exact congrArg some hbyte
  calc recordIn m a = ⟨Memory.read m a, (recordIn m a).args, (recordIn m a).delay⟩ := rfl
    _ = r := by rw [hopcode, hargs', hdelay']

/-- Records whose bytes are in the ROM one after another are the records read there. -/
theorem recordsFrom_of_bytesAt {m : Memory} {a : Nat} {rs : List RawRecord} (hfit : ∀ r ∈ rs, r.args.length ≤ 127)
    (h : bytesAt m a (rs.flatMap RawRecord.bytes).length = rs.flatMap RawRecord.bytes) :
    recordsFrom m rs.length a = rs := by
  induction rs generalizing a with
  | nil => rfl
  | cons r rs ih =>
    rw [List.flatMap_cons] at h
    obtain ⟨hr, hrs⟩ := bytesAt_append h
    have hin := recordIn_of_bytesAt (hfit r List.mem_cons_self) hr
    rw [List.length_cons, recordsFrom, ← recordIn_len, hin, ← bytes_length,
      ih (fun q hq => hfit q (List.mem_cons_of_mem r hq)) hrs]

/-! ### Assembled programs (R110) -/

theorem args_length_le_of_asmLine {l : AsmLine} {r : RawRecord} (h : l.record = some r) : r.args.length ≤ 127 := by
  unfold AsmLine.record at h
  split at h
  · cases h
  · next hlen =>
    split at h
    · cases h; exact Nat.not_lt.mp hlen
    · split at h
      · cases h
      · cases h; exact Nat.not_lt.mp hlen

theorem asmRecords_cons {l : AsmLine} {ls : List AsmLine} {rs : List RawRecord} (h : asmRecords (l :: ls) = some rs) :
    ∃ r rest, l.record = some r ∧ asmRecords ls = some rest ∧ rs = r :: rest := by
  rw [asmRecords] at h
  split at h
  · next r rest hr hrest => cases h; exact ⟨r, rest, hr, hrest, rfl⟩
  · cases h

/-- A listing's records: one for each line, each with arguments that fit. -/
theorem asmRecords_eq_some {lines : List AsmLine} {rs : List RawRecord} (h : asmRecords lines = some rs) :
    rs.length = lines.length ∧ ∀ r ∈ rs, r.args.length ≤ 127 := by
  induction lines generalizing rs with
  | nil => cases h; simp
  | cons l ls ih =>
    obtain ⟨r, rest, hr, hrest, rfl⟩ := asmRecords_cons h
    obtain ⟨hlen, hfit⟩ := ih hrest
    exact ⟨congrArg (· + 1) hlen, List.forall_mem_cons.mpr ⟨args_length_le_of_asmLine hr, hfit⟩⟩

theorem assemble_eq_some {n : Byte} {lines : List AsmLine} {bytes : List Byte} {rs : List RawRecord}
    (h : assemble n lines = some bytes) (hrs : asmRecords lines = some rs) :
    n.toNat = lines.length ∧ bytes = n :: rs.flatMap RawRecord.bytes := by
  rw [assemble, hrs] at h
  split at h
  · next hn => cases h; exact ⟨hn, rfl⟩
  · cases h

/-- Settles O59: the ROM's records are the listing's, and their lengths add up to the program's. -/
theorem assembledProgramIsTheListing : Obligations.AssembledProgramIsTheListing := by
  intro n lines bytes rs base s hasm hrs hrom
  obtain ⟨hn, rfl⟩ := assemble_eq_some hasm hrs
  obtain ⟨hlen, hfit⟩ := asmRecords_eq_some hrs
  obtain ⟨hcount, hbytes⟩ := bytesAt_cons (bytesAt_of_romHolds hrom)
  obtain ⟨hinside, _⟩ := hrom
  have hrecords := recordsFrom_of_bytesAt hfit hbytes
  have hsum : (rs.map RawRecord.len).sum = (rs.flatMap RawRecord.bytes).length := by
    simp only [List.length_flatMap, bytes_length]
  have hnum : (Memory.read s.rom base).toNat = rs.length := by rw [hcount, hn, hlen]
  refine ⟨by rw [programRecords, hnum, hrecords], wellFormed_iff.mpr ⟨hinside, by rw [List.length_cons]; omega, ?_⟩⟩
  have hend : base + (n :: rs.flatMap RawRecord.bytes).length =
      base + 1 + ((recordsFrom s.rom rs.length (base + 1)).map RawRecord.len).sum := by
    rw [hrecords, hsum, List.length_cons]
    omega
  rw [hnum, hend]
  exact offsetAfter_of_le (Nat.le_refl _)

end Sys2Proof.Proofs
end

section
/-! PROOFS. BusTransport's sub-operations (40_bus_transport.md): the two logical writes and the pixel stream. -/

namespace Sys2Proof.Proofs

open Sys2Proof Sys2Proof.Machine Sys2Proof.Safety Sys2Proof.Laws

/-! ### The logical writes (R120, R121) -/

theorem exec_writecommand (b : Byte) (s : State) : exec (.writecommand b) s = .next (writeCommand b s) := rfl

theorem exec_writedata (b : Byte) (s : State) : exec (.writedata b) s = .next (writeData b s) := rfl

/-- No port word selects a sub-operation (R101, R102). -/
theorem decodePort_ne_nameSub (w : PortWord) (op : SubOp) (r : SubOperands) : decodePort w ≠ nameSub op r := by
  rcases decodePort_cases w with e | ⟨_, e⟩ | ⟨_, _, _, _, _, e⟩ | e <;> rw [e] <;> cases op <;> exact nofun

/-- Settles O4: the write as one update, code 0 of `decode_subop`, and no port word for a sub-operation. -/
theorem writeCommandEmitsSixEvents : Obligations.WriteCommandEmitsSixEvents := by
  intro b s
  refine ⟨?_, ⟨_, rfl⟩, fun r => ⟨_, decode_subop .writeCommand r⟩, fun w =>
    decodePort_ne_nameSub w .writeCommand { SubOperands.zero with opc := b }⟩
  rw [exec_writecommand, writeCommand_eq]
  rfl

/-- Settles O5: the write as one update, code 1 of `decode_subop`, and no port word for a sub-operation. -/
theorem writeDataEmitsSixEvents : Obligations.WriteDataEmitsSixEvents := by
  intro b s
  refine ⟨?_, decode_subop .writeData, fun w =>
    decodePort_ne_nameSub w .writeData { SubOperands.zero with dat := b }⟩
  rw [exec_writedata, writeData_eq]
  rfl

/-! ### The pixel stream (R126, R127) -/

theorem exec_streampixels (hi lo : Byte) (n : Word) (s : State) :
    exec (.streampixels hi lo n) s = .next (streamPixels hi lo n s) := rfl

theorem streamTrace_length (hi lo : Byte) (n : Nat) : (streamTrace hi lo n).length = 5 + 2 * n := by
  rw [streamTrace, List.length_append, List.length_append, pixelRun_length]
  simp only [streamHead, streamTail, List.length_cons, List.length_nil]
  omega

/-- Every event of the pixels is a transfer. -/
theorem isXfer_of_mem_pixelRun {hi lo : Byte} {n : Nat} {e : Event} (he : e ∈ pixelRun hi lo n) :
    isXfer e = true := by
  obtain ⟨pair, hpair, he⟩ := List.mem_flatten.mp he
  rw [List.eq_of_mem_replicate hpair, pixelPair] at he
  rcases List.mem_pair.mp he with rfl | rfl <;> rfl

/-- The transfers of a stream are its pixels' events: the framing on both sides has none. -/
theorem streamTrace_countP_isXfer (hi lo : Byte) (n : Nat) : (streamTrace hi lo n).countP isXfer = 2 * n := by
  have hhead : streamHead.countP isXfer = 0 := rfl
  have htail : streamTail.countP isXfer = 0 := rfl
  have hrun : (pixelRun hi lo n).countP isXfer = (pixelRun hi lo n).length :=
    List.countP_eq_length.mpr fun _ => isXfer_of_mem_pixelRun
  rw [streamTrace, List.countP_append, List.countP_append, hhead, htail, hrun, pixelRun_length]
  omega

/-- Settles O6: the stream as one update, the length and the transfers of its trace. -/
theorem streamPixelsIsOneTransaction : Obligations.StreamPixelsIsOneTransaction := by
  intro hi lo n s
  refine ⟨streamTrace hi lo n.toNat, ?_, rfl, streamTrace_length hi lo n.toNat,
    streamTrace_countP_isXfer hi lo n.toNat⟩
  rw [exec_streampixels, streamPixels_eq]
  rfl

end Sys2Proof.Proofs
end

section
/-! PROOFS. The command interpreter (41_command_interpreter.md): the record rule and the delay directive, the step at a
record and at a delay byte, RUNPROG on well-formed, empty and cut-short programs, and the interpreter by small steps. -/

namespace Sys2Proof.Proofs

open Sys2Proof Sys2Proof.Machine Sys2Proof.Safety Sys2Proof.Laws

/-! ### The record rule and the delay directive (R142, R144) -/

theorem guardedDec_of_ne_zero {n : Nat} {v : BitVec n} (h : v ≠ 0) : guardedDec v = v - 1 := if_neg h

/-- The value of a record's `Delay`, the sentinel written out (R93). -/
theorem delayMs_toNat (d : Byte) : (delayMs d).toNat = if d = 255 then 500 else d.toNat := (delayByteMapping d).1

/-- Settles O1: the record rule as one update, its optional delay by cases. -/
theorem recordRunsTheRecordRule : Obligations.RecordRunsTheRecordRule := by
  intro i r s hr _ hcnt
  obtain ⟨opcode, args, delay⟩ := r
  rw [exec_record hr, runRecord_eq, recordTrace_eq, guardedDec_of_ne_zero hcnt]
  cases delay with
  | none => rfl
  | some d =>
    simp only [delayTrace, delayMs_toNat]
    rfl

theorem exec_dly500 (s : State) : exec .dly500 s = .next (delayDirective 255 s) := rfl

theorem exec_dlyms (d : Byte) (s : State) : exec (.dlyms d) s = .next (delayDirective d s) := rfl

/-- A delay byte other than the sentinel is its own number of milliseconds (R93). -/
theorem delayMs_of_ne {d : Byte} (h : d ≠ 255) : delayMs d = d.setWidth 9 := if_neg h

/-- Settles O2: the directive as one update, at the sentinel and at every other byte. -/
theorem delayDirectiveEmitsOneDelay : Obligations.DelayDirectiveEmitsOneDelay := by
  refine ⟨fun s => ?_, fun d s hd => ?_⟩
  · rw [exec_dly500, delayDirective_eq, delayMs_sentinel]
    rfl
  · rw [exec_dlyms, delayDirective_eq, delayMs_toNat_of_ne hd, delayMs_of_ne hd]

/-! ### The step at a record and at a delay byte (log 7) -/

/-- The bytes of a record instruction are those of a record whose argument count fits, and nothing after it (R91). -/
theorem decode_record_eq_ok {bytes : List Byte} {i : Instr} (h : decode (.record bytes) = .ok i) :
    ∃ r : RawRecord, r.args.length ≤ 127 ∧ r.bytes = bytes ∧ nameRecord r = i := by
  simp only [decode] at h
  split at h
  · cases h
  · next r hr =>
    cases h
    obtain ⟨hfit, hbytes⟩ := decodeRecord_eq_ok hr
    exact ⟨r, hfit, by rwa [List.append_nil] at hbytes, rfl⟩
  · cases h

/-- A record the ROM holds is the record read there, and lies inside the ROM. -/
theorem recordIn_of_romHolds {s : State} {a : Nat} {r : RawRecord} (hfit : r.args.length ≤ 127)
    (h : RomHolds s a r.bytes) : recordIn s.rom a = r ∧ a + recordLenAt s.rom a ≤ s.romSize.val := by
  have hin := recordIn_of_bytesAt hfit (bytesAt_of_romHolds h)
  obtain ⟨hsize, _⟩ := h
  exact ⟨hin, by rwa [← recordIn_len, hin, ← bytes_length]⟩

/-- Settles O47: the record decoded is the record at `PP`, which the step runs whole. -/
theorem stepRunsTheRecordAtPp : Obligations.StepRunsTheRecordAtPp := by
  intro s hpos
  refine ⟨fun bytes i hrom hi => ?_, step_ciOpc_cut hpos⟩
  obtain ⟨r, hfit, rfl, rfl⟩ := decode_record_eq_ok hi
  obtain ⟨hin, hinside⟩ := recordIn_of_romHolds hfit hrom
  rw [step_ciOpc_inside hpos hinside, hin]
  rfl

/-- Settles O48: the step at `CI_DLYB` on both sides of `ROM_SIZE`. -/
theorem stepRunsTheDelayByteAtPp : Obligations.StepRunsTheDelayByteAtPp := by
  intro s hpos
  refine ⟨fun i hin hi => ?_, step_ciDlyb_outside hpos⟩
  cases hi
  exact step_ciDlyb_inside hpos hin

/-! ### RUNPROG (R140, R143, R146) -/

theorem exec_runprog (base : Word) (s : State) : exec (.runprog base) s = runProgram base s := rfl

/-- RUNPROG's state when its records begin: the count byte read (R140). -/
def programLoop (base : Word) (s : State) : State := { s with pp := base + 1, cnt := Memory.read s.rom base.toNat }

theorem programLoop_interpreterOnly (base : Word) (s : State) : InterpreterOnly s (programLoop base s) :=
  ⟨rfl, rfl, id⟩

/-- The program's records count `CNT` down to 0: there is one for each it was loaded with (R90). -/
theorem cnt_after_program (base : Word) (s : State) :
    (runAll (programRecords s.rom base.toNat) (programLoop base s)).cnt = 0 := by
  refine BitVec.eq_of_toNat_eq ?_
  rw [runAll_cnt, programRecords, recordsFrom_length]
  exact Nat.sub_self _

/-- The records of a well-formed program take `PP` to the end of its extent, which does not wrap (R95, R146). -/
theorem pp_after_program {base : Word} {len : Nat} {s : State} (h : wellFormed s base.toNat len = true) :
    (runAll (programRecords s.rom base.toNat) (programLoop base s)).pp.toNat = base.toNat + len := by
  obtain ⟨hinside, _, hoff⟩ := wellFormed_iff.mp h
  have hend : base.toNat + len =
      base.toNat + 1 + ((programRecords s.rom base.toNat).map RawRecord.len).sum := offsetAfter_sum hoff
  have hsize := s.romSize.isLt
  have hpp : (programLoop base s).pp = base + 1 := rfl
  rw [runAll_pp, hpp, BitVec.toNat_add, BitVec.toNat_add, BitVec.toNat_ofNat]
  simp only [BitVec.ofNat_eq_ofNat, BitVec.toNat_ofNat]
  omega

/-- Settles O7: what the fold of the record rule leaves in the trace, in `PP` and `CNT`, and in every other field. -/
theorem runProgOnWellFormedProgram : Obligations.RunProgOnWellFormedProgram := by
  intro base len s h
  obtain ⟨hframe, hrst, htxn⟩ :=
    (programLoop_interpreterOnly base s).trans (runAll_interpreterOnly (programRecords s.rom base.toNat) _)
  exact ⟨_, (exec_runprog base s).trans (runProgram_wellFormed h), runAll_trace _ _, pp_after_program h,
    cnt_after_program base s, hrst, htxn, hframe⟩

/-- Settles O8: the two answers of RUNPROG. -/
theorem runProgRefusedOnlyBeyondRom : Obligations.RunProgRefusedOnlyBeyondRom := by
  intro base s
  exact ⟨fun ⟨_, h⟩ => ⟨_, runProgram_wellFormed h⟩, runProgram_refused⟩

/-- Settles O9: the count byte is 0, so the record loop takes no turn. -/
theorem emptyProgramEmitsNothing : Obligations.EmptyProgramEmitsNothing := by
  intro base s hin hcount
  rw [exec_runprog, runProgram, fetchThen_inside (s := { s with pp := base }) _ hin]
  simp only [hcount]
  rfl

/-- Settles O28: INIT is accepted and its launch premise fails. -/
theorem initRefusesMalformedProgram : Obligations.InitRefusesMalformedProgram := by
  intro s hbusy hphase hwf
  exact execInit_malformed (acceptInit_eq_none.mpr ⟨hbusy, hphase⟩) hwf

/-! ### The interpreter by small steps (R148, D19) -/

/-- RUNPROG neither reads nor writes `CTL`. -/
theorem runProgram_withCtl (c : Ctl) (base : Word) (s : State) :
    runProgram base (withCtl c s) = mapNext (runProgram base s) (withCtl c) := by
  rcases runProgram_cases base s with ⟨len, hwf, e⟩ | ⟨hwf, e⟩ <;> rw [e]
  · rw [mapNext_next, ← runAll_withCtl]
    exact runProgram_wellFormed (s := withCtl c s) hwf
  · exact runProgram_refused (s := withCtl c s) hwf

/-- A sub-operation that nobody called leaves its state with `CTL` at `IDLE`, whatever position it ended at. -/
theorem returnFrom_withCtl_none (op : SubOp) (p : Pos) (s : State) :
    returnFrom op (withCtl { caller := .none, pos := p } s) = withCtl Ctl.idle s :=
  returnFrom_of_none op rfl

/-- The interpreter started at `CI_COUNT` with nobody to return to ends as RUNPROG's meaning, `CTL` at `IDLE`. -/
theorem reaches_runprog (base : Word) (s : State) :
    Reaches { s with pp := base, ctl := { caller := .none, pos := .ciCount } }
      (mapNext (exec (.runprog base) s) (withCtl Ctl.idle)) := by
  have hmeaning : mapNext (runProgram base (withCtl { caller := .none, pos := .ciCount } s)) (returnFrom .runProg) =
      mapNext (exec (.runprog base) s) (withCtl Ctl.idle) := by
    rw [runProgram_withCtl, exec_runprog]
    cases runProgram base s with
    | next t => exact congrArg Host.Outcome.next (returnFrom_withCtl_none .runProg .ciCount t)
    | fault e => rfl
    | refused e => rfl
  rw [← hmeaning]
  exact reaches_runProgram { s with pp := base, ctl := { caller := .none, pos := .ciCount } }

/-- Settles O50: both outcomes of `reaches_runprog`. -/
theorem smallStepInterpreterIsRunProg : Obligations.SmallStepInterpreterIsRunProg := by
  intro base s _
  have hreach := reaches_runprog base s
  exact ⟨fun t ht => by rw [ht] at hreach; exact hreach, fun r hr => by rw [hr] at hreach; exact hreach⟩

end Sys2Proof.Proofs
end

section
/-! PROOFS. The counts of a program's trace (R147): each count adds up along the events, and is the same for every
command write and for every data write, so that it is a sum over the program's records. -/

namespace Sys2Proof.Proofs

open Sys2Proof Sys2Proof.Machine Sys2Proof.Safety Sys2Proof.Laws

/-- A count over traces that adds up along them. -/
structure AddsUp (f : List Event → Nat) : Prop where
  nil : f [] = 0
  append (es fs : List Event) : f (es ++ fs) = f es + f fs

theorem commandWrites_addsUp : AddsUp commandWrites := ⟨rfl, fun _ _ => List.count_append⟩

theorem dataWrites_addsUp : AddsUp dataWrites := ⟨rfl, fun _ _ => List.count_append⟩

theorem delayEvents_addsUp : AddsUp delayEvents := ⟨rfl, fun _ _ => List.countP_append⟩

theorem length_addsUp : AddsUp List.length := ⟨rfl, fun _ _ => List.length_append⟩

theorem delayTime_addsUp : AddsUp fun es => (delayValues es).sum :=
  ⟨rfl, fun _ _ => by rw [delayValues, List.filterMap_append, List.sum_append]; rfl⟩

theorem AddsUp.on_flatMap {α : Type} {f : List Event → Nat} (h : AddsUp f) (g : α → List Event) (as : List α) :
    f (as.flatMap g) = (as.map fun a => f (g a)).sum := by
  induction as with
  | nil => exact h.nil
  | cons a as ih => rw [List.flatMap_cons, h.append, ih, List.map_cons, List.sum_cons]

/-- A count of a record's trace: `c` for its command write, `d` for each data write, and its delay's (R142). -/
theorem AddsUp.on_recordTrace {f : List Event → Nat} {c d : Nat} (h : AddsUp f) (hc : ∀ b, f (wc b) = c)
    (hd : ∀ b, f (wd b) = d) (r : RawRecord) :
    f (recordTrace r) = c + d * r.args.length + f (delayTrace r.delay) := by
  have hargs : f (r.args.flatMap wd) = d * r.args.length := by
    simp only [h.on_flatMap, hd, List.map_const', List.sum_replicate, smul_eq_mul, Nat.mul_comm]
  rw [recordTrace_eq, h.append, h.append, hc, hargs]

/-- A count of the trace of a program's records (R147). -/
theorem AddsUp.on_programRecords {f : List Event → Nat} {c d : Nat} (h : AddsUp f) (hc : ∀ b, f (wc b) = c)
    (hd : ∀ b, f (wd b) = d) (rs : List RawRecord) :
    f (rs.flatMap recordTrace) =
      c * rs.length + d * (rs.map fun r => r.args.length).sum + (rs.map fun r => f (delayTrace r.delay)).sum := by
  simp only [h.on_flatMap, h.on_recordTrace hc hd]
  induction rs with
  | nil => rfl
  | cons r rs ih =>
    simp only [List.map_cons, List.sum_cons, List.length_cons, ih, Nat.mul_add]
    omega

/-! ### What the delays of the records add -/

theorem sum_delayTrace_eq_zero {f : List Event → Nat} (hf : ∀ delay, f (delayTrace delay) = 0)
    (rs : List RawRecord) : (rs.map fun r => f (delayTrace r.delay)).sum = 0 := by
  simp only [hf, List.map_const', List.sum_replicate, smul_zero]

theorem commandWrites_delayTrace (delay : Option Byte) : commandWrites (delayTrace delay) = 0 := by
  cases delay <;> rfl

theorem dataWrites_delayTrace (delay : Option Byte) : dataWrites (delayTrace delay) = 0 := by
  cases delay <;> rfl

/-- A record has one delay event if it is flagged, else none (R144). -/
theorem delayTrace_length (delay : Option Byte) : (delayTrace delay).length = if delay.isSome then 1 else 0 := by
  cases delay <;> rfl

theorem delayEvents_delayTrace (delay : Option Byte) : delayEvents (delayTrace delay) = (delayTrace delay).length := by
  cases delay <;> rfl

theorem sum_length_delayTrace (rs : List RawRecord) :
    (rs.map fun r => (delayTrace r.delay).length).sum = rs.countP fun r => r.delay.isSome := by
  induction rs with
  | nil => rfl
  | cons r rs ih => rw [List.map_cons, List.sum_cons, ih, delayTrace_length, List.countP_cons, Nat.add_comm]

theorem sum_delayTime_delayTrace (rs : List RawRecord) :
    (rs.map fun r => (delayValues (delayTrace r.delay)).sum).sum =
      ((rs.filterMap RawRecord.delay).map fun d => (delayMs d).toNat).sum := by
  induction rs with
  | nil => rfl
  | cons r rs ih =>
    rw [List.map_cons, List.sum_cons, ih]
    cases hd : r.delay with
    | none => rw [List.filterMap_cons_none hd]; exact Nat.zero_add _
    | some d => rw [List.filterMap_cons_some hd, List.map_cons, List.sum_cons]; rfl

/-- Settles O10: the counts of a command write and of a data write, and what the delays add. -/
theorem programTraceCounts : Obligations.ProgramTraceCounts := by
  intro m base
  refine ⟨recordsFrom_length _ _ _, ?_, ?_, ?_, ?_, ?_⟩
  · refine (commandWrites_addsUp.on_programRecords (c := 1) (d := 0) (fun _ => rfl) (fun _ => rfl) _).trans ?_
    rw [sum_delayTrace_eq_zero commandWrites_delayTrace]
    omega
  · refine (dataWrites_addsUp.on_programRecords (c := 0) (d := 1) (fun _ => rfl) (fun _ => rfl) _).trans ?_
    rw [sum_delayTrace_eq_zero dataWrites_delayTrace]
    omega
  · refine (delayEvents_addsUp.on_programRecords (c := 0) (d := 0) (fun _ => rfl) (fun _ => rfl) _).trans ?_
    simp only [delayEvents_delayTrace, sum_length_delayTrace]
    omega
  · refine (length_addsUp.on_programRecords (c := 6) (d := 6) (fun _ => rfl) (fun _ => rfl) _).trans ?_
    rw [sum_length_delayTrace]
  · refine (delayTime_addsUp.on_programRecords (c := 0) (d := 0) (fun _ => rfl) (fun _ => rfl) _).trans ?_
    rw [sum_delayTime_delayTrace]
    omega

end Sys2Proof.Proofs
end

section
/-! PROOFS. The window writer (43_window_writer.md): the halves of a 16-bit value, the window, the clip, and the fills off
the panel, empty, clipped and of the whole panel. -/

namespace Sys2Proof.Proofs

open Sys2Proof Sys2Proof.Machine Sys2Proof.Safety Sys2Proof.Laws

/-! ### The halves of a 16-bit value (R97, R200 (i)) -/

theorem hi8_eq_ofNat (v : Word) : hi8 v = BitVec.ofNat 8 (v.toNat / 256) := by
  rw [hi8, BitVec.extractLsb', Nat.shiftRight_eq_div_pow]

theorem lo8_eq_ofNat (v : Word) : lo8 v = BitVec.ofNat 8 v.toNat := rfl

theorem hi8_eq_zero {v : Word} (h : v.toNat < 256) : hi8 v = 0 := by
  rw [hi8_eq_ofNat, Nat.div_eq_of_lt h]
  rfl

/-- Settles O20: the high half is the quotient by 256, the low half the remainder. -/
theorem byteSplit : Obligations.ByteSplit := by
  intro v
  have hhi : (hi8 v).toNat = v.toNat / 256 := by
    rw [hi8_eq_ofNat, BitVec.toNat_ofNat]
    exact Nat.mod_eq_of_lt (Nat.div_lt_of_lt_mul v.isLt)
  have hlo : (lo8 v).toNat = v.toNat % 256 := by rw [lo8_eq_ofNat, BitVec.toNat_ofNat]
  rw [hhi, hlo, Nat.div_add_mod]

/-! ### The window (R190, R191) -/

theorem exec_setaddrwindow (x0 y0 x1 y1 : Word) (s : State) :
    exec (.setaddrwindow x0 y0 x1 y1) s = .next (setAddrWindow x0 y0 x1 y1 s) := rfl

theorem windowTrace_length (x0 y0 x1 y1 : Word) : (windowTrace x0 y0 x1 y1).length = 66 := rfl

/-- Settles O14: the window as one update, its bytes written as quotients and remainders. -/
theorem setAddrWindowSendsElevenWrites : Obligations.SetAddrWindowSendsElevenWrites := by
  intro x0 y0 x1 y1 s
  rw [exec_setaddrwindow, setAddrWindow_eq]
  simp only [windowTrace, hi8_eq_ofNat, lo8_eq_ofNat]
  rfl

/-! ### The clip (R196) -/

/-- The last column or row is formed without a loss: it lies below `limit` (R200 (f)). -/
theorem lastOf_clip_toNat {o n limit : Word} (h : o.toNat < limit.toNat) (hn : n ≠ 0) :
    (lastOf o (clip o n limit)).toNat = o.toNat + (clip o n limit).toNat - 1 := by
  have hmin := clip_toNat h hn
  have hlimit := limit.isLt
  rw [lastOf, BitVec.toNat_ofNat]
  exact Nat.mod_eq_of_lt (by omega)

theorem one_le_clip {o n limit : Word} (h : o.toNat < limit.toNat) (hn : n ≠ 0) : 1 ≤ (clip o n limit).toNat := by
  have hpos := toNat_ne_zero hn
  rw [clip_toNat h hn]
  omega

theorem lastOf_clip_lt {o n limit : Word} (h : o.toNat < limit.toNat) (hn : n ≠ 0) :
    (lastOf o (clip o n limit)).toNat < limit.toNat := by
  have hmin := clip_toNat h hn
  rw [lastOf_clip_toNat h hn]
  omega

theorem clip_le_limit {o n limit : Word} (h : o.toNat < limit.toNat) (hn : n ≠ 0) :
    (clip o n limit).toNat ≤ limit.toNat := by
  rw [clip_toNat h hn]
  omega

/-- The clipped sizes multiply to at most the panel's pixels (R200 (h)). -/
theorem clip_mul_clip_le {x y w h : Word} (hx : x.toNat < 240) (hy : y.toNat < 240) (hw : w ≠ 0) (hh : h ≠ 0) :
    (clip x w 240).toNat * (clip y h 240).toNat ≤ 57600 :=
  Nat.mul_le_mul (clip_le_limit (limit := 240) hx hw) (clip_le_limit (limit := 240) hy hh)

/-- The clipped size as the word FILLRECT latches (R196). -/
theorem clip_eq_ofNat {o n limit : Word} (h : o.toNat < limit.toNat) (hn : n ≠ 0) :
    clip o n limit = BitVec.ofNat 16 (min n.toNat (limit.toNat - o.toNat)) := by
  rw [← clip_toNat h hn, BitVec.ofNat_toNat, BitVec.setWidth_eq]

/-- The pixel count of a clipped rectangle fits its register (R198, R200 (h)). -/
theorem pixelCount_clip_toNat {x y w h : Word} (hx : x.toNat < 240) (hy : y.toNat < 240) (hw : w ≠ 0) (hh : h ≠ 0) :
    (pixelCount (clip x w 240) (clip y h 240)).toNat = (clip x w 240).toNat * (clip y h 240).toNat := by
  rw [pixelCount, BitVec.toNat_ofNat]
  exact Nat.mod_eq_of_lt ((clip_mul_clip_le hx hy hw hh).trans_lt (by decide))

/-- Settles O19: the trigger formula against the smaller of size and room left, then the bounds that follow from it. -/
theorem clipStaysOnPanel : Obligations.ClipStaysOnPanel := by
  refine ⟨fun o n limit h hn => ?_, fun x y w h hx hy hw hh => ?_⟩
  · have hmin := clip_toNat h hn
    have hpos := one_le_clip h hn
    have hlast := lastOf_clip_toNat h hn
    refine ⟨?_, hmin, hpos, hlast, by omega, lastOf_clip_lt h hn⟩
    split <;> omega
  · have hx1 := lastOf_clip_lt (limit := 240) hx hw
    have hy1 := lastOf_clip_lt (limit := 240) hy hh
    exact ⟨hi8_eq_zero (by omega), hi8_eq_zero (by omega), hi8_eq_zero (hx1.trans (by decide)),
      hi8_eq_zero (hy1.trans (by decide)), clip_mul_clip_le hx hy hw hh⟩

/-! ### The fills (R194 to R199) -/

/-- A fill is refused outside the idle `Ready` state (R246). -/
theorem acceptFill_eq_notReady {s : State} (hn : s.busy = true ∨ s.phase ≠ .ready) :
    acceptFill s = some .notReady := by
  have hne : acceptFill s ≠ none := fun ha => by
    obtain ⟨hb, hp⟩ := acceptFill_eq_none.mp ha
    simp [hb, hp] at hn
  obtain ⟨r, hr⟩ := Option.ne_none_iff_exists'.mp hne
  rw [hr, acceptFill_eq_some hr]

theorem panel_size {s : State} (hgeo : s.geo = panelConstants) : s.geo.width = 240 ∧ s.geo.height = 240 :=
  ⟨congrArg Geo.width hgeo, congrArg Geo.height hgeo⟩

theorem exec_fillrect (x y w h color : Word) (s : State) :
    exec (.fillrect x y w h color) s = execFillrect x y w h color s := rfl

theorem exec_fillscreen (color : Word) (s : State) :
    exec (.fillscreen color) s = exec (.fillrect 0 0 s.geo.width s.geo.height color) s := execFillscreen_eq color s

/-- Settles O16: the fill ends at its operand latch. -/
theorem fillRectOffPanelIsNoOp : Obligations.FillRectOffPanelIsNoOp := fun _ _ _ _ _ _ hb hp ho =>
  execFillrect_off (acceptFill_eq_none.mpr ⟨hb, hp⟩) ho

/-- Settles O17: of a fill's outcomes in an accepted state only the empty rectangle on the panel is a refusal. -/
theorem fillRectRefusedOnlyWhenEmptyOnPanel : Obligations.FillRectRefusedOnlyWhenEmptyOnPanel := by
  intro x y w h color s hb hp
  have ha := acceptFill_eq_none.mpr ⟨hb, hp⟩
  refine ⟨execFillrect_empty ha, fun hne => ?_⟩
  rw [exec_fillrect]
  rcases execFillrect_cases x y w h color s with ⟨_, _, e⟩ | ⟨_, hx, hy, he, _⟩ | ⟨_, _, _, _, _, e⟩ | ⟨⟨r, hr⟩, _⟩
  · exact ⟨_, e⟩
  · exact absurd ⟨hx, hy, he⟩ hne
  · exact ⟨_, e⟩
  · rw [ha] at hr
    cases hr

/-- Settles O15: the painted rectangle as one update, each clipped size the smaller of size and room left. -/
theorem fillRectPaintsClippedRectangle : Obligations.FillRectPaintsClippedRectangle := by
  intro x y w h color s hb hp hgeo hx hy hw hh w' h' x1 y1
  obtain ⟨hwidth, hheight⟩ := panel_size hgeo
  have hx' : x.toNat < s.geo.width.toNat := by rw [hwidth]; exact hx
  have hy' : y.toNat < s.geo.height.toNat := by rw [hheight]; exact hy
  have hw' : (clip x w 240).toNat = w' := clip_toNat (limit := 240) hx hw
  have hh' : (clip y h 240).toNat = h' := clip_toNat (limit := 240) hy hh
  have hx1 : lastOf x (clip x w 240) = x1 := by rw [lastOf, hw']
  have hy1 : lastOf y (clip y h 240) = y1 := by rw [lastOf, hh']
  rw [exec_fillrect, execFillrect_painted (acceptFill_eq_none.mpr ⟨hb, hp⟩) hx' hy' hw hh, painted_eq, hwidth, hheight,
    pixelCount_clip_toNat hx hy hw hh, hw', hh', hx1, hy1, clip_eq_ofNat (limit := 240) hx hw,
    clip_eq_ofNat (limit := 240) hy hh]
  rfl

/-- The window of the whole panel, its bytes written out (R199). -/
theorem windowTrace_panel : windowTrace 0 0 239 239 =
    wc 0x2A ++ wd 0 ++ wd 0 ++ wd 0 ++ wd 0xEF ++ wc 0x2B ++ wd 0 ++ wd 0 ++ wd 0 ++ wd 0xEF ++ wc 0x2C := rfl

/-- Settles O18: FILLSCREEN is the fill of the whole panel, which no clip cuts. -/
theorem fillScreenPaintsThePanel : Obligations.FillScreenPaintsThePanel := by
  intro color s
  refine ⟨fun x y w h => ?_, exec_fillscreen color s, fun hn => ?_, fun hb hp hgeo => ?_⟩
  · obtain ⟨_, hscreen, _, _⟩ := decodePort_mk x y w h color
    exact hscreen
  · rw [exec_fillscreen, exec_fillrect]
    exact execFillrect_notReady (acceptFill_eq_notReady hn)
  · refine ⟨windowTrace 0 0 239 239 ++ streamTrace (hi8 color) (lo8 color) 57600, ?_, ?_, ?_⟩
    · rw [List.length_append, windowTrace_length, streamTrace_length]
    · rw [windowTrace_panel]
      rfl
    · obtain ⟨hwidth, hheight⟩ := panel_size hgeo
      rw [exec_fillscreen, hwidth, hheight]
      exact fillRectPaintsClippedRectangle 0 0 240 240 color s hb hp hgeo (by decide) (by decide) (by decide)
        (by decide)

end Sys2Proof.Proofs
end

section
/-! PROOFS. The device (44_device_init.md): the reset pulse, INIT on a well-formed program and a second time, and what no
other instruction does to the device's state, the RST pin and the pin directions. -/

namespace Sys2Proof.Proofs

open Sys2Proof Sys2Proof.Machine Sys2Proof.Safety Sys2Proof.Laws

/-! ### RESETPULSE and INIT (R220, R222) -/

theorem exec_resetpulse (s : State) : exec .resetpulse s = .next (resetPulse s) := rfl

/-- Settles O21. -/
theorem resetPulseWritesRstThreeTimes : Obligations.ResetPulseWritesRstThreeTimes := fun s =>
  (exec_resetpulse s).trans (congrArg Host.Outcome.next (resetPulse_eq s))

/-- The events of INIT: directions, reset pulse, program, the one data write (R222, R226). -/
def initTrace (m : Memory) : List Event :=
  pinDirs ++ [.pin .rst true, .delay 50, .pin .rst false, .delay 50, .pin .rst true, .delay 50] ++
    programTrace m Config.initBase.toNat ++ wd 0

theorem initEnd_trace (s : State) : (initEnd s).trace = s.trace ++ initTrace s.rom := by
  obtain ⟨_, _, _, _, _, _, _, _, _, _, e, _⟩ := initEnd_shape s
  rw [e]
  rfl

/-- INIT's state after its program, before the data write and the latch (R222). -/
def initProgramEnd (s : State) : State :=
  runAll (programRecords s.rom Config.initBase.toNat) (programLoop Config.initBase (initStart { s with busy := true }))

theorem initLoop_eq (s : State) : initLoop s = programLoop Config.initBase (initStart s) := by
  simp only [initLoop, programLoop, initStart_eq]

/-- The data write and the latch after the program: of the interpreter's registers they write `DAT` alone (R223, R228). -/
theorem initEnd_eq (s : State) :
    initEnd s =
      { initProgramEnd s with
        dat := 0
        pin := pinsAfterWrite true (initProgramEnd s).pin
        txn := false
        trace := (initProgramEnd s).trace ++ wd 0
        geo := panelConstants
        phase := .ready
        busy := false } := by
  simp only [initEnd, initLatch, initPost, sendData_eq, initLoop_eq, Config.postinitData]
  rfl

theorem initEnd_dat (s : State) : (initEnd s).dat = 0 := by rw [initEnd_eq]

theorem initStart_busy_rom (s : State) : (initStart { s with busy := true }).rom = s.rom := by rw [initStart_eq]

theorem initEnd_cnt (s : State) : (initEnd s).cnt = 0 := by
  have hcnt := cnt_after_program Config.initBase (initStart { s with busy := true })
  rw [initStart_busy_rom] at hcnt
  rw [initEnd_eq]
  exact hcnt

theorem initEnd_pp {s : State} (hl : launchable s = true) :
    (initEnd s).pp.toNat = Config.initBase.toNat + s.initLen := by
  have hwf : wellFormed (initStart { s with busy := true }) Config.initBase.toNat s.initLen = true :=
    (wellFormed_congr (initStart_busy_rom s) (by rw [initStart_eq])).trans hl
  have hpp := pp_after_program hwf
  rw [initStart_busy_rom] at hpp
  rw [initEnd_eq]
  exact hpp

/-- Settles O22: the fields of `initEnd`, those of the latch as its shape gives them, `PP` and `CNT` as RUNPROG does. -/
theorem initBringsThePanelUp : Obligations.InitBringsThePanelUp := by
  intro s hbusy hphase hwf
  refine ⟨initEnd s, execInit_ok (acceptInit_eq_none.mpr ⟨hbusy, hphase⟩) hwf, initEnd_trace s, ?_⟩
  have hpp := initEnd_pp hwf
  have hcnt := initEnd_cnt s
  have hdat := initEnd_dat s
  obtain ⟨_, _, _, _, _, _, _, _, _, _, e, hpin⟩ := initEnd_shape s
  rw [e] at hpp hcnt hdat ⊢
  exact ⟨rfl, rfl, rfl, rfl, rfl, rfl, hpin, hpp, hcnt, hdat, by simp only [hbusy]⟩

/-- An INIT that completes had a well-formed program and leaves `initEnd` (R222). -/
theorem exec_init_eq_next {s t : State} (h : exec .init s = .next t) : launchable s = true ∧ t = initEnd s := by
  rcases execInit_cases s with ⟨_, hl, e⟩ | ⟨_, _, e⟩ | ⟨_, e⟩ <;> cases e.symm.trans h
  exact ⟨hl, rfl⟩

/-- INIT leaves a block that accepts a second INIT: idle, `Ready`, the ROM as it was (R227). -/
theorem initAccepted_initEnd {s : State} (hl : launchable s = true) :
    acceptInit (initEnd s) = none ∧ launchable (initEnd s) = true ∧ (initEnd s).rom = s.rom := by
  obtain ⟨_, _, _, _, _, _, _, _, _, _, e, _⟩ := initEnd_shape s
  rw [e]
  exact ⟨rfl, hl, rfl⟩

/-- Settles O25: INIT's events are a function of the ROM, which INIT leaves alone. -/
theorem secondInitRepeatsTheTrace : Obligations.SecondInitRepeatsTheTrace := by
  intro s t h
  obtain ⟨hl, rfl⟩ := exec_init_eq_next h
  obtain ⟨ha', hl', hrom⟩ := initAccepted_initEnd hl
  exact ⟨_, initTrace s.rom, execInit_ok ha' hl', initEnd_trace s, hrom ▸ initEnd_trace (initEnd s)⟩

/-! ### What only INIT changes (R229, R247) -/

/-- The phase, the directions, the bus configuration and the geometry. -/
def deviceState (s : State) := (s.phase, s.dir, s.buscfg, s.geo)

theorem deviceState_of_interpreterOnly {s t : State} (h : InterpreterOnly s t) : deviceState t = deviceState s :=
  (congrArg deviceState h.1).trans rfl

/-- All but INIT leave the device's state (R229). -/
theorem Completed.deviceState_eq {i : Instr} {s t : State} (h : Completed s i t) (hi : i ≠ .init) :
    deviceState t = deviceState s := by
  cases h with
  | record r hr => exact deviceState_of_interpreterOnly (runRecord_interpreterOnly r s)
  | init ha hl => exact absurd rfl hi
  | fillPainted x y w h color hf ha => rw [painted_eq]; rfl
  | runprog base => exact deviceState_of_interpreterOnly (runAll_interpreterOnly _ _)
  | setaddrwindow x0 y0 x1 y1 => rw [setAddrWindow_eq]; rfl
  | streampixels hi' lo n => rw [streamPixels_eq]; rfl
  | dly500 | dlyms | fillOff | writecommand | writedata | resetpulse => rfl

/-- Settles O30, field by field. -/
theorem onlyInitChangesDeviceState : Obligations.OnlyInitChangesDeviceState := by
  intro i s t hi h
  simpa only [deviceState, Prod.mk.injEq] using (completed_of_exec h).deviceState_eq hi

/-- Settles O33: INIT ends with its latch, and a fill is not INIT. -/
theorem geometryLatch : Obligations.GeometryLatch := by
  intro s t
  have keeps {i : Instr} (hi : i ≠ .init) (h : exec i s = .next t) : t.geo = s.geo := by
    obtain ⟨_, _, _, hgeo⟩ := onlyInitChangesDeviceState i s t hi h
    exact hgeo
  refine ⟨fun h => ?_, fun _ => keeps nofun, fun _ _ _ _ _ => keeps nofun⟩
  obtain ⟨_, rfl⟩ := exec_init_eq_next h
  rw [initEnd_eq]
  rfl

/-! ### The RST pin and the pin directions (R229, R252) -/

/-- Neither a write of RST nor a pin direction. -/
def leavesRstAndDirs (e : Event) : Bool := !isRst e && !isPinDir e

theorem all_not_isRst_and_isPinDir {es : List Event} (h : es.all leavesRstAndDirs = true) :
    es.all (fun e => !isRst e) = true ∧ es.all (fun e => !isPinDir e) = true := by
  simp only [List.all_eq_true, leavesRstAndDirs, Bool.and_eq_true] at h ⊢
  exact ⟨fun e he => (h e he).1, fun e he => (h e he).2⟩

theorem recordTrace_leavesRstAndDirs (r : RawRecord) : (recordTrace r).all leavesRstAndDirs = true := by
  have hargs : (r.args.flatMap wd).all leavesRstAndDirs = true := by
    rw [List.all_flatMap, List.all_eq_true]
    exact fun _ _ => rfl
  have hdelay : (delayTrace r.delay).all leavesRstAndDirs = true := by cases r.delay <;> rfl
  rw [recordTrace_eq, List.all_append, List.all_append, hargs, hdelay]
  rfl

theorem programTrace_leavesRstAndDirs (m : Memory) (base : Nat) :
    (programTrace m base).all leavesRstAndDirs = true := by
  rw [programTrace, List.all_flatMap, List.all_eq_true]
  exact fun r _ => recordTrace_leavesRstAndDirs r

theorem streamTrace_leavesRstAndDirs (hi lo : Byte) (n : Nat) :
    (streamTrace hi lo n).all leavesRstAndDirs = true := by
  have hrun : (pixelRun hi lo n).all leavesRstAndDirs = true := by
    rw [List.all_eq_true]
    intro e he
    have hx := isXfer_of_mem_pixelRun he
    cases e with
    | xfer b => rfl
    | _ => cases hx
  rw [streamTrace, List.all_append, List.all_append, hrun]
  rfl

theorem rst_of_interpreterOnly {s t : State} (h : InterpreterOnly s t) : t.pin.rst = s.pin.rst := h.2.1

/-- All but INIT and RESETPULSE append events that leave RST and the directions alone, and keep the RST latch. -/
theorem Completed.leavesRst {i : Instr} {s t : State} (h : Completed s i t) (hi : i ≠ .init) (hp : i ≠ .resetpulse) :
    ∃ es, t.trace = s.trace ++ es ∧ es.all leavesRstAndDirs = true ∧ t.pin.rst = s.pin.rst := by
  cases h with
  | record r hr =>
    exact ⟨_, runRecord_trace r s, recordTrace_leavesRstAndDirs r,
      rst_of_interpreterOnly (runRecord_interpreterOnly r s)⟩
  | init ha hl => exact absurd rfl hi
  | fillOff x y w h color hf ha => exact ⟨[], (List.append_nil _).symm, rfl, rfl⟩
  | fillPainted x y w h color hf ha =>
    rw [painted_eq]
    refine ⟨_, rfl, ?_, rfl⟩
    rw [List.all_append, streamTrace_leavesRstAndDirs]
    rfl
  | streampixels hi' lo n =>
    rw [streamPixels_eq]
    exact ⟨_, rfl, streamTrace_leavesRstAndDirs hi' lo n.toNat, rfl⟩
  | runprog base =>
    exact ⟨_, runAll_trace _ _, programTrace_leavesRstAndDirs s.rom base.toNat,
      rst_of_interpreterOnly (runAll_interpreterOnly _ _)⟩
  | setaddrwindow x0 y0 x1 y1 => rw [setAddrWindow_eq]; exact ⟨_, rfl, rfl, rfl⟩
  | resetpulse => exact absurd rfl hp
  | dly500 | dlyms | writecommand | writedata => exact ⟨_, rfl, rfl, rfl⟩

/-- Settles O39: RESETPULSE configures no pin, and every other instruction but INIT leaves RST alone as well. -/
theorem onlyInitAndPulseDriveRst : Obligations.OnlyInitAndPulseDriveRst := by
  intro i s t h
  have hc := completed_of_exec h
  by_cases hi : i = .init
  · obtain ⟨es, he, _⟩ := hc.blocks
    exact ⟨es, he, fun hn => absurd hi hn, fun hn => absurd hi hn⟩
  by_cases hp : i = .resetpulse
  · subst hp
    cases h
    exact ⟨_, rfl, fun _ => rfl, fun _ hn => absurd rfl hn⟩
  obtain ⟨es, he, hall, hrst⟩ := hc.leavesRst hi hp
  obtain ⟨hnoRst, hnoDir⟩ := all_not_isRst_and_isPinDir hall
  exact ⟨es, he, fun _ => hnoDir, fun _ _ => ⟨hnoRst, hrst⟩⟩

end Sys2Proof.Proofs
end

section
/-! PROOFS. A conforming ROM (44_device_init.md R224 to R226): it holds an assembled listing of nine records, whatever its
parameter bytes, so that its program, its counts and INIT's 135 events are those of the listing. -/

namespace Sys2Proof.Proofs

open Sys2Proof Sys2Proof.Machine Sys2Proof.Safety Sys2Proof.Laws

/-! ### The listing of a conforming program (R224) -/

/-- The delay clause that assembles to a delay byte (R93, R110). -/
theorem asmDelayByte_delayMs (d : Byte) : asmDelayByte (delayMs d).toNat = some d := by
  have hlt := d.isLt
  by_cases h : d = 255
  · rw [h]; rfl
  · have hne : d.toNat ≠ 255 := fun h' => h (BitVec.eq_of_toNat_eq h')
    rw [delayMs_toNat_of_ne h, asmDelayByte, if_neg (by omega), if_pos (by omega), BitVec.ofNat_toNat,
      BitVec.setWidth_eq]

/-- The line of a record. -/
def asmLineOf (r : RawRecord) : AsmLine := ⟨r.opcode, r.args, r.delay.map fun d => (delayMs d).toNat⟩

theorem record_asmLineOf {r : RawRecord} (hfit : r.args.length ≤ 127) : (asmLineOf r).record = some r := by
  obtain ⟨opcode, args, delay⟩ := r
  have hlen : ¬ 127 < (asmLineOf ⟨opcode, args, delay⟩).args.length := Nat.not_lt.mpr hfit
  rw [AsmLine.record, if_neg hlen]
  cases delay with
  | none => rfl
  | some d => simp only [asmLineOf, Option.map_some, asmDelayByte_delayMs]

theorem asmRecords_map_asmLineOf {rs : List RawRecord} (hfit : ∀ r ∈ rs, r.args.length ≤ 127) :
    asmRecords (rs.map asmLineOf) = some rs := by
  induction rs with
  | nil => rfl
  | cons r rs ih =>
    obtain ⟨hr, hrs⟩ := List.forall_mem_cons.mp hfit
    rw [List.map_cons, asmRecords, record_asmLineOf hr, ih hrs]

/-- The nine records of a conforming program. -/
def initRecords (p : Config.InitParams) : List RawRecord :=
  [⟨0x01, [], some p.swreset⟩, ⟨0x11, [], some p.slpout⟩, ⟨0x3A, [0x55], some p.colmod⟩, ⟨0x36, [0x00], none⟩,
   ⟨0x2A, [p.caset0, p.caset1, p.caset2, p.caset3], none⟩, ⟨0x2B, [p.raset0, p.raset1, p.raset2, p.raset3], none⟩,
   ⟨0x21, [], some p.invon⟩, ⟨0x13, [], some p.noron⟩, ⟨0x29, [], some p.dispon⟩]

theorem initRecords_fit (p : Config.InitParams) : ∀ r ∈ initRecords p, r.args.length ≤ 127 := by
  simp [initRecords]

/-- The bytes of R224's table are the count and the nine records. -/
theorem initImage_eq (p : Config.InitParams) :
    Config.initImage p = 9 :: (initRecords p).flatMap RawRecord.bytes := by
  simp [Config.initImage, initRecords, RawRecord.bytes, RawRecord.argsByte, mkArgsByte]

theorem assemble_initRecords (p : Config.InitParams) :
    assemble 9 ((initRecords p).map asmLineOf) = some (Config.initImage p) := by
  rw [assemble, asmRecords_map_asmLineOf (initRecords_fit p), initImage_eq]
  rfl

theorem romHolds_of_conforming {p : Config.InitParams} {s : State} (h : ConformingInit p s) :
    RomHolds s Config.initBase.toNat (Config.initImage p) := by
  obtain ⟨hsize, _, hbytes⟩ := h
  exact ⟨hsize, fun i hi => (congrArg (fun a => some (Memory.read s.rom a)) (Nat.zero_add i)).trans (hbytes i hi)⟩

theorem program_of_conforming {p : Config.InitParams} {s : State} (h : ConformingInit p s) :
    programRecords s.rom Config.initBase.toNat = initRecords p ∧
      wellFormed s Config.initBase.toNat s.initLen = true := by
  obtain ⟨hrecords, hwf⟩ := assembledProgramIsTheListing 9 _ _ _ _ s (assemble_initRecords p)
    (asmRecords_map_asmLineOf (initRecords_fit p)) (romHolds_of_conforming h)
  obtain ⟨_, hlen, _⟩ := h
  exact ⟨hrecords, hlen ▸ hwf⟩

/-- The decoded length of a well-formed program, computed with the whole ROM in view (R95, R146). -/
theorem decodedLength_of_wellFormed {s : State} {base len : Nat} (h : wellFormed s base len = true) :
    decodedLength s.rom s.romSize.val base = some len := by
  obtain ⟨hinside, hpos, hoff⟩ := wellFormed_iff.mp h
  rw [decodedLength, if_pos (by omega), offsetAfter_limit hoff hinside]
  simp

/-- Settles O24: the counts of a program's trace, at the nine records. -/
theorem conformingProgramIsWellFormed : Obligations.ConformingProgramIsWellFormed := by
  intro p s h
  obtain ⟨hrecords, hwf⟩ := program_of_conforming h
  obtain ⟨_, hcommands, hdata, hdelays, hlength, _⟩ := programTraceCounts s.rom Config.initBase.toNat
  rw [hrecords] at hcommands hdata hdelays hlength ⊢
  obtain ⟨_, hlen, _⟩ := h
  exact ⟨hwf, hlen ▸ decodedLength_of_wellFormed hwf, rfl, hcommands, hdata, hdelays, hlength⟩

/-! ### INIT on a conforming ROM (R226) -/

theorem countP_addsUp (q : Event → Bool) : AddsUp (List.countP q) := ⟨rfl, fun _ _ => List.countP_append⟩

/-- A count of INIT's events: the directions', the pulse's, the program's and the data write's. -/
theorem AddsUp.on_initTrace {f : List Event → Nat} (h : AddsUp f) (m : Memory) :
    f (initTrace m) =
      f pinDirs + f pulseEvents.toList + f (programTrace m Config.initBase.toNat) + f (wd 0) := by
  rw [initTrace, h.append, h.append, h.append]
  rfl

/-- A program adds no pin direction and no write of RST. -/
theorem countP_programTrace_eq_zero (m : Memory) (base : Nat) :
    (programTrace m base).countP isPinDir = 0 ∧ (programTrace m base).countP isRst = 0 := by
  obtain ⟨hrst, hdir⟩ := all_not_isRst_and_isPinDir (programTrace_leavesRstAndDirs m base)
  exact ⟨by simpa [List.countP_eq_zero] using hdir, by simpa [List.countP_eq_zero] using hrst⟩

/-- The delays of INIT on the default image (R225, R226). -/
theorem delayValues_initTrace {m : Memory}
    (h : programRecords m Config.initBase.toNat = initRecords Config.defaultParams) :
    delayValues (initTrace m) = [50, 50, 50, 150, 500, 10, 10, 10, 500] := by
  rw [initTrace, programTrace, h]
  rfl

theorem argsByte_of_delay (opcode d : Byte) : RawRecord.argsByte ⟨opcode, [], some d⟩ = 0x80 := by
  simp [RawRecord.argsByte, mkArgsByte]

/-- The last of the nine records leaves its own fields in the registers (R142). -/
theorem runAll_initRecords (p : Config.InitParams) (s : State) :
    ∃ t, runAll (initRecords p) s = runRecord ⟨0x29, [], some p.dispon⟩ t := ⟨_, rfl⟩

/-- The interpreter's registers after INIT on a conforming ROM are those of the last record, DISPON (R226). -/
theorem initEnd_registers_of_conforming {p : Config.InitParams} {s : State} (h : ConformingInit p s) :
    (initEnd s).opc = 0x29 ∧ (initEnd s).args = 0x80 ∧ (initEnd s).dlyf = true ∧ (initEnd s).argc = 0 ∧
      (initEnd s).dly = p.dispon ∧ (initEnd s).ms = delayMs p.dispon := by
  obtain ⟨hrecords, _⟩ := program_of_conforming h
  obtain ⟨t, ht⟩ := runAll_initRecords p (programLoop Config.initBase (initStart { s with busy := true }))
  have hend : initProgramEnd s = runRecord ⟨0x29, [], some p.dispon⟩ t := by rw [initProgramEnd, hrecords, ht]
  rw [initEnd_eq, hend, runRecord_eq]
  exact ⟨rfl, argsByte_of_delay 0x29 p.dispon, rfl, rfl, rfl, rfl⟩

/-- Settles O23: the events are the directions, the pulse, the nine records and the data write, and each count is the
sum of theirs (3 + 6 + 120 + 6 = 135). -/
theorem initTraceOnConformingRom : Obligations.InitTraceOnConformingRom := by
  intro p s h hbusy hphase
  obtain ⟨hrecords, hwf⟩ := program_of_conforming h
  obtain ⟨hopc, hargs, hdlyf, hargc, hdly, hms⟩ := initEnd_registers_of_conforming h
  obtain ⟨_, _, _, hcommands, hdata, hdelays, hlength⟩ := conformingProgramIsWellFormed p s h
  obtain ⟨hdirs, hrst⟩ := countP_programTrace_eq_zero s.rom Config.initBase.toNat
  obtain ⟨_, hlen, _⟩ := h
  have hpp : (initEnd s).pp = 35 := BitVec.eq_of_toNat_eq (by rw [initEnd_pp hwf, hlen]; rfl)
  refine ⟨initEnd s, execInit_ok (acceptInit_eq_none.mpr ⟨hbusy, hphase⟩) hwf, hpp, initEnd_cnt s, hopc, hargs, hdlyf,
    hargc, hdly, hms, initEnd_dat s, initTrace s.rom, ?_, initEnd_trace s, ?_, ?_, ?_, ?_, ?_, ?_, ?_⟩
  · rw [length_addsUp.on_initTrace, hlength]; rfl
  · simp only [initTrace, programTrace, hrecords, initRecords, List.flatMap_cons, List.flatMap_nil, recordTrace_eq,
      delayTrace, List.append_assoc, List.append_nil]
    rfl
  · rw [commandWrites_addsUp.on_initTrace, hcommands]; rfl
  · rw [dataWrites_addsUp.on_initTrace, hdata]; rfl
  · rw [delayEvents_addsUp.on_initTrace, hdelays]; rfl
  · rw [(countP_addsUp isPinDir).on_initTrace, hdirs]; rfl
  · rw [(countP_addsUp isRst).on_initTrace, hrst]; rfl
  · rintro rfl
    rw [delayValues_initTrace hrecords]
    exact ⟨rfl, rfl⟩

end Sys2Proof.Proofs
end

section
/-! PROOFS. Refusals and phases (60_exceptions.md): the acceptance table, the phase along the small steps, the delays an
instruction emits, and the step at `IDLE`. -/

namespace Sys2Proof.Proofs

open Sys2Proof Sys2Proof.Machine Sys2Proof.Safety Sys2Proof.Laws

/-! ### Acceptance (R244, R246) -/

/-- The phases other than `Unpowered` and `Ready` are the two inside INIT (R33, R247). -/
theorem not_unpowered_or_ready_iff {ph : Phase} :
    ¬(ph = .unpowered ∨ ph = .ready) ↔ ph = .resetting ∨ ph = .programExecuting := by
  cases ph <;> decide

/-- INIT is refused as `NotReady` by its acceptance alone: a malformed program is another refusal (R244). -/
theorem execInit_notReady_iff {s : State} : execInit s = .refused .notReady ↔ acceptInit s ≠ none := by
  rcases execInit_cases s with ⟨ha, _, e⟩ | ⟨ha, _, e⟩ | ⟨⟨r, ha⟩, e⟩ <;> simp [ha, e]

/-- A fill is refused as `NotReady` by its acceptance alone: an empty rectangle is another refusal (R194). -/
theorem execFillrect_notReady_iff {x y w h color : Word} {s : State} :
    execFillrect x y w h color s = .refused .notReady ↔ s.busy = true ∨ s.phase ≠ .ready := by
  have hnone : acceptFill s ≠ none ↔ s.busy = true ∨ s.phase ≠ .ready := by
    rw [Ne, acceptFill_eq_none, not_and_or, Bool.not_eq_false]
  rw [← hnone]
  rcases execFillrect_cases x y w h color s with
    ⟨ha, _, e⟩ | ⟨ha, _, _, _, e⟩ | ⟨ha, _, _, _, _, e⟩ | ⟨⟨r, ha⟩, e⟩ <;> simp [ha, e]

/-- Settles O26: the acceptance tests, and FILLSCREEN as a fill of the whole panel. -/
theorem acceptanceTable : Obligations.AcceptanceTable := by
  intro s x y w h color
  refine ⟨?_, execFillrect_notReady_iff, execFillrect_notReady_iff⟩
  refine execInit_notReady_iff.trans ?_
  rw [Ne, acceptInit_eq_none, not_and_or, Bool.not_eq_false, not_unpowered_or_ready_iff]

/-! ### The phase along the small steps (R247) -/

/-- The positions of INIT at which a small step sets `PHASE` (R222). -/
def MovesPhase : Pos → Bool
  | .initPins | .progStart | .initLatch => true
  | _ => false

@[simp] theorem returnFrom_phase (op : SubOp) (s : State) : (returnFrom op s).phase = s.phase := by
  rcases returnFrom_cases op s with ⟨c, e⟩ | e <;> rw [e]
  rfl

@[simp] theorem recordDone_phase (s : State) : (recordDone s).phase = s.phase := by
  unfold recordDone
  split
  · exact returnFrom_phase .runProg s
  · rfl

@[simp] theorem nextRecord_phase (s : State) : (nextRecord s).phase = s.phase :=
  recordDone_phase { s with cnt := guardedDec s.cnt }

@[simp] theorem afterArgs_phase (s : State) : (afterArgs s).phase = s.phase := by
  unfold afterArgs
  split
  · split
    · rfl
    · exact nextRecord_phase s
  · rfl

@[simp] theorem nextPixel_phase (s : State) : (nextPixel s).phase = s.phase := by
  unfold nextPixel
  split <;> rfl

@[simp] theorem doWrite_phase (w : LogicalWrite) (s : State) : (doWrite w s).phase = s.phase := by
  cases w <;> rfl

@[simp] theorem startSub_phase (op : SubOp) (s : State) : (startSub op s).phase = s.phase := by
  cases op with
  | writeCommand | writeData => exact returnFrom_phase _ _
  | streamPixels | runProg | setAddrWindow | resetPulse => rfl

/-- Away from INIT's three positions a small step leaves the phase alone. -/
theorem seqStep_phase_eq {s t : State} (hm : MovesPhase s.ctl.pos = false) (h : seqStep s = .next t) :
    t.phase = s.phase := by
  unfold seqStep at h
  cases hpos : s.ctl.pos <;> simp only [hpos] at hm h
  case initPins | progStart | initLatch => cases hm
  case idle =>
    split at h
    · cases h; rfl
    · rcases startHost_next h with ⟨_, rfl⟩ | ⟨_, _, _, _, _, _, rfl⟩ <;> rfl
  case sub op => cases h; exact startSub_phase op s
  case ciCount => obtain ⟨_, rfl⟩ := fetchByte_next h; exact recordDone_phase _
  case ciHdr | ciArg => obtain ⟨_, rfl⟩ := fetchByte_next h; exact afterArgs_phase _
  case ciOpc | ciDlyb => obtain ⟨_, rfl⟩ := fetchByte_next h; rfl
  case ciWait => cases h; exact nextRecord_phase _
  case initPost | streamClose => cases h; exact returnFrom_phase _ _
  case pixLoad => cases h; rfl
  case streamOpen | streamPix => cases h; exact nextPixel_phase _
  case pulse i =>
    split at h <;> cases h
    · rfl
    · exact returnFrom_phase _ _
  case window i =>
    split at h <;> cases h
    · exact doWrite_phase _ s
    · exact (returnFrom_phase _ _).trans (doWrite_phase _ s)
  case fillTest =>
    split at h
    · cases h; rfl
    · split at h <;> cases h
      rfl

/-- The latch comes in the phase the data write before it does (R222). -/
theorem positionOk_initLatch {c : Caller} {ph : Phase} :
    positionOk c .initLatch ph = true ↔ c = .init ∧ ph = .programExecuting := positionOk_initPost

/-- Settles O35: only INIT's three positions set the phase, and the invariant says which phase stands there. -/
theorem phaseMovesOnlyForwardAndInsideInit : Obligations.PhaseMovesOnlyForwardAndInsideInit := by
  intro s t h hs
  have hok := h.position
  cases hpos : s.ctl.pos <;> rw [hpos] at hok
  case initPins =>
    simp only [seqStep, hpos] at hs
    cases hs
    obtain ⟨hc, hu | hr⟩ := positionOk_initPins.mp hok
    · exact .inr ⟨hc, .inl ⟨hu, rfl⟩⟩
    · exact .inr ⟨hc, .inr (.inl ⟨hr, rfl⟩)⟩
  case progStart =>
    simp only [seqStep, hpos] at hs
    cases hs
    obtain ⟨hc, hph⟩ := positionOk_progStart.mp hok
    exact .inr ⟨hc, .inr (.inr (.inl ⟨hph, rfl⟩))⟩
  case initLatch =>
    simp only [seqStep, hpos] at hs
    cases hs
    obtain ⟨hc, hph⟩ := positionOk_initLatch.mp hok
    exact .inr ⟨hc, .inr (.inr (.inr ⟨hph, rfl⟩))⟩
  all_goals exact .inl (seqStep_phase_eq (by rw [hpos]; rfl) hs)

/-! ### The delays an instruction emits (R251) -/

theorem delayAllowed_of_isXfer {e : Event} (h : isXfer e = true) : delayAllowed e = true := by
  cases e with
  | xfer b => rfl
  | _ => cases h

theorem delayAllowed_delayMs (d : Byte) : delayAllowed (.delay (delayMs d).toNat) = true := by
  rcases delayMs_range d with hle | heq
  · simp [delayAllowed, hle]
  · rw [heq]; rfl

theorem streamTrace_delayAllowed (hi lo : Byte) (n : Nat) : (streamTrace hi lo n).all delayAllowed = true := by
  have hrun : (pixelRun hi lo n).all delayAllowed = true :=
    List.all_eq_true.mpr fun _ he => delayAllowed_of_isXfer (isXfer_of_mem_pixelRun he)
  rw [streamTrace, List.all_append, List.all_append, hrun]
  rfl

/-- A block's delays are those of a delay byte or of the reset pulse. -/
theorem Blocks.delayAllowed {es : List Event} (h : Blocks es) : es.all delayAllowed = true := by
  induction h with
  | append _ _ he hf => rw [List.all_append, he, hf]; rfl
  | delay d => simpa using delayAllowed_delayMs d
  | stream hi lo n => exact streamTrace_delayAllowed hi lo n
  | nil | command | data | pulse | pinDirs => rfl

/-- Settles O38: a completed instruction appends whole blocks, and each block's delays are allowed. -/
theorem onlyEncodableDelaysOccur : Obligations.OnlyEncodableDelaysOccur := by
  intro i s t h
  obtain ⟨es, ht, hb⟩ := (completed_of_exec h).blocks
  exact ⟨es, ht, hb.delayAllowed⟩

/-! ### The step at `IDLE` (R246, R270) -/

/-- Nothing follows a host operation run whole: it has ended by itself (log 7). -/
theorem mapNext_afterInstr_idle (r : Result) : mapNext r (afterInstr .idle) = r := by
  cases r <;> rfl

theorem step_idle_quiet {s : State} (hpos : s.ctl.pos = .idle) (hport : s.port = []) : step s = .next s := by
  simp only [step, fetchNext, hpos, hport]

theorem step_idle_request {s : State} {w : PortWord} {rest : List PortWord} (hpos : s.ctl.pos = .idle)
    (hport : s.port = w :: rest) : step s = exec (decodePort w) { s with port := rest } := by
  simp only [step, fetchNext, hpos, hport, mapNext_afterInstr_idle]

/-- Settles O46: the step with no request, and with one. -/
theorem stepRunsTheHostOperation : Obligations.StepRunsTheHostOperation := fun _ hpos =>
  ⟨step_idle_quiet hpos, fun _ _ => step_idle_request hpos⟩

end Sys2Proof.Proofs
end

section
/-! PROOFS. Reset and the `Ready` block (70_reset_and_hazards.md): nothing runs from reset, INIT leaves the state of
R275, every fill keeps it, and a queue of fills runs to its end. -/

namespace Sys2Proof.Proofs

open Sys2Proof Sys2Proof.Machine Sys2Proof.Safety Sys2Proof.Laws

/-! ### Reset (R270) -/

/-- Settles O29: at reset the sequencer is idle and the queue of requests is empty. -/
theorem resetState : Obligations.ResetState :=
  ⟨step_idle_quiet rfl rfl, rfl, rfl, rfl, rfl, rfl, rfl⟩

/-! ### What a fill leaves of the block (R275) -/

/-- The host operations that paint (R195, R199). -/
def IsFill : Instr → Prop
  | .fillscreen _ | .fillrect _ _ _ _ _ => True
  | _ => False

/-- A completed fill ended at its operand latch (R197) or painted its clipped rectangle (R195). -/
theorem Completed.fill_cases {i : Instr} {s t : State} (h : Completed s i t) (hi : IsFill i) :
    ∃ x y w l color,
      t = latchRect x y w l color s ∨ t = paintRect (clipRect (latchRect x y w l color s)) := by
  cases h with
  | record r hr =>
    cases i with
    | fillscreen | fillrect => cases hr
    | _ => exact hi.elim
  | fillOff x y w l color hf ha => exact ⟨x, y, w, l, color, .inl rfl⟩
  | fillPainted x y w l color hf ha => exact ⟨x, y, w, l, color, .inr rfl⟩
  | _ => exact hi.elim

/-- A fill that paints ends with DC and CS high, as its stream leaves them, and keeps RST; one off the panel writes no
pin (R126, R197). -/
theorem readyState_of_fill {i : Instr} {s t : State} (hi : IsFill i) (hs : ReadyState s) (h : exec i s = .next t) :
    ReadyState t := by
  obtain ⟨x, y, w, l, color, rfl | rfl⟩ := (completed_of_exec h).fill_cases hi
  · exact hs
  · obtain ⟨hphase, hgeo, hbus, hdir, hpin, _⟩ := hs
    have hhigh : pinsAfterWrite true s.pin = allOutputs := by rw [hpin]; rfl
    rw [painted_eq]
    exact ⟨hphase, hgeo, hbus, hdir, hhigh, rfl⟩

/-- The end of INIT: its latch, and the pins as its last data write left them (R222, R228). -/
theorem readyState_initEnd (s : State) : ReadyState (initEnd s) := by
  obtain ⟨_, _, _, _, _, _, _, _, _, _, e, hpin⟩ := initEnd_shape s
  rw [e]
  exact ⟨rfl, rfl, rfl, rfl, hpin, rfl⟩

/-- Settles O34. -/
theorem readyStateAfterInitAndFills : Obligations.ReadyStateAfterInitAndFills := by
  intro s t
  refine ⟨fun h => ?_, fun _ => readyState_of_fill trivial, fun _ _ _ _ _ => readyState_of_fill trivial⟩
  obtain ⟨_, rfl⟩ := exec_init_eq_next h
  exact readyState_initEnd s

/-! ### A queue of fills (R274, R275) -/

/-- What every fill keeps beside the queue of requests. -/
def keptByFills (s : State) := (s.ctl, s.busy, s.phase, s.geo, s.pp, s.dir, s.pin.rst)

theorem Completed.fill_frame {i : Instr} {s t : State} (h : Completed s i t) (hi : IsFill i) :
    keptByFills t = keptByFills s ∧ t.port = s.port := by
  obtain ⟨x, y, w, l, color, rfl | rfl⟩ := h.fill_cases hi
  · exact ⟨rfl, rfl⟩
  · rw [painted_eq]; exact ⟨rfl, rfl⟩

/-- An idle block that accepts fills, with the panel's geometry (R246). -/
structure IdleReady (s : State) : Prop where
  ctl : s.ctl = Ctl.idle
  busy : s.busy = false
  phase : s.phase = .ready
  geo : s.geo = panelConstants

theorem IdleReady.of_kept {s t : State} (h : IdleReady s) (hk : keptByFills t = keptByFills s) : IdleReady t := by
  simp only [keptByFills, Prod.mk.injEq] at hk
  obtain ⟨hctl, hbusy, hphase, hgeo, _⟩ := hk
  exact ⟨hctl.trans h.ctl, hbusy.trans h.busy, hphase.trans h.phase, hgeo.trans h.geo⟩

/-- A fill that is not an empty rectangle on the panel (R194). -/
def PaintableFill (i : Instr) : Prop :=
  (∃ color, i = .fillscreen color) ∨
    ∃ x y a b color, i = .fillrect x y a b color ∧ (240 ≤ x.toNat ∨ 240 ≤ y.toNat ∨ (a ≠ 0 ∧ b ≠ 0))

theorem PaintableFill.isFill {i : Instr} (h : PaintableFill i) : IsFill i := by
  obtain ⟨_, rfl⟩ | ⟨_, _, _, _, _, rfl, _⟩ := h <;> exact trivial

/-- The one refusal of a fill in `Ready`, the empty rectangle on the panel, is ruled out (R194). -/
theorem IdleReady.fillrect_completes {x y a b color : Word} {s : State} (hs : IdleReady s)
    (hne : 240 ≤ x.toNat ∨ 240 ≤ y.toNat ∨ (a ≠ 0 ∧ b ≠ 0)) : ∃ t, exec (.fillrect x y a b color) s = .next t := by
  obtain ⟨_, hcompletes⟩ := fillRectRefusedOnlyWhenEmptyOnPanel x y a b color s hs.busy hs.phase
  obtain ⟨hwidth, hheight⟩ := panel_size hs.geo
  refine hcompletes fun ⟨hx, hy, hempty⟩ => ?_
  rw [hwidth] at hx
  rw [hheight] at hy
  obtain hoff | hoff | ⟨ha, hb⟩ := hne
  · exact Nat.not_lt.mpr hoff hx
  · exact Nat.not_lt.mpr hoff hy
  · exact hempty.elim ha hb

theorem IdleReady.fill_completes {i : Instr} {s : State} (hs : IdleReady s) (hi : PaintableFill i) :
    ∃ t, exec i s = .next t := by
  obtain ⟨color, rfl⟩ | ⟨x, y, a, b, color, rfl, hne⟩ := hi
  · obtain ⟨hwidth, hheight⟩ := panel_size hs.geo
    rw [exec_fillscreen, hwidth, hheight]
    exact hs.fillrect_completes (.inr (.inr (by decide)))
  · exact hs.fillrect_completes hne

/-- One step takes the first request of the queue and runs its fill whole (R246; log 6, log 7). -/
theorem IdleReady.step_fill {w : PortWord} {rest : List PortWord} {s : State} (hs : IdleReady s)
    (hport : s.port = w :: rest) (hw : PaintableFill (decodePort w)) :
    ∃ u, step s = .next u ∧ keptByFills u = keptByFills s ∧ u.port = rest := by
  obtain ⟨u, hu⟩ := IdleReady.fill_completes (s := { s with port := rest }) { hs with } hw
  have hpos : s.ctl.pos = .idle := congrArg Ctl.pos hs.ctl
  exact ⟨u, (step_idle_request hpos hport).trans hu, (completed_of_exec hu).fill_frame hw.isFill⟩

theorem run_succ_of_step {n : Nat} {s u : State} (h : step s = .next u) :
    Host.Core.run Sys2Proof.core (n + 1) s = Host.Core.run Sys2Proof.core n u := by
  have hcore : Host.Core.step Sys2Proof.core s = .next u := h
  simp only [Host.Core.run, hcore]

/-- A queue of fills empties, one step for each (R274). -/
theorem IdleReady.run_fills {ws : List PortWord} {s : State} (hs : IdleReady s) (hport : s.port = ws)
    (hws : ∀ w ∈ ws, PaintableFill (decodePort w)) :
    ∃ t, Host.Core.run Sys2Proof.core ws.length s = .next t ∧ keptByFills t = keptByFills s ∧ t.port = [] := by
  induction ws generalizing s with
  | nil => exact ⟨s, rfl, rfl, hport⟩
  | cons w rest ih =>
    obtain ⟨hw, hrest⟩ := List.forall_mem_cons.mp hws
    obtain ⟨u, hstep, hkept, hu⟩ := hs.step_fill hport hw
    obtain ⟨t, hrun, hkept', ht⟩ := ih (hs.of_kept hkept) hu hrest
    exact ⟨t, (run_succ_of_step hstep).trans hrun, hkept'.trans hkept, ht⟩

/-- Settles O41: the run of the queue, and what its fills kept. -/
theorem readyBlockRunsAnyFills : Obligations.ReadyBlockRunsAnyFills := by
  intro ws s hctl hbusy hphase hgeo hport hws
  obtain ⟨t, hrun, hkept, hempty⟩ := IdleReady.run_fills ⟨hctl, hbusy, hphase, hgeo⟩ hport hws
  simp only [keptByFills, Prod.mk.injEq] at hkept
  obtain ⟨hctl', hbusy', hphase', hgeo', hpp, hdir, hrst⟩ := hkept
  exact ⟨t, hrun, hphase'.trans hphase, hctl'.trans hctl, hbusy'.trans hbusy, hempty, hgeo'.trans hgeo, hpp, hdir, hrst⟩

end Sys2Proof.Proofs
end
